-- ==== Sys2Proof/Word.lean ====
section
/-! DEFINITION. The word types of the link-layer core (LLC): everything on the wire is a byte (R14, R60), sequence
bits are one bit wide (R21, R22), length registers are W_LEN = 12 bits wide (R9, R26). -/

namespace Sys2Proof

/-- A byte: 8 bits, bit 0 the least significant (R14). -/
abbrev Byte := BitVec 8

/-- A sequence bit (R21, R22). -/
abbrev Bit := BitVec 1

/-- A length register, W_LEN = 12 bits (R9, R26). -/
abbrev Len := BitVec 12

end Sys2Proof
end

