-- ==== Sys2Proof/Config.lean ====
section
/-! DEFINITION. The build-time constants of the LLC at the values of the table of R9 (log 1), and the one open
parameter of the machine, F_TICK (R9, U9; log 2). -/

namespace Sys2Proof.Config

/-- FLAG, the start and end delimiter (R9, R83). -/
def flag : Byte := 0x7E#8

/-- ESC, the escape byte (R9). -/
def esc : Byte := 0x7D#8

/-- XMASK, the value XORed into an escaped byte (R9). -/
def xmask : Byte := 0x20#8

/-- A_TX, the address of the initiator's commands and of replies to them (R9, R84). -/
def aTx : Byte := 0x03#8

/-- A_RX, the address of the responder's commands and of replies to them (R9, R84). -/
def aRx : Byte := 0x01#8

/-- C_SET (R9, R85). -/
def cSet : Byte := 0x03#8

/-- C_UA (R9, R85). -/
def cUa : Byte := 0x07#8

/-- C_DISC (R9, R85). -/
def cDisc : Byte := 0x0B#8

/-- C_RR(0); C_RR(n) sets bit 7 to n (R9, R85). -/
def cRrBase : Byte := 0x05#8

/-- C_REJ(0); C_REJ(n) sets bit 7 to n (R9, R85). -/
def cRejBase : Byte := 0x01#8

/-- MAX_PAYLOAD: the largest payload of one frame, in bytes (R9). -/
def maxPayload : Nat := 1000

/-- RXBUF_CAP = MAX_PAYLOAD + 1 destuffed bytes (R9). -/
def rxbufCap : Nat := maxPayload + 1

/-- TXBUF_CAP = 2 * MAX_PAYLOAD + 7 wire bytes (R9, R62). -/
def txbufCap : Nat := 2 * maxPayload + 7

/-- F_TICK less one. OPEN in the spec (U9), so it has no body: no proof can see its value (log 2). -/
opaque fTickPred : Nat

/-- F_TICK, timer ticks per second: an open parameter, at least 1 (R9, U9; log 2). -/
def fTick : Nat := fTickPred + 1

end Sys2Proof.Config
end

