-- ==== Sys2Proof/Syntax.lean ====
section
/-! DEFINITION. What the LLC executes: the 14 rows of the opcode table (R105) as ONE inductive, and their operands. -/

namespace Sys2Proof

/-- The address field of a frame: one of two values (R84). -/
inductive Addr where
  | tx   -- A_TX
  | rx   -- A_RX
deriving DecidableEq, Repr

/-- One destuffed byte of a body as it travels: as itself, or as ESC followed by a byte x that stands for x xor XMASK.
The decoder takes any x other than FLAG (R92), the encoder of R91 writes only 0x5E and 0x5D. -/
inductive BodyUnit where
  | plain (b : Byte)
  | escaped (x : Byte)
deriving DecidableEq, Repr

/-- The instructions: the six frame kinds (R148 to R153), the two escape pairs (R113), the six host command
behaviours (R201, R204, R160, R180, R207, R211). A frame carries its address; RR and REJ carry n = control bit 7, I carries
s = control bit 6 (R94) and its body: the payload followed by checksum-2 as received (R18, R82). -/
inductive Instr where
  | set (a : Addr)
  | ua (a : Addr)
  | disc (a : Addr)
  | rr (a : Addr) (n : Bit)
  | rej (a : Addr) (n : Bit)
  | info (a : Addr) (sb : Bit) (body : List BodyUnit)
  | escFlag
  | escEsc
  | openS
  | openR
  | write
  | read
  | closeS
  | closeR
deriving DecidableEq, Repr

end Sys2Proof
end

