-- ==== Sys2Proof/Machine/Codec.lean ====
section
/-! DEFINITION. The frame codec as pure functions (40_codec.md): field values, checksums, stuffing, destuffing, whole
frames, and the reference parser PARSE_INFO. -/

namespace Sys2Proof

/-- The address byte of an address (R84). -/
def Addr.byte : Addr → Byte
  | .tx => Config.aTx
  | .rx => Config.aRx

/-- C_RR(n) = 0x05 or (n << 7) (R85). -/
def cRr (n : Bit) : Byte := Config.cRrBase ||| (n.zeroExtend 8 <<< 7)

/-- C_REJ(n) = 0x01 or (n << 7) (R85). -/
def cRej (n : Bit) : Byte := Config.cRejBase ||| (n.zeroExtend 8 <<< 7)

/-- C_I(s) = s << 6 (R85). -/
def cInfo (s : Bit) : Byte := s.zeroExtend 8 <<< 6

/-- The sequence bit of an information control byte: C[6] (R94). -/
def infoBit (c : Byte) : Bit := c.extractLsb' 6 1

/-- BCC1(a, c) = a xor c (R110). -/
def bcc1 (a c : Byte) : Byte := a ^^^ c

/-- BCC2(p): the XOR-fold of the bytes of p from 0x00 (R111). -/
def bcc2 (p : List Byte) : Byte := p.foldl (· ^^^ ·) 0x00#8

/-- STUFF_BYTE(b) (R113). -/
def stuffByte (b : Byte) : List Byte :=
  if b = Config.flag ∨ b = Config.esc then [Config.esc, b ^^^ Config.xmask] else [b]

/-- STUFF(s): the concatenation of STUFF_BYTE over s (R114). -/
def stuff (s : List Byte) : List Byte := s.flatMap stuffByte

/-- DESTUFF(w): one pass, ESC takes the next byte xor XMASK (R115). DESIGN CHOICE (log 26): where R115 defines no value,
for a w that ends in an unpaired ESC or contains FLAG, alone or after ESC, there is none. -/
def destuff : List Byte → Option (List Byte)
  | [] => some []
  | [b] => if b = Config.flag ∨ b = Config.esc then none else some [b]
  | b :: x :: w =>
    if b = Config.flag then none
    else if b = Config.esc then
      if x = Config.flag then none else (destuff w).map (fun v => (x ^^^ Config.xmask) :: v)
    else (destuff (x :: w)).map (fun v => b :: v)

/-- The five wire bytes of a supervisory frame (R81, R117). -/
def supFrame (a c : Byte) : List Byte :=
  [Config.flag, a, c, bcc1 a c, Config.flag]

/-- The header of an information frame, its wire body and the end delimiter (R82). -/
def infoWire (a : Byte) (s : Bit) (w : List Byte) : List Byte :=
  [Config.flag, a, cInfo s, bcc1 a (cInfo s)] ++ w ++ [Config.flag]

/-- The wire image BUILD_INFO makes: the stuffed payload and checksum-2 between header and end delimiter (R118). -/
def infoFrame (a : Byte) (s : Bit) (p : List Byte) : List Byte :=
  infoWire a s (stuff (p ++ [bcc2 p]))

/-- The wire bytes of one body unit (R92). -/
def BodyUnit.bytes : BodyUnit → List Byte
  | .plain b => [b]
  | .escaped x => [Config.esc, x]

/-- The destuffed byte a body unit stands for (R92). -/
def BodyUnit.value : BodyUnit → Byte
  | .plain b => b
  | .escaped x => x ^^^ Config.xmask

/-- The wire bytes of a body. -/
def bodyBytes (body : List BodyUnit) : List Byte := body.flatMap BodyUnit.bytes

/-- The destuffed bytes of a body: the payload followed by checksum-2 (R18). -/
def bodyValues (body : List BodyUnit) : List Byte := body.map BodyUnit.value

/-- How the encoder of R91 sends one byte. -/
def stuffUnit (b : Byte) : BodyUnit :=
  if b = Config.flag ∨ b = Config.esc then .escaped (b ^^^ Config.xmask) else .plain b

/-- How the encoder of R91 sends a byte sequence. -/
def stuffUnits (s : List Byte) : List BodyUnit := s.map stuffUnit

/-- The result of PARSE_INFO (R120). -/
inductive Parsed where
  | malformed
  | frame (s : Bit) (p : List Byte) (good : Bool)
deriving DecidableEq, Repr

/-- What PARSE_INFO makes of the destuffed body: the last byte is checksum-2, the rest the payload (R120). -/
def parseBody (s : Bit) (body : List Byte) : Parsed :=
  if body.length = 0 ∨ Config.rxbufCap < body.length then .malformed
  else .frame s body.dropLast (decide (bcc2 body.dropLast = body.getLastD 0x00#8))

/-- PARSE_INFO(w): the reference parser of one delimited information frame (R120). Its operand has no FLAG between its
ends; on one that has, DESTUFF has no value and the answer is malformed (DESIGN CHOICE, log 26). -/
def parseInfo (w : List Byte) : Parsed :=
  if w.length < 6 ∨ w.getD 0 0x00#8 ≠ Config.flag ∨ w.getD (w.length - 1) 0x00#8 ≠ Config.flag then .malformed
  else
    let a := w.getD 1 0x00#8
    let c := w.getD 2 0x00#8
    if a ≠ Config.aTx ∨ (c ≠ cInfo 0#1 ∧ c ≠ cInfo 1#1) ∨ w.getD 3 0x00#8 ≠ bcc1 a c then .malformed
    else
      match destuff ((w.drop 4).dropLast) with
      | none => .malformed
      | some body => parseBody (infoBit c) body

end Sys2Proof
end

