-- ==== Sys2Proof/WellFormed.lean ====
section
/-! DEFINITION. Which terms of Instr stand for something on the wire: only the body of an information frame can be
ill-formed (R92, R99). -/

namespace Sys2Proof

/-- A plain byte is neither FLAG nor ESC; an escaped byte is anything but FLAG (R92, R99 b). -/
def BodyUnit.wf : BodyUnit → Bool
  | .plain b => b != Config.flag && b != Config.esc
  | .escaped x => x != Config.flag

/-- A body holds at least checksum-2 (R99 a), at most RXBUF_CAP destuffed bytes (R99 c), and well-formed units. -/
def bodyWf (body : List BodyUnit) : Bool :=
  !body.isEmpty && decide (body.length ≤ Config.rxbufCap) && body.all BodyUnit.wf

/-- Every frame but I, every escape pair and every host command is well-formed as it stands. -/
def Instr.wf : Instr → Bool
  | .set _ => true
  | .ua _ => true
  | .disc _ => true
  | .rr _ _ => true
  | .rej _ _ => true
  | .info _ _ body => bodyWf body
  | .escFlag => true
  | .escEsc => true
  | .openS => true
  | .openR => true
  | .write => true
  | .read => true
  | .closeS => true
  | .closeR => true

end Sys2Proof
end

