-- ==== Sys2Proof/Decode.lean ====
section
/-! DEFINITION. The decoder, total on any wire bytes and any host word, rejecting by name, and after it the encoder,
both from the encoding tables of 30_encoding.md. The machine itself never decodes a frame from a buffer (R95): it takes
wire bytes one at a time (Machine/Recognizer.lean); this decoder says which instruction a run of wire bytes is. -/

namespace Sys2Proof

/-- What is presented to the LLC: a run of wire bytes, or the 3-bit host word {CFG_ROLE, opcode[1:0]} (R105). -/
inductive Fetched where
  | wire (bs : List Byte)
  | host (w : BitVec 3)
deriving DecidableEq, Repr

/-- Why something presented is no instruction. -/
inductive DecodeError where
  | tooShort            -- fewer bytes than any frame or pair has
  | noStartDelimiter    -- the first byte is not FLAG (R81, R82)
  | badAddress          -- the second byte is none of the two addresses (R98)
  | badControl          -- the third byte is none of the nine control bytes (R86)
  | badChecksum1        -- the fourth byte is not address xor control (R87)
  | noEndDelimiter      -- the last byte is not FLAG, or bytes follow a supervisory frame's FLAG (R81)
  | flagInBody          -- a raw FLAG before the last byte: the frame ends there (R93)
  | unpairedEscape      -- ESC directly before FLAG (R99 b)
  | emptyBody           -- FLAG directly after checksum-1 (R99 a)
  | bodyTooLong         -- more than RXBUF_CAP destuffed bytes (R99 c)
  | noEscapePair        -- two bytes that are none of the encoder's two escape pairs (R91)
  | readBySender        -- host word {0, READ}: no row of the table, refused with IllegalCommand (R237)
  | writeByReceiver     -- host word {1, WRITE}: no row of the table, refused with IllegalCommand (R237)
deriving DecidableEq, Repr

/-- The address of an address byte (R84). -/
def decodeAddr (a : Byte) : Except DecodeError Addr :=
  if a = Config.aTx then .ok .tx
  else if a = Config.aRx then .ok .rx
  else .error .badAddress

/-- The bytes after checksum-1 of a supervisory frame: the end delimiter alone (R81). -/
def decodeSup (i : Instr) (rest : List Byte) : Except DecodeError Instr :=
  if rest = [Config.flag] then .ok i else .error .noEndDelimiter

/-- The body units up to the end delimiter, which must be the last byte (R92, R93). -/
def decodeUnits : List Byte → Except DecodeError (List BodyUnit)
  | [] => .error .noEndDelimiter
  | [b] => if b = Config.flag then .ok [] else .error .noEndDelimiter
  | b :: x :: w =>
    if b = Config.flag then .error .flagInBody
    else if b = Config.esc then
      if x = Config.flag then .error .unpairedEscape
      else (decodeUnits w).map (fun us => .escaped x :: us)
    else (decodeUnits (x :: w)).map (fun us => .plain b :: us)

/-- The bytes after checksum-1 of an information frame (R82, R99). -/
def decodeInfo (a : Addr) (s : Bit) (rest : List Byte) : Except DecodeError Instr :=
  match decodeUnits rest with
  | .error e => .error e
  | .ok us =>
    if us.isEmpty then .error .emptyBody
    else if Config.rxbufCap < us.length then .error .bodyTooLong
    else .ok (.info a s us)

/-- A frame by its control byte, matched on all 8 bits (R85, R86). -/
def decodeControl (a : Addr) (c : Byte) (rest : List Byte) : Except DecodeError Instr :=
  if c = Config.cSet then decodeSup (.set a) rest
  else if c = Config.cUa then decodeSup (.ua a) rest
  else if c = Config.cDisc then decodeSup (.disc a) rest
  else if c = cRr 0#1 then decodeSup (.rr a 0#1) rest
  else if c = cRr 1#1 then decodeSup (.rr a 1#1) rest
  else if c = cRej 0#1 then decodeSup (.rej a 0#1) rest
  else if c = cRej 1#1 then decodeSup (.rej a 1#1) rest
  else if c = cInfo 0#1 then decodeInfo a 0#1 rest
  else if c = cInfo 1#1 then decodeInfo a 1#1 rest
  else .error .badControl

/-- A run of wire bytes as one instruction: an escape pair or a whole frame (R81, R82, R91). -/
def decodeWire : List Byte → Except DecodeError Instr
  | [b, x] =>
    if b = Config.esc ∧ x = Config.flag ^^^ Config.xmask then .ok .escFlag
    else if b = Config.esc ∧ x = Config.esc ^^^ Config.xmask then .ok .escEsc
    else .error .noEscapePair
  | f :: a :: c :: x :: rest =>
    if f = Config.flag then
      match decodeAddr a with
      | .error e => .error e
      | .ok ad => if x = bcc1 a c then decodeControl ad c rest else .error .badChecksum1
    else .error .noStartDelimiter
  | _ => .error .tooShort

/-- A host word {CFG_ROLE, opcode[1:0]}: the six rows of the table, the two others refused by name (R101, R105, R237). -/
def decodeHost (w : BitVec 3) : Except DecodeError Instr :=
  if w = 0#3 then .ok .openS
  else if w = 1#3 then .ok .write
  else if w = 2#3 then .error .readBySender
  else if w = 3#3 then .ok .closeS
  else if w = 4#3 then .ok .openR
  else if w = 5#3 then .error .writeByReceiver
  else if w = 6#3 then .ok .read
  else .ok .closeR

/-- The decoder. -/
def decode : Fetched → Except DecodeError Instr
  | .wire bs => decodeWire bs
  | .host w => decodeHost w

/-- The encoder, from the same tables (R81, R82, R85, R91, R105). -/
def encode : Instr → Fetched
  | .set a => .wire (supFrame a.byte Config.cSet)
  | .ua a => .wire (supFrame a.byte Config.cUa)
  | .disc a => .wire (supFrame a.byte Config.cDisc)
  | .rr a n => .wire (supFrame a.byte (cRr n))
  | .rej a n => .wire (supFrame a.byte (cRej n))
  | .info a s body => .wire (infoWire a.byte s (bodyBytes body))
  | .escFlag => .wire [Config.esc, Config.flag ^^^ Config.xmask]
  | .escEsc => .wire [Config.esc, Config.esc ^^^ Config.xmask]
  | .openS => .host 0#3
  | .write => .host 1#3
  | .closeS => .host 3#3
  | .openR => .host 4#3
  | .read => .host 6#3
  | .closeR => .host 7#3

/-- The address and control byte of a frame; none for an escape pair or a host command (R81, R82). -/
def Instr.header : Instr → Option (Byte × Byte)
  | .set a => some (a.byte, Config.cSet)
  | .ua a => some (a.byte, Config.cUa)
  | .disc a => some (a.byte, Config.cDisc)
  | .rr a n => some (a.byte, cRr n)
  | .rej a n => some (a.byte, cRej n)
  | .info a s _ => some (a.byte, cInfo s)
  | .escFlag => none
  | .escEsc => none
  | .openS => none
  | .write => none
  | .closeS => none
  | .openR => none
  | .read => none
  | .closeR => none

/-- The wire bytes of an instruction; none for a host command. -/
def Instr.wireBytes (i : Instr) : Option (List Byte) :=
  match encode i with
  | .wire bs => some bs
  | .host _ => none

/-- The information frame of a payload as its sender encodes it: I(s)[p] with the checksum-2 of p (R118). -/
def Instr.infoOf (s : Bit) (p : List Byte) : Instr :=
  .info .tx s (stuffUnits (p ++ [bcc2 p]))

/-- The wire bytes that carry control byte c with address byte a: a whole frame, an information frame with the
all-zero body of the empty payload (log 17). -/
def frameOfHeader (a c : Byte) : Fetched :=
  if c = cInfo 0#1 ∨ c = cInfo 1#1 then .wire (infoWire a (infoBit c) [0x00#8])
  else .wire (supFrame a c)

/-- What a table word of nbits bits presents to the LLC (log 17). 16 bits: an escape pair, ESC in bits 15:8 (R105).
More than 16: the header pattern address, control, checksum-1 of R105, or, where only the low 8 bits or only the control
field are given, the control byte of match and mask with address A_TX. Up to 8 bits: a host word where the table has a
host row for it, else a control byte. -/
def tableUnit (nbits w : Nat) : Fetched :=
  let b0 := BitVec.ofNat 8 w
  let b1 := BitVec.ofNat 8 (w / 256)
  let b2 := BitVec.ofNat 8 (w / 65536)
  if nbits ≤ 8 then
    if w < 8 ∧ w ≠ 5 then .host (BitVec.ofNat 3 w) else frameOfHeader Config.aTx b0
  else if nbits ≤ 16 then .wire [b1, b0]
  else if w < 256 then frameOfHeader Config.aTx b0
  else if b2 = 0#8 ∧ b0 = 0#8 then frameOfHeader Config.aTx b1
  else
    match frameOfHeader b2 b1 with
    | .wire (f :: a :: c :: _ :: rest) => .wire (f :: a :: c :: b0 :: rest)
    | u => u

/-- The instruction the decoder reads from a table word (log 17). -/
def decodeTableWord (nbits w : Nat) : Option Instr := (decode (tableUnit nbits w)).toOption

end Sys2Proof
end

