-- ==== Sys2Proof/Machine/State.lean ====
section
/-! DEFINITION. The state of one LLC instance (R20 to R43), the environment state it depends on (R44), the inputs and
outputs of R12, the reset values of R47, and the reasons a step can stop. Everything is plain data. -/

namespace Sys2Proof.Machine

/-- CFG_ROLE: 0 Sender, 1 Receiver (R33). -/
inductive Role where
  | sender
  | receiver
deriving DecidableEq, Repr

/-- PHASE (R29). accepted, rejected, timedOut and awaitingSend are entered and left inside one event. -/
inductive Phase where
  | ready
  | awaitingSend
  | awaitingResponse
  | accepted
  | rejected
  | timedOut
  | awaitingCommand
deriving DecidableEq, Repr

/-- RXS, the state of the byte recognizer (R30). -/
inductive Rxs where
  | idle
  | delimiterSeen
  | addressSeen
  | controlSeen
  | checksumVerified
  | done
deriving DecidableEq, Repr

/-- SESSION (R41). -/
inductive Session where
  | closed
  | opened
deriving DecidableEq, Repr

/-- OP, the host operation: 0 OPEN, 1 WRITE, 2 READ, 3 CLOSE (R41, R101). -/
inductive Op where
  | openCmd
  | writeCmd
  | readCmd
  | closeCmd
deriving DecidableEq, Repr

/-- RESULT.CODE (R39, R230). malformedFrame is never written (R235). -/
inductive Code where
  | ok
  | transportUnavailable
  | handshakeFailed
  | maxRetriesExceeded
  | checksumMismatch
  | malformedFrame
  | illegalCommand
deriving DecidableEq, Repr

/-- RESULT.KIND (R39). -/
inductive Kind where
  | none
  | delivered
  | duplicate
  | written
deriving DecidableEq, Repr

/-- RESULT (R39). -/
structure Result where
  code : Code
  kind : Kind
  len : Len
deriving DecidableEq, Repr

/-- The configuration registers (R32 to R37). CFG_PORT has the open width W_PORT and is never interpreted (log 18). -/
structure Cfg where
  role : Role
  maxRetries : BitVec 8
  timeout : BitVec 8
  port : Nat
  baud : BitVec 32
deriving DecidableEq, Repr

/-- TIMER, TIMER_ARMED and ALARM (R24, R31). The width of TIMER depends on F_TICK, so it is a number (log 18). -/
structure Timer where
  count : Nat
  armed : Bool
  alarm : Bool
deriving DecidableEq, Repr

/-- REC_KIND (R40). -/
inductive RecKind where
  | sup
  | info
deriving DecidableEq, Repr

/-- The recognizer configuration registers REC_EXPA, REC_ACC, REC_KIND (R40). -/
structure RecConfig where
  expA : Byte
  acc : BitVec 9
  kind : RecKind
deriving DecidableEq, Repr

/-- A byte buffer: (index, byte) pairs, indices strictly rising, no byte listed that equals what an unlisted index
reads as (Machine/Memory.lean). -/
abbrev Memory := List Host.Cell

/-- What the recognizer reads and writes (R131): RXS, C_LATCH, ESC_PEND, RXLEN, its configuration, and RXBUF. -/
structure Recognizer where
  rxs : Rxs
  cLatch : Byte
  escPend : Bool
  rxLen : Len
  conf : RecConfig
  rxbuf : Memory
deriving DecidableEq, Repr

/-- The output events (R12). -/
inductive Output where
  | tx (bs : List Byte)
  | chanOpen (port : Nat) (baud : BitVec 32)
  | chanClose
  | done (code : Code) (kind : Kind) (len : Len)
deriving DecidableEq, Repr

/-- What the outside does to the LLC, one entry a step (R12, R32, R61, R66, R67; log 5). -/
inductive Input where
  | reset                              -- the Reset event (R260)
  | cmd (op : Op)                      -- Cmd(op) (R101)
  | wire (bs : List Byte)              -- a run of wire bytes arrives and is polled (R104; log 6)
  | poll                               -- LLC polls the shim once: RxByte of the oldest queued byte (R65)
  | tick                               -- Tick (R246)
  | timeout                            -- Timeout (R240)
  | putRole (r : Role)                 -- host writes CFG_ROLE (R32, R33)
  | putMaxRetries (n : BitVec 8)       -- host writes CFG_MAX_RETRIES (R32, R34)
  | putTimeout (n : BitVec 8)          -- host writes CFG_TIMEOUT (R32, R35)
  | putPort (p : Nat)                  -- host writes CFG_PORT (R32, R36)
  | putBaud (b : BitVec 32)            -- host writes CFG_BAUD (R32, R36)
  | putTxpay (i : Nat) (b : Byte)      -- host writes TXPAY[i] (R61, R71)
  | putTxpayLen (n : Len)              -- host writes TXPAY_LEN (R61, R71)
  | shimAnswer (ok : Bool)             -- what the shim will answer to ChanOpen (R206, U8; log 8)
  | peerSends (bs : List Byte)         -- the peer puts bytes on the line (R67)
  | lineDeliver                        -- the oldest byte on the line reaches the shim (R66, R67)
  | lineAlter (b : Byte)               -- the same, changed on the way (R67)
  | lineDrop                           -- the oldest byte on the line is lost (R67)
  | lineInsert (b : Byte)              -- a byte nobody sent reaches the shim (R67)
  | lineTaken                          -- the oldest byte LLC sent leaves the line (R67)
  | shimReset                          -- the platform closes the port and empties the shim's queue (R260, R275; log 11)
deriving DecidableEq, Repr

/-- The environment state (R44), the inputs still to come and the outputs produced, oldest first (log 5, log 20). -/
structure Env where
  rxQueue : List Byte
  lineIn : List Byte
  lineOut : List Byte
  portOpen : Bool
  shimOk : Bool
  inputs : List Input
  outputs : List Output
deriving DecidableEq, Repr

/-- The state of one LLC instance and its environment (R20, R44). -/
structure State where
  ns : Bit
  nr : Bit
  retry : BitVec 8
  timer : Timer
  phase : Phase
  op : Op
  busy : Bool
  session : Session
  result : Result
  cfg : Cfg
  recog : Recognizer
  txpay : Memory
  txpayLen : Len
  txbuf : Memory
  txLen : Len
  env : Env
deriving DecidableEq, Repr

/-- Why the machine stops. -/
inductive Fault where
  /-- Raised by a host write to TXPAY[i] with i >= MAX_PAYLOAD: the space has no such index (R60; log 15). Safe: the
  model stops where the spec gives no such access. -/
  | noSuchIndex
deriving DecidableEq, Repr

/-- Why the model gives no meaning. -/
inductive Refusal where
  /-- Raised by an arm of exec whose instruction has no meaning yet, with its mnemonic. Safe: the run ends. -/
  | notModelled (mnemonic : String)
deriving DecidableEq, Repr

/-- The environment with no input, nothing on the line, the port closed (R44; log 5, log 8, log 11, log 20). -/
def Env.initial : Env :=
  { rxQueue := [], lineIn := [], lineOut := [], portOpen := false, shimOk := true, inputs := [], outputs := [] }

/-- The machine right after reset (R47); CFG registers log 3, buffers log 4, environment log 11. -/
def State.reset : State :=
  { ns := 0#1
    nr := 0#1
    retry := 0#8
    timer := { count := 0, armed := false, alarm := false }
    phase := .ready
    op := .openCmd
    busy := false
    session := .closed
    result := { code := .ok, kind := .none, len := 0#12 }
    cfg := { role := .sender, maxRetries := 0#8, timeout := 0#8, port := 0, baud := 0#32 }
    recog :=
      { rxs := .idle, cLatch := 0x00#8, escPend := false, rxLen := 0#12
        conf := { expA := 0x00#8, acc := 0#9, kind := .sup }
        rxbuf := [] }
    txpay := []
    txpayLen := 0#12
    txbuf := []
    txLen := 0#12
    env := Env.initial }

end Sys2Proof.Machine
end

