-- ==== Sys2Proof/Machine/Flags.lean ====
section
/-! DEFINITION. The flags TIMER_ARMED, ALARM and BUSY (R31), the timer operations (R244 to R246), and the host's
windows STATUS and RESULT (R38, R39). ESC_PEND belongs to the recognizer (Machine/Recognizer.lean). -/

namespace Sys2Proof.Machine

/-- The value arm() loads into TIMER: CFG_TIMEOUT * F_TICK (R24, R244). -/
def timerLoad (timeout : BitVec 8) : Nat := Config.fTick * timeout.toNat

/-- arm() (R244). -/
def arm (s : State) : State :=
  { s with timer := { count := timerLoad s.cfg.timeout, armed := true, alarm := false } }

/-- disarm() (R245): TIMER keeps its value. -/
def disarm (s : State) : State :=
  { s with timer := { s.timer with armed := false, alarm := false } }

/-- A Timeout is due when TIMER_ARMED = 1 and TIMER = 0 (R246). -/
def timeoutDue (s : State) : Bool := s.timer.armed && s.timer.count == 0

/-- Tick (R246). -/
def tickTimer (s : State) : State :=
  if s.timer.armed = true ∧ 0 < s.timer.count then
    { s with timer := { s.timer with count := s.timer.count - 1 } }
  else s

/-- The first effect of a Timeout: TIMER_ARMED <- 0; ALARM <- 1 (R246). -/
def alarmFires (s : State) : State :=
  { s with timer := { s.timer with armed := false, alarm := true } }

/-- ALARM <- 0. -/
def clearAlarm (s : State) : State :=
  { s with timer := { s.timer with alarm := false } }

/-- RETRY - 1, performed only when RETRY >= 1 (R121 d, R23). -/
def spendRetry (r : BitVec 8) : BitVec 8 := if r = 0#8 then 0#8 else r - 1#8

/-- The encoding of CFG_ROLE (R33). -/
def Role.bits : Role → BitVec 1
  | .sender => 0#1
  | .receiver => 1#1

/-- The encoding of PHASE (R29). -/
def Phase.bits : Phase → BitVec 3
  | .ready => 0#3
  | .awaitingSend => 1#3
  | .awaitingResponse => 2#3
  | .accepted => 3#3
  | .rejected => 4#3
  | .timedOut => 5#3
  | .awaitingCommand => 6#3

/-- The encoding of RXS (R30). -/
def Rxs.bits : Rxs → BitVec 3
  | .idle => 0#3
  | .delimiterSeen => 1#3
  | .addressSeen => 2#3
  | .controlSeen => 3#3
  | .checksumVerified => 4#3
  | .done => 5#3

/-- The encoding of SESSION (R41). -/
def Session.bits : Session → BitVec 1
  | .closed => 0#1
  | .opened => 1#1

/-- The encoding of OP, which is the host opcode (R41, R101). -/
def Op.bits : Op → BitVec 2
  | .openCmd => 0#2
  | .writeCmd => 1#2
  | .readCmd => 2#2
  | .closeCmd => 3#2

/-- The encoding of REC_KIND (R40). -/
def RecKind.bits : RecKind → BitVec 1
  | .sup => 0#1
  | .info => 1#1

/-- The encoding of RESULT.CODE (R39). -/
def Code.bits : Code → BitVec 3
  | .ok => 0#3
  | .transportUnavailable => 1#3
  | .handshakeFailed => 2#3
  | .maxRetriesExceeded => 3#3
  | .checksumMismatch => 4#3
  | .malformedFrame => 5#3
  | .illegalCommand => 6#3

/-- The encoding of RESULT.KIND (R39). -/
def Kind.bits : Kind → BitVec 2
  | .none => 0#2
  | .delivered => 1#2
  | .duplicate => 2#2
  | .written => 3#2

/-- STATUS: bit 0 SESSION, 1 BUSY, 3:2 OP, 6:4 PHASE, 9:7 RXS, 10 NS, 11 NR, 12 TIMER_ARMED, 13 ALARM, 14 ESC_PEND,
15 reads 0 (R38). -/
def State.status (s : State) : BitVec 16 :=
  0#1 ++ BitVec.ofBool s.recog.escPend ++ BitVec.ofBool s.timer.alarm ++ BitVec.ofBool s.timer.armed ++ s.nr ++ s.ns
    ++ s.recog.rxs.bits ++ s.phase.bits ++ s.op.bits ++ BitVec.ofBool s.busy ++ s.session.bits

/-- RESULT: bits 2:0 CODE, 4:3 KIND, 16:5 LEN (R39). -/
def Result.bits (r : Result) : BitVec 17 := r.len ++ r.kind.bits ++ r.code.bits

end Sys2Proof.Machine
end

