-- ==== Sys2Proof/Machine/Memory.lean ====
section
/-! DEFINITION. Reading and writing the byte buffers TXPAY, TXBUF and RXBUF: every access is one byte at an index
(R15, R60, R69); wider accesses are built from it here, once. -/

namespace Sys2Proof.Machine

/-- What an index that nothing has written reads as. DESIGN CHOICE (log 4): the spec gives the buffers no contents. -/
def Memory.blank : Byte := 0x00#8

/-- BUF[i] (R15). -/
def Memory.read : Memory → Nat → Byte
  | [], _ => Memory.blank
  | (k, v) :: m, i => if k = i then v else Memory.read m i

/-- Puts a cell before the first cell with a higher index. -/
def Memory.place (i : Nat) (b : Byte) : Memory → Memory
  | [] => [(i, b)]
  | (k, v) :: m => if i < k then (i, b) :: (k, v) :: m else (k, v) :: Memory.place i b m

/-- The buffer without a cell for index i. -/
def Memory.erase (m : Memory) (i : Nat) : Memory := m.filter (fun c => c.1 != i)

/-- BUF[i] <- b (R15), keeping the canonical form. -/
def Memory.write (m : Memory) (i : Nat) (b : Byte) : Memory :=
  if b = Memory.blank then Memory.erase m i else Memory.place i b (Memory.erase m i)

/-- BUF[i ..] <- bs, in index order. -/
def Memory.writeList (m : Memory) (i : Nat) : List Byte → Memory
  | [] => m
  | b :: bs => Memory.writeList (Memory.write m i b) (i + 1) bs

/-- BUF[0 .. n - 1]. -/
def Memory.firstBytes (m : Memory) (n : Nat) : List Byte := (List.range n).map (Memory.read m)

/-- The canonical form: indices strictly rising, no cell equal to what an unlisted index reads as. -/
abbrev Memory.wf (m : Memory) : Prop :=
  m.Pairwise (fun c d => c.1 < d.1) ∧ ∀ c ∈ m, c.2 ≠ Memory.blank

end Sys2Proof.Machine
end

