-- ==== Sys2Proof/Machine/Operands.lean ====
section
/-! DEFINITION. Every operand the instructions take: the payload of a WRITE, the acceptance sets and the six recognizer
configurations, the fields of a received information frame, and what the host may read of it. -/

namespace Sys2Proof.Machine

/-- WRITE's operand p = TXPAY[0 .. TXPAY_LEN - 1] (R160). -/
def payloadOperand (s : State) : List Byte := Memory.firstBytes s.txpay s.txpayLen.toNat

/-- TXBUF[0 .. TXLEN - 1], what emit Tx hands to the shim (R62, R162). -/
def wireOperand (s : State) : List Byte := Memory.firstBytes s.txbuf s.txLen.toNat

/-- The complement of a sequence bit, 1 - x (R121 b). -/
def flipBit (x : Bit) : Bit := 1#1 - x

/-- The bit of REC_ACC that stands for a control byte, none for a byte that is no control byte (R40, R86). -/
def accBit (c : Byte) : Option Nat :=
  if c = Config.cSet then some 0
  else if c = Config.cUa then some 1
  else if c = Config.cDisc then some 2
  else if c = cRr 0#1 then some 3
  else if c = cRr 1#1 then some 4
  else if c = cRej 0#1 then some 5
  else if c = cRej 1#1 then some 6
  else if c = cInfo 0#1 then some 7
  else if c = cInfo 1#1 then some 8
  else none

/-- b is in REC_ACC (R40, R137). -/
def accepts (acc : BitVec 9) (b : Byte) : Bool :=
  match accBit b with
  | some k => acc.getLsbD k
  | none => false

/-- CFG_UA: UA with A_TX, in the Sender's OPEN (R132). -/
def cfgUa : RecConfig := { expA := Config.aTx, acc := 0b000000010#9, kind := .sup }

/-- CFG_SET: SET with A_TX, in the Receiver's OPEN (R132). -/
def cfgSet : RecConfig := { expA := Config.aTx, acc := 0b000000001#9, kind := .sup }

/-- CFG_ACK(NS): RR(1 - NS), REJ(0), REJ(1) with A_TX, in WRITE (R132). -/
def cfgAck (ns : Bit) : RecConfig :=
  { expA := Config.aTx, acc := if ns = 0#1 then 0b001110000#9 else 0b001101000#9, kind := .sup }

/-- CFG_INFO: I(0), I(1) with A_TX, in READ (R132). -/
def cfgInfo : RecConfig := { expA := Config.aTx, acc := 0b110000000#9, kind := .info }

/-- CFG_DISC_REPLY: DISC with A_RX, in the Sender's CLOSE (R132). -/
def cfgDiscReply : RecConfig := { expA := Config.aRx, acc := 0b000000100#9, kind := .sup }

/-- CFG_DISC_CMD: DISC with A_TX, in the Receiver's CLOSE (R132). -/
def cfgDiscCmd : RecConfig := { expA := Config.aTx, acc := 0b000000100#9, kind := .sup }

/-- The configuration under which an operation waits (R132, R145). -/
def awaitedConfig (op : Op) (role : Role) (ns : Bit) : RecConfig :=
  match op, role with
  | .openCmd, .sender => cfgUa
  | .openCmd, .receiver => cfgSet
  | .writeCmd, _ => cfgAck ns
  | .readCmd, _ => cfgInfo
  | .closeCmd, .sender => cfgDiscReply
  | .closeCmd, .receiver => cfgDiscCmd

/-- The payload of the information frame just recognised: RXBUF[0 .. RXLEN - 2] (R144, R183). -/
def receivedPayload (r : Recognizer) : List Byte := Memory.firstBytes r.rxbuf (r.rxLen.toNat - 1)

/-- Its checksum-2 as received: RXBUF[RXLEN - 1] (R144, R183). -/
def receivedChecksum (r : Recognizer) : Byte := Memory.read r.rxbuf (r.rxLen.toNat - 1)

/-- good <- (BCC2(p) = x) (R183). -/
def receivedGood (r : Recognizer) : Bool := bcc2 (receivedPayload r) == receivedChecksum r

/-- What the host may read of RXBUF: the payload RXBUF[0 .. LEN - 1] after a Delivered result and before its next
command; nothing otherwise (R63, R71, R190, U4; log 22). -/
def State.hostPayload (s : State) : Option (List Byte) :=
  if s.busy = false ∧ s.result.kind = .delivered then some (Memory.firstBytes s.recog.rxbuf s.result.len.toNat)
  else none

/-- The host word {CFG_ROLE, opcode[1:0]} that a command makes with the role (R105). -/
def hostWord (role : Role) (op : Op) : BitVec 3 :=
  match role, op with
  | .sender, .openCmd => 0#3
  | .sender, .writeCmd => 1#3
  | .sender, .readCmd => 2#3
  | .sender, .closeCmd => 3#3
  | .receiver, .openCmd => 4#3
  | .receiver, .writeCmd => 5#3
  | .receiver, .readCmd => 6#3
  | .receiver, .closeCmd => 7#3

end Sys2Proof.Machine
end

