-- ==== Sys2Proof/Machine/Ops.lean ====
section
/-! DEFINITION. The operations the instructions share: outputs, frame building, the attempt of a timed operation, and
COMPLETION, this machine's counterpart of taking an exception (R236). There is no return from one (R249): after it the
machine is Ready for the next command. -/

namespace Sys2Proof.Machine

/-- One output event (R12). -/
def emit (o : Output) (s : State) : State :=
  { s with env := { s.env with outputs := s.env.outputs ++ [o] } }

/-- emit Tx(TXBUF[0 .. TXLEN - 1]): the whole frame, to the shim and onto the line (R62, R64; log 10). -/
def sendTx (s : State) : State :=
  { s with
    env := { s.env with
      outputs := s.env.outputs ++ [Output.tx (wireOperand s)]
      lineOut := s.env.lineOut ++ wireOperand s } }

/-- emit ChanOpen(CFG_PORT, CFG_BAUD), answered by the shim in the same step (R36, R206, D27). -/
def chanOpen (s : State) : State :=
  emit (.chanOpen s.cfg.port s.cfg.baud) { s with env := { s.env with portOpen := s.env.shimOk } }

/-- emit ChanClose. -/
def chanClose (s : State) : State :=
  emit .chanClose { s with env := { s.env with portOpen := false } }

/-- Done(code, kind, len), the completion every command ends with: the timer flags, RESULT, PHASE and BUSY, then the
output event (R236). -/
def complete (code : Code) (kind : Kind) (len : Len) (s : State) : State :=
  emit (.done code kind len)
    { s with
      timer := { s.timer with armed := false, alarm := false }
      result := { code := code, kind := kind, len := len }
      phase := .ready
      busy := false }

/-- raise E = Done(E, None, 0) (R15, R236). -/
def raise (code : Code) (s : State) : State := complete code .none 0#12 s

/-- IllegalCommand: RESULT and the Done output, no other register (R237). -/
def illegalCommand (s : State) : State :=
  emit (.done .illegalCommand .none 0#12)
    { s with result := { code := .illegalCommand, kind := .none, len := 0#12 } }

/-- A host command: not an event while BUSY = 1 (ignored, D23; log 7); refused where it has no meaning (R237); else its
effect. -/
def hostCommand (legal : Bool) (run : State → State) (s : State) : State :=
  if s.busy then s else if legal then run s else illegalCommand s

/-- Acceptance of a command: BUSY <- 1; OP <- op (R31, R41). -/
def acceptCommand (op : Op) (s : State) : State := { s with busy := true, op := op }

/-- TXBUF[0 ..] <- bs; TXLEN <- len(bs) (R117, R118). DESIGN CHOICE (log 27): bytes beyond TXLEN, of which the spec says any
value (U2), keep theirs. -/
def loadTxbuf (bs : List Byte) (s : State) : State :=
  { s with txbuf := Memory.writeList s.txbuf 0 bs, txLen := BitVec.ofNat 12 bs.length }

/-- BUILD_SUP(a, c) (R117). -/
def buildSup (a c : Byte) (s : State) : State := loadTxbuf (supFrame a c) s

/-- BUILD_INFO(a, sb, p) (R118). -/
def buildInfo (a : Byte) (sb : Bit) (p : List Byte) (s : State) : State := loadTxbuf (infoFrame a sb p) s

/-- restart_recognizer(cfg) on the recognizer's own registers (R133). -/
def Recognizer.restart (conf : RecConfig) (r : Recognizer) : Recognizer :=
  { r with conf := conf, rxs := .idle, cLatch := 0x00#8, escPend := false, rxLen := 0#12 }

/-- restart_recognizer(cfg) (R133). -/
def restartRecognizer (conf : RecConfig) (s : State) : State :=
  { s with recog := s.recog.restart conf }

/-- PHASE <- p. -/
def setPhase (p : Phase) (s : State) : State := { s with phase := p }

/-- RETRY <- CFG_MAX_RETRIES (R23). -/
def loadRetry (s : State) : State := { s with retry := s.cfg.maxRetries }

/-- SESSION <- v. -/
def setSession (v : Session) (s : State) : State := { s with session := v }

/-- start_attempt(cfg): one attempt of a timed operation, in the order of R162. -/
def startAttempt (conf : RecConfig) (s : State) : State :=
  setPhase .awaitingResponse (sendTx (arm (restartRecognizer conf (setPhase .awaitingSend s))))

/-- A passive wait: restart_recognizer(cfg); PHASE <- AwaitingCommand (R181, R204, R211). -/
def awaitCommand (conf : RecConfig) (s : State) : State :=
  setPhase .awaitingCommand (restartRecognizer conf s)

/-- fail_handshake(): ChanClose, SESSION <- Closed, Done(HandshakeFailed, None, 0) (R201). -/
def failHandshake (s : State) : State := raise .handshakeFailed (setSession .closed (chanClose s))

/-- The reply of a handshake or a READ: BUILD_SUP and emit Tx. -/
def sendReply (a c : Byte) (s : State) : State := sendTx (buildSup a c s)

end Sys2Proof.Machine
end

