-- ==== Sys2Proof/Machine/Handshake.lean ====
section
/-! DEFINITION. OPEN and CLOSE in both roles (44_handshake.md): the start of each command, what its Timeout does, and what
the frame it waits for does. -/

namespace Sys2Proof.Machine

/-- The port cannot be opened: Done(TransportUnavailable), no ChanClose (R206). -/
def transportUnavailable (s : State) : State := raise .transportUnavailable (setSession .closed s)

/-- The retry budget and the first attempt of a handshake, or its failure with a budget of 0 (R201, R207). -/
def beginHandshake (conf : RecConfig) (s : State) : State :=
  let t := loadRetry s
  if t.retry = 0#8 then failHandshake t else startAttempt conf t

/-- OPEN in the Sender role, start (R201). -/
def openSender (s : State) : State :=
  let t := chanOpen (acceptCommand .openCmd s)
  if t.env.portOpen then beginHandshake cfgUa (buildSup Config.aTx Config.cSet t)
  else transportUnavailable t

/-- OPEN in the Receiver role, start (R204). -/
def openReceiver (s : State) : State :=
  let t := chanOpen (acceptCommand .openCmd s)
  if t.env.portOpen then awaitCommand cfgSet t else transportUnavailable t

/-- OPEN behaves according to CFG_ROLE (R101). -/
def openByRole (s : State) : State :=
  match s.cfg.role with
  | .sender => openSender s
  | .receiver => openReceiver s

/-- CLOSE in the Sender role, start (R207). -/
def closeSender (s : State) : State :=
  beginHandshake cfgDiscReply (buildSup Config.aTx Config.cDisc (acceptCommand .closeCmd s))

/-- CLOSE in the Receiver role, start (R211). -/
def closeReceiver (s : State) : State := awaitCommand cfgDiscCmd (acceptCommand .closeCmd s)

/-- CLOSE behaves according to CFG_ROLE (R101). -/
def closeByRole (s : State) : State :=
  match s.cfg.role with
  | .sender => closeSender s
  | .receiver => closeReceiver s

/-- A successful OPEN: NS, NR <- 0, SESSION <- Open, Done(Ok) (R203, R205). -/
def sessionOpens (s : State) : State :=
  complete .ok .none 0#12 (setSession .opened { s with ns := 0#1, nr := 0#1 })

/-- A successful CLOSE: ChanClose, SESSION <- Closed, Done(Ok) (R209, R212). -/
def sessionCloses (s : State) : State := complete .ok .none 0#12 (setSession .closed (chanClose s))

/-- UA recognised in the Sender's OPEN (R203). -/
def openSenderDone (s : State) : State := sessionOpens (disarm s)

/-- SET recognised in the Receiver's OPEN (R205). -/
def openReceiverDone (s : State) : State := sessionOpens (sendReply Config.aTx Config.cUa s)

/-- DISC@RX recognised in the Sender's CLOSE (R209). -/
def closeSenderDone (s : State) : State := sessionCloses (sendReply Config.aRx Config.cUa (disarm s))

/-- DISC@TX recognised in the Receiver's CLOSE (R212). -/
def closeReceiverDone (s : State) : State := sessionCloses (sendReply Config.aRx Config.cDisc s)

/-- What a Timeout does in a handshake once RETRY is spent: another attempt, or failure (R202, R208). -/
def handshakeTimedOut (conf : RecConfig) (s : State) : State :=
  if s.retry = 0#8 then failHandshake (clearAlarm s) else startAttempt conf s

end Sys2Proof.Machine
end

