-- ==== Sys2Proof/Machine/Receiver.lean ====
section
/-! DEFINITION. Information-frame reception and acknowledgement (43_receiver_read.md): READ and its three outcomes. -/

namespace Sys2Proof.Machine

/-- READ, start (R181). -/
def readStart (s : State) : State := awaitCommand cfgInfo (acceptCommand .readCmd s)

/-- READ, new frame with good checksum-2: NR flips, RR(NR), Done(Ok, Delivered, RXLEN - 1) (R184). -/
def readAccepts (s : State) : State :=
  let t := { s with nr := flipBit s.nr }
  complete .ok .delivered (t.recog.rxLen - 1#12) (sendReply Config.aTx (cRr t.nr) t)

/-- READ, duplicate frame: RR(NR), Done(Ok, Duplicate, 0), whatever its checksum-2 (R185). -/
def readDuplicate (s : State) : State :=
  complete .ok .duplicate 0#12 (sendReply Config.aTx (cRr s.nr) s)

/-- READ, new frame with bad checksum-2: REJ(NR), Done(ChecksumMismatch, None, 0) (R186). -/
def readRejects (s : State) : State :=
  raise .checksumMismatch (sendReply Config.aTx (cRej s.nr) s)

/-- READ, a well-formed information frame recognised: the duplicate test before the checksum-2 test (R183, R243). -/
def readRecognised (s : State) : State :=
  if infoBit s.recog.cLatch = s.nr then
    if receivedGood s.recog then readAccepts s else readRejects s
  else readDuplicate s

end Sys2Proof.Machine
end

