-- ==== Sys2Proof/Machine/Recognizer.lean ====
section
/-! DEFINITION. The byte-driven frame recognizer (41_recognizer.md): one machine, its configuration in REC_EXPA, REC_ACC
and REC_KIND (R130, R132), total on every byte in every state (R67, R146). -/

namespace Sys2Proof.Machine

/-- RXS <- v. -/
def Recognizer.goTo (v : Rxs) (r : Recognizer) : Recognizer := { r with rxs := v }

/-- The common rule of the header states: the expected byte first, then FLAG, then everything else (R134). -/
def Recognizer.expect (r : Recognizer) (hit : Bool) (onHit : Recognizer) (b : Byte) : Recognizer :=
  if hit then onHit
  else if b = Config.flag then r.goTo .delimiterSeen
  else r.goTo .idle

/-- append v: store it while RXLEN < RXBUF_CAP (R140), else drop the frame (R143). -/
def Recognizer.append (v : Byte) (r : Recognizer) : Recognizer :=
  if r.rxLen.toNat < Config.rxbufCap then
    { r with rxbuf := Memory.write r.rxbuf r.rxLen.toNat v, rxLen := r.rxLen + 1#12 }
  else { r with escPend := false, rxLen := 0#12, rxs := .idle }

/-- ChecksumVerified of an information frame: body bytes (R140), FLAG after a dangling ESC (R142), FLAG at once (R141),
end of the frame (R144). -/
def Recognizer.takeBody (b : Byte) (r : Recognizer) : Recognizer :=
  if b = Config.flag then
    if r.escPend then { r with escPend := false, rxLen := 0#12, rxs := .delimiterSeen }
    else if r.rxLen = 0#12 then r.goTo .delimiterSeen
    else r.goTo .done
  else if r.escPend then Recognizer.append (b ^^^ Config.xmask) { r with escPend := false }
  else if b = Config.esc then { r with escPend := true }
  else Recognizer.append b r

/-- What a good checksum-1 does: RXS <- ChecksumVerified and, for an information frame, an empty body (R138). -/
def Recognizer.headerDone (r : Recognizer) : Recognizer :=
  match r.conf.kind with
  | .sup => r.goTo .checksumVerified
  | .info => { r with rxs := .checksumVerified, rxLen := 0#12, escPend := false }

/-- One received byte (R135 to R144). In Done nothing is taken: RXS keeps that value until the next restart (R30). -/
def Recognizer.take (b : Byte) (r : Recognizer) : Recognizer :=
  match r.rxs with
  | .idle => if b = Config.flag then r.goTo .delimiterSeen else r
  | .delimiterSeen => r.expect (b == r.conf.expA) (r.goTo .addressSeen) b
  | .addressSeen => r.expect (accepts r.conf.acc b) { r with cLatch := b, rxs := .controlSeen } b
  | .controlSeen => r.expect (b == bcc1 r.conf.expA r.cLatch) r.headerDone b
  | .checksumVerified =>
    match r.conf.kind with
    | .sup => if b = Config.flag then r.goTo .done else r.goTo .idle
    | .info => r.takeBody b
  | .done => r

/-- A run of received bytes (R104). -/
def Recognizer.takeAll (bs : List Byte) (r : Recognizer) : Recognizer :=
  bs.foldl (fun q b => q.take b) r

end Sys2Proof.Machine
end

