-- ==== Sys2Proof/Machine/Sender.lean ====
section
/-! DEFINITION. The sender retransmission engine (42_sender_engine.md): WRITE, its answers and its Timeout. -/

namespace Sys2Proof.Machine

/-- Done(MaxRetriesExceeded, None, 0): NS, SESSION and TXBUF as they were (R164, R167, R233). -/
def writeFails (s : State) : State := raise .maxRetriesExceeded s

/-- WRITE, start: the frame is built once, from TXPAY, with NS as it stands (R161, R164). -/
def writeStart (s : State) : State :=
  let t := loadRetry (buildInfo Config.aTx s.ns (payloadOperand s) (setPhase .awaitingSend (acceptCommand .writeCmd s)))
  if t.retry = 0#8 then writeFails t else startAttempt (cfgAck t.ns) t

/-- WRITE, Accepted: NS flips, Done(Ok, Written, TXLEN) (R166). -/
def writeAccepted (s : State) : State :=
  let t := disarm s
  complete .ok .written t.txLen { t with ns := flipBit t.ns }

/-- WRITE, Rejected: a full budget and the same frame again (R168). -/
def writeRejected (s : State) : State := startAttempt (cfgAck s.ns) (loadRetry s)

/-- WRITE, a frame recognised: RR(1 - NS) or REJ (R165). Nothing else can be in C_LATCH (log 16). -/
def writeAnswered (s : State) : State :=
  if s.recog.cLatch = cRr (flipBit s.ns) then writeAccepted (setPhase .accepted s)
  else if s.recog.cLatch = cRej 0#1 ∨ s.recog.cLatch = cRej 1#1 then writeRejected (setPhase .rejected s)
  else s

/-- What a Timeout does in WRITE once RETRY is spent (R167). -/
def writeTimedOut (s : State) : State :=
  if s.retry = 0#8 then writeFails (clearAlarm s) else startAttempt (cfgAck s.ns) s

end Sys2Proof.Machine
end

