-- ==== Sys2Proof/Machine/Receive.lean ====
section
/-! DEFINITION. The events RxByte and Timeout of the whole machine: which engine rule a recognised frame or an expired
timer runs (R145, R241), and runs of received bytes (R65, R66, R104). -/

namespace Sys2Proof.Machine

/-- LLC polls only while it is waiting (R65, R131). -/
def polling (s : State) : Bool :=
  s.busy && (s.phase == .awaitingResponse || s.phase == .awaitingCommand)

/-- What Done triggers, by operation in progress (R145). -/
def frameRecognised (s : State) : State :=
  match s.op with
  | .openCmd =>
    match s.cfg.role with
    | .sender => openSenderDone s
    | .receiver => openReceiverDone s
  | .writeCmd => writeAnswered s
  | .readCmd => readRecognised s
  | .closeCmd =>
    match s.cfg.role with
    | .sender => closeSenderDone s
    | .receiver => closeReceiverDone s

/-- RxByte(b): the recognizer takes the byte; when it writes Done the engine rule runs in the same event (R131, R145). -/
def rxByte (b : Byte) (s : State) : State :=
  let t := { s with recog := s.recog.take b }
  if s.recog.rxs ≠ .done ∧ t.recog.rxs = .done then frameRecognised t else t

/-- RxByte for the queued bytes, oldest first, while LLC polls; the rest stays queued (R65, R66, R172). -/
def drain : List Byte → State → State
  | [], s => { s with env := { s.env with rxQueue := [] } }
  | b :: q, s => if polling s then drain q (rxByte b s) else { s with env := { s.env with rxQueue := b :: q } }

/-- A run of wire bytes arrives behind what the shim has queued, and LLC takes what it polls (R66, R104; log 6). Bytes
that reach a closed port are lost (R265, R273; log 9). -/
def deliver (bs : List Byte) (s : State) : State :=
  if s.env.portOpen then drain (s.env.rxQueue ++ bs) s else s

/-- LLC polls the shim once: RxByte of the oldest queued byte, nothing when there is none or LLC is not waiting (R65). -/
def pollOnce (s : State) : State :=
  match s.env.rxQueue with
  | [] => s
  | b :: q => if polling s then rxByte b { s with env := { s.env with rxQueue := q } } else s

/-- Timeout: the flags, PHASE <- TimedOut, one unit of RETRY, then the rule of the operation (R167, R202, R208, R241).
READ has no Timeout (R182; log 16). -/
def timeoutEvent (s : State) : State :=
  let t := { setPhase .timedOut (alarmFires s) with retry := spendRetry s.retry }
  match s.op with
  | .openCmd => handshakeTimedOut cfgUa t
  | .writeCmd => writeTimedOut t
  | .readCmd => s
  | .closeCmd => handshakeTimedOut cfgDiscReply t

end Sys2Proof.Machine
end

