-- ==== Sys2Proof/Machine/Commands.lean ====
section
/-! DEFINITION. The meanings of the six host commands: legality (R237) and the start of the operation. OPEN and CLOSE act
as CFG_ROLE says, the role being no part of the opcode (R101; log 13). -/

namespace Sys2Proof.Machine

/-- OPEN.S (R201). -/
def execOpenS (s : State) : Host.Outcome State Fault Refusal :=
  .next (hostCommand (s.session == .closed) openByRole s)

/-- OPEN.R (R204). -/
def execOpenR (s : State) : Host.Outcome State Fault Refusal :=
  .next (hostCommand (s.session == .closed) openByRole s)

/-- WRITE (R160, R161). -/
def execWrite (s : State) : Host.Outcome State Fault Refusal :=
  .next (hostCommand
    (s.session == .opened && s.cfg.role == .sender && decide (s.txpayLen.toNat ≤ Config.maxPayload)) writeStart s)

/-- READ (R180, R181). -/
def execRead (s : State) : Host.Outcome State Fault Refusal :=
  .next (hostCommand (s.session == .opened && s.cfg.role == .receiver) readStart s)

/-- CLOSE.S (R207). -/
def execCloseS (s : State) : Host.Outcome State Fault Refusal :=
  .next (hostCommand (s.session == .opened) closeByRole s)

/-- CLOSE.R (R211). -/
def execCloseR (s : State) : Host.Outcome State Fault Refusal :=
  .next (hostCommand (s.session == .opened) closeByRole s)

end Sys2Proof.Machine
end

