-- ==== Sys2Proof/Machine/Frames.lean ====
section
/-! DEFINITION. The meanings of the wire instructions: the complete arrival of a frame or of an escape pair, as a run of
RxByte events (R104, R148 to R153, R113). What the arrival does depends on the operation in progress; outside it the
bytes are ignored or stay queued (R66, R97). -/

namespace Sys2Proof.Machine

/-- SET (R148). -/
def execSet (a : Addr) (s : State) : Host.Outcome State Fault Refusal :=
  .next (deliver (supFrame a.byte Config.cSet) s)

/-- UA (R149). -/
def execUa (a : Addr) (s : State) : Host.Outcome State Fault Refusal :=
  .next (deliver (supFrame a.byte Config.cUa) s)

/-- DISC (R150). -/
def execDisc (a : Addr) (s : State) : Host.Outcome State Fault Refusal :=
  .next (deliver (supFrame a.byte Config.cDisc) s)

/-- RR(n) (R151). -/
def execRr (a : Addr) (n : Bit) (s : State) : Host.Outcome State Fault Refusal :=
  .next (deliver (supFrame a.byte (cRr n)) s)

/-- REJ(n) (R152). -/
def execRej (a : Addr) (n : Bit) (s : State) : Host.Outcome State Fault Refusal :=
  .next (deliver (supFrame a.byte (cRej n)) s)

/-- I(sb) with its body (R153). -/
def execInfo (a : Addr) (sb : Bit) (body : List BodyUnit) (s : State) : Host.Outcome State Fault Refusal :=
  .next (deliver (infoWire a.byte sb (bodyBytes body)) s)

/-- ESC_FLAG, the pair 7D 5E (R91, R92, R140). -/
def execEscFlag (s : State) : Host.Outcome State Fault Refusal :=
  .next (deliver [Config.esc, Config.flag ^^^ Config.xmask] s)

/-- ESC_ESC, the pair 7D 5D (R91, R92, R140). -/
def execEscEsc (s : State) : Host.Outcome State Fault Refusal :=
  .next (deliver [Config.esc, Config.esc ^^^ Config.xmask] s)

end Sys2Proof.Machine
end

