-- ==== Sys2Proof/Machine/Dispatch.lean ====
section
/-! DEFINITION. One arm per instruction. -/

namespace Sys2Proof.Machine

def exec (i : Instr) (s : State) : Host.Outcome State Fault Refusal :=
  match i with
  | .set a => Sys2Proof.Machine.execSet a s
  | .ua a => Sys2Proof.Machine.execUa a s
  | .disc a => Sys2Proof.Machine.execDisc a s
  | .rr a n => Sys2Proof.Machine.execRr a n s
  | .rej a n => Sys2Proof.Machine.execRej a n s
  | .info a sb body => Sys2Proof.Machine.execInfo a sb body s
  | .escFlag => Sys2Proof.Machine.execEscFlag s
  | .escEsc => Sys2Proof.Machine.execEscEsc s
  | .openS => Sys2Proof.Machine.execOpenS s
  | .openR => Sys2Proof.Machine.execOpenR s
  | .write => Sys2Proof.Machine.execWrite s
  | .read => Sys2Proof.Machine.execRead s
  | .closeS => Sys2Proof.Machine.execCloseS s
  | .closeR => Sys2Proof.Machine.execCloseR s

end Sys2Proof.Machine
end

