-- ==== Sys2Proof/Machine/Events.lean ====
section
/-! DEFINITION. What each input does (R12): fetching, that is decoding what is presented and running it, the timer's
events, Reset, the host's register writes, and the environment's own moves (R44, R67). -/

namespace Sys2Proof.Machine

/-- What is presented is decoded and run; wire bytes that are no single instruction are taken byte by byte all the same
(R95, R96), and a host word without a row is refused as an illegal command (R237; log 14). -/
def present (u : Fetched) (s : State) : Host.Outcome State Fault Refusal :=
  match decode u with
  | .ok i => exec i s
  | .error _ =>
    match u with
    | .wire bs => .next (deliver bs s)
    | .host _ => .next (hostCommand false id s)

/-- Reset: every register as R47 says, no output; the environment is not LLC's (R260; log 11). -/
def resetEvent (s : State) : State := { State.reset with env := s.env }

/-- A host write to a configuration register: only while SESSION = Closed and BUSY = 0 (R32). -/
def writeCfg (cfg : Cfg) (s : State) : State :=
  if s.session = .closed ∧ s.busy = false then { s with cfg := cfg } else s

/-- A host write to TXPAY[i]: ignored while BUSY = 1 (R71); the index must exist (R60; log 15). -/
def writeTxpay (i : Nat) (b : Byte) (s : State) : Host.Outcome State Fault Refusal :=
  if Config.maxPayload ≤ i then .fault .noSuchIndex
  else .next (if s.busy then s else { s with txpay := Memory.write s.txpay i b })

/-- A host write to TXPAY_LEN: ignored while BUSY = 1 (R71). -/
def writeTxpayLen (n : Len) (s : State) : State := if s.busy then s else { s with txpayLen := n }

/-- A byte reaches the shim: queued behind the others, lost when the port is closed (R66, R265; log 9). -/
def shimReceives (b : Byte) (e : Env) : Env :=
  if e.portOpen then { e with rxQueue := e.rxQueue ++ [b] } else e

/-- The oldest byte on the line leaves it, and f says what becomes of it (R67). -/
def lineMoves (f : Byte → Env → Env) (e : Env) : Env :=
  match e.lineIn with
  | [] => e
  | b :: bs => f b { e with lineIn := bs }

/-- A move of the environment: LLC's own registers stay. -/
def moveEnv (f : Env → Env) (s : State) : State := { s with env := f s.env }

/-- Timeout, when it is due (R246); otherwise it cannot occur and nothing happens (R241; log 12). -/
def timeoutInput (s : State) : State := if timeoutDue s then timeoutEvent s else s

/-- One input, in a state from which it has been taken. -/
def takeInput (i : Input) (s : State) : Host.Outcome State Fault Refusal :=
  match i with
  | .reset => .next (resetEvent s)
  | .cmd op => present (.host (hostWord s.cfg.role op)) s
  | .wire bs => present (.wire bs) s
  | .poll => .next (pollOnce s)
  | .tick => .next (tickTimer s)
  | .timeout => .next (timeoutInput s)
  | .putRole r => .next (writeCfg { s.cfg with role := r } s)
  | .putMaxRetries n => .next (writeCfg { s.cfg with maxRetries := n } s)
  | .putTimeout n => .next (writeCfg { s.cfg with timeout := n } s)
  | .putPort p => .next (writeCfg { s.cfg with port := p } s)
  | .putBaud b => .next (writeCfg { s.cfg with baud := b } s)
  | .putTxpay k b => writeTxpay k b s
  | .putTxpayLen n => .next (writeTxpayLen n s)
  | .shimAnswer ok => .next (moveEnv (fun e => { e with shimOk := ok }) s)
  | .peerSends bs => .next (moveEnv (fun e => { e with lineIn := e.lineIn ++ bs }) s)
  | .lineDeliver => .next (moveEnv (lineMoves shimReceives) s)
  | .lineAlter b => .next (moveEnv (lineMoves (fun _ => shimReceives b)) s)
  | .lineDrop => .next (moveEnv (lineMoves (fun _ e => e)) s)
  | .lineInsert b => .next (moveEnv (shimReceives b) s)
  | .lineTaken => .next (moveEnv (fun e => { e with lineOut := e.lineOut.drop 1 }) s)
  | .shimReset => .next (moveEnv (fun e => { e with portOpen := false, rxQueue := [] }) s)

/-- The state after the oldest input has been taken. -/
def withInputs (is : List Input) (s : State) : State := { s with env := { s.env with inputs := is } }

/-- The oldest input is taken; a Tick waits while a Timeout is due, which is delivered first (R246; log 12). -/
def nextInput (i : Input) (rest : List Input) (s : State) : Host.Outcome State Fault Refusal :=
  if i = .tick ∧ timeoutDue s = true then .next (timeoutEvent s) else takeInput i (withInputs rest s)

/-- What is presented, put where the next step takes it; a host word also sets CFG_ROLE, which is its bit 2, and wire
bytes need an open port (log 17). -/
def stored (u : Fetched) (s : State) : State :=
  match u with
  | .wire bs => { s with env := { s.env with portOpen := true, inputs := .wire bs :: s.env.inputs } }
  | .host w =>
    let op : Op :=
      if w.extractLsb' 0 2 = 0#2 then .openCmd
      else if w.extractLsb' 0 2 = 1#2 then .writeCmd
      else if w.extractLsb' 0 2 = 2#2 then .readCmd
      else .closeCmd
    let role : Role := if w.getLsbD 2 then .receiver else .sender
    { s with cfg := { s.cfg with role := role }, env := { s.env with inputs := .cmd op :: s.env.inputs } }

end Sys2Proof.Machine
end

