-- ==== Sys2Proof/Machine/Step.lean ====
section
/-! DEFINITION. One step: the oldest input, handled to completion (R12, R72). With no input the machine does nothing
(R261). -/

namespace Sys2Proof.Machine

/-- One step. -/
def step (s : State) : Host.Outcome State Fault Refusal :=
  match s.env.inputs with
  | [] => .next s
  | i :: rest => nextInput i rest s

/-- s with the instruction a table word gives as the next thing presented (log 17). -/
def State.withFetchWord (s : State) (nbits w : Nat) : State := stored (tableUnit nbits w) s

end Sys2Proof.Machine
end

