-- ==== Sys2Proof/Machine/Link.lean ====
section
/-! DEFINITION. Two LLC instances and the two directions of the channel between them (R13, R44, R252): each instance takes
its own inputs, and the bytes one has sent reach the other's end of the line in order (R67). What becomes of a byte there
(delivered, altered, dropped, inserted) is an input of the instance that receives it (log 19). -/

namespace Sys2Proof.Machine

/-- Two instances that share nothing but the channel (R252). -/
structure Link where
  left : State
  right : State
deriving DecidableEq, Repr

/-- What happens next on a link: one instance takes its next input, or one byte travels. -/
inductive LinkMove where
  | stepLeft
  | stepRight
  | carryRight
  | carryLeft
deriving DecidableEq, Repr

/-- The oldest byte `src` has sent travels to `dst`'s end of the line (R64, R67). -/
def carryByte (src dst : State) : State × State :=
  match src.env.lineOut with
  | [] => (src, dst)
  | b :: bs =>
    ({ src with env := { src.env with lineOut := bs } }, { dst with env := { dst.env with lineIn := dst.env.lineIn ++ [b] } })

/-- One move of a link. -/
def linkStep (m : LinkMove) (l : Link) : Host.Outcome Link Fault Refusal :=
  match m with
  | .stepLeft =>
    match step l.left with
    | .next t => .next { l with left := t }
    | .fault f => .fault f
    | .refused r => .refused r
  | .stepRight =>
    match step l.right with
    | .next t => .next { l with right := t }
    | .fault f => .fault f
    | .refused r => .refused r
  | .carryRight => .next { left := (carryByte l.left l.right).1, right := (carryByte l.left l.right).2 }
  | .carryLeft => .next { left := (carryByte l.right l.left).2, right := (carryByte l.right l.left).1 }

end Sys2Proof.Machine
end

