-- ==== Sys2Proof/Safety.lean ====
section
/-! DEFINITION. The invariant of R46 in the terms claims use, the canonical form of the buffers, and when an LLC waits
ready for a whole frame. -/

namespace Sys2Proof.Machine

/-- TIMER_ARMED = 1 only in a timed wait with budget left (R46 b), and TIMER never above what arm() loaded (R24). -/
structure ArmedOk (s : State) : Prop where
  busy : s.busy = true
  phase : s.phase = .awaitingResponse
  role : s.cfg.role = .sender
  op : s.op ≠ .readCmd
  retryPos : 1 ≤ s.retry.toNat
  retryLe : s.retry.toNat ≤ s.cfg.maxRetries.toNat
  count : s.timer.count ≤ timerLoad s.cfg.timeout

/-- What holds while a command is in progress: the session the operation needs (R46 e), the recognizer configuration of
R132, a recognizer that is not Done (R131), and an accepted WRITE's length (R46 f). -/
structure BusyOk (s : State) : Prop where
  opening : s.op = .openCmd → s.session = .closed
  inSession : s.op ≠ .openCmd → s.session = .opened
  conf : s.recog.conf = awaitedConfig s.op s.cfg.role s.ns
  notDone : s.recog.rxs ≠ .done
  payload : s.op = .writeCmd → s.txpayLen.toNat ≤ Config.maxPayload

/-- The recognizer's own bounds: RXLEN within RXBUF (R46 f), ESC_PEND only inside a body (R46 g), and a latched control
byte that REC_ACC holds (R137). -/
structure RecogOk (r : Recognizer) : Prop where
  rxLen : r.rxLen.toNat ≤ Config.rxbufCap
  escPend : r.escPend = true → r.rxs = .checksumVerified ∧ r.conf.kind = .info
  latched : r.rxs = .controlSeen ∨ r.rxs = .checksumVerified → accepts r.conf.acc r.cLatch = true

/-- The invariant of R46, with what of R131 and R132 it needs. (h) is stated for an open session, in which the role is
fixed. -/
structure Inv (s : State) : Prop where
  busyIff : s.busy = false ↔ s.phase = .ready
  phases : s.phase = .ready ∨ s.phase = .awaitingResponse ∨ s.phase = .awaitingCommand
  armed : s.timer.armed = true → ArmedOk s
  passive : s.phase = .awaitingCommand → s.timer.armed = false ∧ s.cfg.role = .receiver ∧ s.op ≠ .writeCmd
  timed : s.phase = .awaitingResponse → s.timer.armed = true
  alarm : s.timer.alarm = false
  busy : s.busy = true → BusyOk s
  recog : RecogOk s.recog
  txLen : s.txLen.toNat ≤ Config.txbufCap
  roleBits : s.session = .opened → (s.cfg.role = .receiver → s.ns = 0#1) ∧ (s.cfg.role = .sender → s.nr = 0#1)

/-- The three buffers are in canonical form (Machine/Memory.lean). -/
structure BuffersOk (s : State) : Prop where
  txpay : Memory.wf s.txpay
  txbuf : Memory.wf s.txbuf
  rxbuf : Memory.wf s.recog.rxbuf

/-- A recognizer for which a start FLAG opens a new frame: one of the four header states, under one of the addresses of
R132, with a latched control byte that REC_ACC holds (R134, R147). -/
structure HeaderState (r : Recognizer) : Prop where
  rxs : r.rxs = .idle ∨ r.rxs = .delimiterSeen ∨ r.rxs = .addressSeen ∨ r.rxs = .controlSeen
  expA : r.conf.expA = Config.aTx ∨ r.conf.expA = Config.aRx
  latched : r.rxs = .controlSeen → accepts r.conf.acc r.cLatch = true

/-- An LLC that waits in operation op under the invariant, with the port open, nothing queued and no header verified: the
context in which R148 to R153 say what a whole frame does. -/
structure WaitsFor (op : Op) (s : State) : Prop where
  inv : Inv s
  busy : s.busy = true
  op : s.op = op
  port : s.env.portOpen = true
  queue : s.env.rxQueue = []
  header : s.recog.rxs ≠ .checksumVerified

/-- How many completions a run of outputs holds (R236). -/
def doneCount : List Output → Nat
  | [] => 0
  | .tx _ :: os => doneCount os
  | .chanOpen _ _ :: os => doneCount os
  | .chanClose :: os => doneCount os
  | .done _ _ _ :: os => doneCount os + 1

/-- The frames a run of outputs sends, oldest first (R64). -/
def framesSent : List Output → List (List Byte)
  | [] => []
  | .tx bs :: os => bs :: framesSent os
  | .chanOpen _ _ :: os => framesSent os
  | .chanClose :: os => framesSent os
  | .done _ _ _ :: os => framesSent os

/-- A canonical wire body: every ESC is followed by 0x5E or 0x5D, and there is no FLAG (R116). -/
def Canonical (w : List Byte) : Prop :=
  Config.flag ∉ w ∧ ∀ k, w[k]? = some Config.esc → w[k + 1]? = some 0x5E#8 ∨ w[k + 1]? = some 0x5D#8

/-- Whether the configuration under which an operation waits accepts an instruction's frame: its address is REC_EXPA and
its control byte is in REC_ACC (R95, R97). -/
def acceptsFrame (conf : RecConfig) (i : Instr) : Bool :=
  match i.header with
  | some (a, c) => a == conf.expA && accepts conf.acc c
  | none => false

end Sys2Proof.Machine
end

