-- ==== Sys2Proof/Certificates/Slice0/Obligations.lean ====
section
/-! DEFINITION. The statements for the provers. A statement about what a whole frame does is about an LLC that waits for
it (WaitsFor, Sys2Proof/Safety.lean: the invariant, an open port, nothing queued, no header verified yet); a next state is
written out whole, so that it is also the frame of the instruction: every field it does not name is as it was. What such a
frame says of bytes of TXBUF beyond TXLEN, RXBUF beyond RXLEN and TXPAY beyond TXPAY_LEN, that they keep their values, is
the model's choice (log 27, U2). -/

section

open Sys2Proof Sys2Proof.Machine

/-! ### Encoding -/

/-- Decoding the encoding of a well-formed instruction gives it back, every operand at every value (R81, R82, R85, R91,
R92, R105). -/
def Obligations.DecodeUndoesEncode : Prop :=
  ∀ i : Instr, i.wf = true → decode (encode i) = .ok i

/-- What the decoder accepts is well-formed, and encoding it gives the bytes or the host word back. -/
def Obligations.EncodeUndoesDecode : Prop :=
  ∀ (u : Fetched) (i : Instr), decode u = .ok i → i.wf = true ∧ encode i = u

/-- Words written out from the tables of R81, R82, R85, R91, R105, one or more for each row, decode to their
instructions. That the decoder rejects the host words 2 and 5, which have no row, by name is the model's reading (log 14). -/
def Obligations.WrittenWordsDecode : Prop :=
  decode (.wire [0x7E#8, 0x03#8, 0x03#8, 0x00#8, 0x7E#8]) = .ok (.set .tx)
    ∧ decode (.wire [0x7E#8, 0x03#8, 0x07#8, 0x04#8, 0x7E#8]) = .ok (.ua .tx)
    ∧ decode (.wire [0x7E#8, 0x01#8, 0x07#8, 0x06#8, 0x7E#8]) = .ok (.ua .rx)
    ∧ decode (.wire [0x7E#8, 0x03#8, 0x0B#8, 0x08#8, 0x7E#8]) = .ok (.disc .tx)
    ∧ decode (.wire [0x7E#8, 0x01#8, 0x0B#8, 0x0A#8, 0x7E#8]) = .ok (.disc .rx)
    ∧ decode (.wire [0x7E#8, 0x03#8, 0x05#8, 0x06#8, 0x7E#8]) = .ok (.rr .tx 0#1)
    ∧ decode (.wire [0x7E#8, 0x03#8, 0x85#8, 0x86#8, 0x7E#8]) = .ok (.rr .tx 1#1)
    ∧ decode (.wire [0x7E#8, 0x03#8, 0x01#8, 0x02#8, 0x7E#8]) = .ok (.rej .tx 0#1)
    ∧ decode (.wire [0x7E#8, 0x03#8, 0x81#8, 0x82#8, 0x7E#8]) = .ok (.rej .tx 1#1)
    ∧ decode (.wire [0x7E#8, 0x03#8, 0x40#8, 0x43#8, 0x41#8, 0x42#8, 0x43#8, 0x40#8, 0x7E#8])
        = .ok (.info .tx 1#1 [.plain 0x41#8, .plain 0x42#8, .plain 0x43#8, .plain 0x40#8])
    ∧ decode (.wire [0x7E#8, 0x03#8, 0x00#8, 0x03#8, 0x7D#8, 0x5E#8, 0x01#8, 0x7D#8, 0x5D#8, 0x02#8, 0x7E#8])
        = .ok (.info .tx 0#1 [.escaped 0x5E#8, .plain 0x01#8, .escaped 0x5D#8, .plain 0x02#8])
    ∧ decode (.wire [0x7D#8, 0x5E#8]) = .ok .escFlag
    ∧ decode (.wire [0x7D#8, 0x5D#8]) = .ok .escEsc
    ∧ decode (.host 0b000#3) = .ok .openS ∧ decode (.host 0b001#3) = .ok .write
    ∧ decode (.host 0b010#3) = .error .readBySender ∧ decode (.host 0b011#3) = .ok .closeS
    ∧ decode (.host 0b100#3) = .ok .openR ∧ decode (.host 0b101#3) = .error .writeByReceiver
    ∧ decode (.host 0b110#3) = .ok .read ∧ decode (.host 0b111#3) = .ok .closeR

/-- The constants meet the constraints of R10. -/
def Obligations.ConstantsMeetTheirConstraints : Prop :=
  Config.flag ≠ Config.esc
    ∧ Config.aTx ≠ Config.aRx
    ∧ (∀ a : Addr, a.byte ≠ Config.flag ∧ a.byte ≠ Config.esc)
    ∧ (∀ b : Byte, (accBit b).isSome = true → b ≠ Config.flag ∧ b ≠ Config.esc
        ∧ ∀ a : Addr, bcc1 a.byte b ≠ Config.flag ∧ bcc1 a.byte b ≠ Config.esc)
    ∧ [Config.cSet, Config.cUa, Config.cDisc, cRr 0#1, cRr 1#1, cRej 0#1, cRej 1#1, cInfo 0#1, cInfo 1#1].Nodup
    ∧ (Config.flag ^^^ Config.xmask ≠ Config.flag ∧ Config.flag ^^^ Config.xmask ≠ Config.esc)
    ∧ (Config.esc ^^^ Config.xmask ≠ Config.flag ∧ Config.esc ^^^ Config.xmask ≠ Config.esc)
    ∧ 1 ≤ Config.fTick

/-! ### The codec -/

/-- The laws of the checksums (R112). -/
def Obligations.ChecksumLaws : Prop :=
  (∀ p q : List Byte, bcc2 (p ++ q) = bcc2 p ^^^ bcc2 q)
    ∧ (∀ p q : List Byte, List.Perm p q → bcc2 p = bcc2 q)
    ∧ (∀ p : List Byte, bcc2 (p ++ [bcc2 p]) = 0x00#8)
    ∧ (∀ (p : List Byte) (x : Byte), bcc2 (p ++ [x]) = 0x00#8 ↔ bcc2 p = x)
    ∧ (∀ a c : Byte, bcc1 a c ^^^ a = c)
    ∧ (∀ (p q : List Byte) (x y : Byte), x ≠ y → bcc2 (p ++ x :: q) ≠ bcc2 (p ++ y :: q))
    ∧ (∀ (p q r : List Byte) (x y e : Byte), bcc2 (p ++ (x ^^^ e) :: q ++ (y ^^^ e) :: r) = bcc2 (p ++ x :: q ++ y :: r))

/-- STUFF_BYTE: the two special bytes become ESC and the byte xor 0x20, every other byte stays, and FLAG never appears
(R113). -/
def Obligations.StuffByteEscapesFlagAndEsc : Prop :=
  stuffByte 0x7E#8 = [0x7D#8, 0x5E#8]
    ∧ stuffByte 0x7D#8 = [0x7D#8, 0x5D#8]
    ∧ ∀ b : Byte, (b = Config.flag ∨ b = Config.esc → stuffByte b = [Config.esc, b ^^^ Config.xmask])
        ∧ (b ≠ Config.flag → b ≠ Config.esc → stuffByte b = [b])
        ∧ ((stuffByte b).length = 1 ∨ (stuffByte b).length = 2) ∧ Config.flag ∉ stuffByte b

/-- STUFF: byte by byte; its length; no FLAG; every ESC followed by 0x5E or 0x5D (R114). -/
def Obligations.StuffMapsEveryByte : Prop :=
  stuff [] = []
    ∧ (∀ (b : Byte) (s : List Byte), stuff (b :: s) = stuffByte b ++ stuff s)
    ∧ ∀ s : List Byte,
        (stuff s).length = s.length + s.countP (fun b => b == Config.flag || b == Config.esc)
        ∧ s.length ≤ (stuff s).length ∧ (stuff s).length ≤ 2 * s.length
        ∧ Canonical (stuff s)

/-- DESTUFF undoes STUFF, and STUFF undoes DESTUFF exactly on canonical wire bytes (R116). -/
def Obligations.DestuffUndoesStuff : Prop :=
  (∀ s : List Byte, destuff (stuff s) = some s)
    ∧ (∀ w : List Byte, (∃ v, destuff w = some v ∧ stuff v = w) ↔ Canonical w)
    ∧ destuff [0x7D#8, 0x41#8] = some [0x61#8] ∧ stuff [0x61#8] = [0x61#8]

/-- BUILD_SUP: five bytes in TXBUF, TXLEN 5, every other register as before (R117). That every TXBUF byte from TXLEN on is
as before is the model's choice (log 27, U2). -/
def Obligations.BuildSupWritesFiveBytes : Prop :=
  ∀ (a : Addr) (c : Byte) (s : State),
    buildSup a.byte c s = { s with txbuf := (buildSup a.byte c s).txbuf, txLen := 5#12 }
      ∧ wireOperand (buildSup a.byte c s) = [Config.flag, a.byte, c, a.byte ^^^ c, Config.flag]
      ∧ ∀ k, 5 ≤ k → Memory.read (buildSup a.byte c s).txbuf k = Memory.read s.txbuf k

/-- BUILD_INFO: header, stuffed payload and checksum-2, end delimiter; TXLEN counts them and fits TXBUF; every other
register as before (R118). That every TXBUF byte from TXLEN on is as before is the model's choice (log 27, U2). -/
def Obligations.BuildInfoWritesTheStuffedFrame : Prop :=
  ∀ (sb : Bit) (p : List Byte) (s : State), p.length ≤ Config.maxPayload →
    let c : Byte := sb.zeroExtend 8 <<< 6
    let t := buildInfo Config.aTx sb p s
    t = { s with txbuf := t.txbuf, txLen := t.txLen }
      ∧ wireOperand t = [Config.flag, Config.aTx, c, Config.aTx ^^^ c] ++ stuff (p ++ [bcc2 p]) ++ [Config.flag]
      ∧ t.txLen.toNat = 5 + (stuff (p ++ [bcc2 p])).length
      ∧ t.txLen.toNat ≤ Config.txbufCap
      ∧ ∀ k, t.txLen.toNat ≤ k → Memory.read t.txbuf k = Memory.read s.txbuf k

/-- A buffer read after a run of writes gives the byte written there, every other byte is as before, and the canonical
form stays (R15, R60, R69). -/
def Obligations.BufferReadsFollowWrites : Prop :=
  ∀ (m : Memory) (i : Nat) (bs : List Byte),
    (∀ k b, bs[k]? = some b → Memory.read (Memory.writeList m i bs) (i + k) = b)
      ∧ (∀ j, j < i ∨ i + bs.length ≤ j → Memory.read (Memory.writeList m i bs) j = Memory.read m j)
      ∧ (Memory.wf m → Memory.wf (Memory.writeList m i bs))

/-! ### The recognizer -/

/-- Idle, DelimiterSeen, AddressSeen, ControlSeen, and ChecksumVerified of a supervisory configuration, for every byte
(R135 to R139). -/
def Obligations.HeaderStatesFollowTheTable : Prop :=
  ∀ (r : Recognizer) (b : Byte),
    (r.rxs = .idle → r.take b = if b = Config.flag then { r with rxs := .delimiterSeen } else r)
      ∧ (r.rxs = .delimiterSeen → r.take b =
          if b = r.conf.expA then { r with rxs := .addressSeen }
          else if b = Config.flag then { r with rxs := .delimiterSeen } else { r with rxs := .idle })
      ∧ (r.rxs = .addressSeen → r.take b =
          if accepts r.conf.acc b = true then { r with cLatch := b, rxs := .controlSeen }
          else if b = Config.flag then { r with rxs := .delimiterSeen } else { r with rxs := .idle })
      ∧ (r.rxs = .controlSeen → r.take b =
          if b = r.conf.expA ^^^ r.cLatch then
            if r.conf.kind = .info then { r with rxs := .checksumVerified, rxLen := 0#12, escPend := false }
            else { r with rxs := .checksumVerified }
          else if b = Config.flag then { r with rxs := .delimiterSeen } else { r with rxs := .idle })
      ∧ (r.rxs = .checksumVerified → r.conf.kind = .sup → r.take b =
          if b = Config.flag then { r with rxs := .done } else { r with rxs := .idle })

/-- A body byte: what it appends while RXBUF has room, that an unpaired ESC pends whether or not there is room, and that
what is accumulated is DESTUFF of the wire bytes (R140). -/
def Obligations.BodyIsDestuffedIncrementally : Prop :=
  (∀ (r : Recognizer) (b : Byte), r.rxs = .checksumVerified → r.conf.kind = .info → b ≠ Config.flag →
      (r.rxLen.toNat < Config.rxbufCap ∨ (r.escPend = false ∧ b = Config.esc)) → r.take b =
        if r.escPend = true then
          { r with escPend := false, rxbuf := Memory.write r.rxbuf r.rxLen.toNat (b ^^^ Config.xmask), rxLen := r.rxLen + 1#12 }
        else if b = Config.esc then { r with escPend := true }
        else { r with rxbuf := Memory.write r.rxbuf r.rxLen.toNat b, rxLen := r.rxLen + 1#12 })
    ∧ ∀ (r : Recognizer) (w : List Byte), r.rxs = .checksumVerified → r.conf.kind = .info → r.escPend = false →
        r.rxLen = 0#12 → Config.flag ∉ w → (r.takeAll w).rxs = .checksumVerified → (r.takeAll w).escPend = false →
        destuff w = some (Memory.firstBytes (r.takeAll w).rxbuf (r.takeAll w).rxLen.toNat)

/-- FLAG with an empty body, FLAG after a dangling ESC, a byte too many, and FLAG at the end of a frame (R141, R142, R143,
R144). -/
def Obligations.BodyEndsAsTheRulesSay : Prop :=
  ∀ r : Recognizer, r.rxs = .checksumVerified → r.conf.kind = .info →
    (r.rxLen = 0#12 → r.escPend = false → r.take Config.flag = { r with rxs := .delimiterSeen })
      ∧ (r.escPend = true → r.take Config.flag = { r with escPend := false, rxLen := 0#12, rxs := .delimiterSeen })
      ∧ (∀ b, b ≠ Config.flag → r.rxLen.toNat = Config.rxbufCap → (r.escPend = true ∨ b ≠ Config.esc) →
          r.take b = { r with escPend := false, rxLen := 0#12, rxs := .idle })
      ∧ (1 ≤ r.rxLen.toNat → r.escPend = false → r.take Config.flag = { r with rxs := .done }
          ∧ receivedPayload (r.take Config.flag) = Memory.firstBytes r.rxbuf (r.rxLen.toNat - 1)
          ∧ receivedChecksum (r.take Config.flag) = Memory.read r.rxbuf (r.rxLen.toNat - 1))

/-- From every header state a whole acceptable frame ends in Done at its last byte and not earlier; from ChecksumVerified
of a supervisory configuration its start FLAG completes the frame before it (R147). -/
def Obligations.ResynchronisesOnTheNextFrame : Prop :=
  (∀ (r : Recognizer) (i : Instr) (bs : List Byte), HeaderState r → i.wf = true → i.wireBytes = some bs →
      acceptsFrame r.conf i = true → (r.conf.kind = .info ↔ ∃ a sb body, i = .info a sb body) →
      (r.takeAll bs).rxs = .done ∧ ∀ n, n < bs.length → (r.takeAll (bs.take n)).rxs ≠ .done)
    ∧ ∀ r : Recognizer, r.rxs = .checksumVerified → r.conf.kind = .sup → (r.take Config.flag).rxs = .done

/-- On one delimited run of bytes the recognizer under CFG_INFO, from every header state, agrees with PARSE_INFO: Done
with the same sequence bit, payload and verdict at the last byte, or no Done at all (R120). -/
def Obligations.RecognizerAgreesWithParseInfo : Prop :=
  ∀ (r : Recognizer) (inner : List Byte), HeaderState r → r.conf = cfgInfo → Config.flag ∉ inner →
    let w := [Config.flag] ++ inner ++ [Config.flag]
    (∀ n, n < w.length → (r.takeAll (w.take n)).rxs ≠ .done)
      ∧ match parseInfo w with
        | .malformed => (r.takeAll w).rxs = .delimiterSeen
        | .frame sb p good =>
          (r.takeAll w).rxs = .done ∧ infoBit (r.takeAll w).cLatch = sb ∧ receivedPayload (r.takeAll w) = p
            ∧ receivedGood (r.takeAll w) = good

/-- The six configurations: address, kind, exactly the control bytes accepted, and which operation uses which (R132). -/
def Obligations.SixConfigurationsAccept : Prop :=
  (cfgUa.expA = 0x03#8 ∧ cfgUa.kind = .sup ∧ ∀ b, accepts cfgUa.acc b = true ↔ b = 0x07#8)
    ∧ (cfgSet.expA = 0x03#8 ∧ cfgSet.kind = .sup ∧ ∀ b, accepts cfgSet.acc b = true ↔ b = 0x03#8)
    ∧ ((cfgAck 0#1).expA = 0x03#8 ∧ (cfgAck 0#1).kind = .sup
        ∧ ∀ b, accepts (cfgAck 0#1).acc b = true ↔ b = 0x85#8 ∨ b = 0x01#8 ∨ b = 0x81#8)
    ∧ ((cfgAck 1#1).expA = 0x03#8 ∧ (cfgAck 1#1).kind = .sup
        ∧ ∀ b, accepts (cfgAck 1#1).acc b = true ↔ b = 0x05#8 ∨ b = 0x01#8 ∨ b = 0x81#8)
    ∧ (cfgInfo.expA = 0x03#8 ∧ cfgInfo.kind = .info ∧ ∀ b, accepts cfgInfo.acc b = true ↔ b = 0x00#8 ∨ b = 0x40#8)
    ∧ (cfgDiscReply.expA = 0x01#8 ∧ cfgDiscReply.kind = .sup ∧ ∀ b, accepts cfgDiscReply.acc b = true ↔ b = 0x0B#8)
    ∧ (cfgDiscCmd.expA = 0x03#8 ∧ cfgDiscCmd.kind = .sup ∧ ∀ b, accepts cfgDiscCmd.acc b = true ↔ b = 0x0B#8)
    ∧ ∀ (ns : Bit) (role : Role),
        awaitedConfig .openCmd .sender ns = cfgUa ∧ awaitedConfig .openCmd .receiver ns = cfgSet
          ∧ awaitedConfig .writeCmd role ns = cfgAck ns ∧ awaitedConfig .readCmd role ns = cfgInfo
          ∧ awaitedConfig .closeCmd .sender ns = cfgDiscReply ∧ awaitedConfig .closeCmd .receiver ns = cfgDiscCmd

/-! ### Host commands -/

/-- OPEN in the Sender role with a shim that answers ok: SET is sent and its UA awaited, or, with a budget of 0, the
handshake fails at once (R201). OPEN while a session is open is refused. -/
def Obligations.OpenSenderSendsSet : Prop :=
  ∀ s : State, s.busy = false → s.cfg.role = .sender →
    (s.session = .closed → s.env.shimOk = true → s.cfg.maxRetries ≠ 0#8 →
      exec .openS s = .next { s with
        busy := true
        op := .openCmd
        phase := .awaitingResponse
        txbuf := Memory.writeList s.txbuf 0 (supFrame Config.aTx Config.cSet)
        txLen := 5#12
        retry := s.cfg.maxRetries
        timer := { count := Config.fTick * s.cfg.timeout.toNat, armed := true, alarm := false }
        recog := { s.recog with conf := cfgUa, rxs := .idle, cLatch := 0x00#8, escPend := false, rxLen := 0#12 }
        env := { s.env with
          portOpen := true
          outputs := s.env.outputs ++ [.chanOpen s.cfg.port s.cfg.baud, .tx (supFrame Config.aTx Config.cSet)]
          lineOut := s.env.lineOut ++ supFrame Config.aTx Config.cSet } })
      ∧ (s.session = .closed → s.env.shimOk = true → s.cfg.maxRetries = 0#8 →
        exec .openS s = .next { s with
          busy := false
          op := .openCmd
          phase := .ready
          txbuf := Memory.writeList s.txbuf 0 (supFrame Config.aTx Config.cSet)
          txLen := 5#12
          retry := 0#8
          timer := { s.timer with armed := false, alarm := false }
          result := { code := .handshakeFailed, kind := .none, len := 0#12 }
          env := { s.env with
            portOpen := false
            outputs := s.env.outputs
              ++ [.chanOpen s.cfg.port s.cfg.baud, .chanClose, .done .handshakeFailed .none 0#12] } })
      ∧ (s.session = .opened →
        exec .openS s = .next { s with
          result := { code := .illegalCommand, kind := .none, len := 0#12 }
          env := { s.env with outputs := s.env.outputs ++ [.done .illegalCommand .none 0#12] } })

/-- OPEN in the Receiver role with a shim that answers ok: nothing is sent and SET is awaited, without a timer (R204).
OPEN while a session is open is refused. -/
def Obligations.OpenReceiverWaitsForSet : Prop :=
  ∀ s : State, s.busy = false → s.cfg.role = .receiver →
    (s.session = .closed → s.env.shimOk = true →
      exec .openR s = .next { s with
        busy := true
        op := .openCmd
        phase := .awaitingCommand
        recog := { s.recog with conf := cfgSet, rxs := .idle, cLatch := 0x00#8, escPend := false, rxLen := 0#12 }
        env := { s.env with portOpen := true, outputs := s.env.outputs ++ [.chanOpen s.cfg.port s.cfg.baud] } })
      ∧ (s.session = .opened →
        exec .openR s = .next { s with
          result := { code := .illegalCommand, kind := .none, len := 0#12 }
          env := { s.env with outputs := s.env.outputs ++ [.done .illegalCommand .none 0#12] } })

/-- OPEN in either role when the shim answers failure: Done(TransportUnavailable), nothing sent, no ChanClose (R206). -/
def Obligations.OpenWithoutPortFails : Prop :=
  ∀ (i : Instr) (s : State), i = .openS ∨ i = .openR → s.busy = false → s.session = .closed → s.env.shimOk = false →
    exec i s = .next { s with
      busy := false
      op := .openCmd
      phase := .ready
      timer := { s.timer with armed := false, alarm := false }
      result := { code := .transportUnavailable, kind := .none, len := 0#12 }
      env := { s.env with
        portOpen := false
        outputs := s.env.outputs ++ [.chanOpen s.cfg.port s.cfg.baud, .done .transportUnavailable .none 0#12] } }

/-- WRITE: the frame of the payload in TXPAY with the sequence bit NS is built once and sent, or, with a budget of 0, the
command fails without sending (R161, R164). -/
def Obligations.WriteSendsTheFrame : Prop :=
  ∀ s : State, s.busy = false → s.session = .opened → s.cfg.role = .sender → s.txpayLen.toNat ≤ Config.maxPayload →
    let p := Memory.firstBytes s.txpay s.txpayLen.toNat
    let bs := infoFrame Config.aTx s.ns p
    (s.cfg.maxRetries ≠ 0#8 →
      exec .write s = .next { s with
        busy := true
        op := .writeCmd
        phase := .awaitingResponse
        txbuf := Memory.writeList s.txbuf 0 bs
        txLen := BitVec.ofNat 12 bs.length
        retry := s.cfg.maxRetries
        timer := { count := Config.fTick * s.cfg.timeout.toNat, armed := true, alarm := false }
        recog := { s.recog with conf := cfgAck s.ns, rxs := .idle, cLatch := 0x00#8, escPend := false, rxLen := 0#12 }
        env := { s.env with outputs := s.env.outputs ++ [.tx bs], lineOut := s.env.lineOut ++ bs } })
      ∧ (s.cfg.maxRetries = 0#8 →
        exec .write s = .next { s with
          busy := false
          op := .writeCmd
          phase := .ready
          txbuf := Memory.writeList s.txbuf 0 bs
          txLen := BitVec.ofNat 12 bs.length
          retry := 0#8
          timer := { s.timer with armed := false, alarm := false }
          result := { code := .maxRetriesExceeded, kind := .none, len := 0#12 }
          env := { s.env with outputs := s.env.outputs ++ [.done .maxRetriesExceeded .none 0#12] } })

/-- READ: the recognizer is restarted under CFG_INFO and LLC waits; no timer, no RETRY, nothing sent (R181). -/
def Obligations.ReadWaitsForAFrame : Prop :=
  ∀ s : State, s.busy = false → s.session = .opened → s.cfg.role = .receiver →
    exec .read s = .next { s with
      busy := true
      op := .readCmd
      phase := .awaitingCommand
      recog := { s.recog with conf := cfgInfo, rxs := .idle, cLatch := 0x00#8, escPend := false, rxLen := 0#12 } }

/-- CLOSE in the Sender role: DISC with A_TX is sent and a DISC with A_RX awaited, or, with a budget of 0, the handshake
fails at once (R207). CLOSE without a session is refused. -/
def Obligations.CloseSenderSendsDisc : Prop :=
  ∀ s : State, s.busy = false → s.cfg.role = .sender →
    (s.session = .opened → s.cfg.maxRetries ≠ 0#8 →
      exec .closeS s = .next { s with
        busy := true
        op := .closeCmd
        phase := .awaitingResponse
        txbuf := Memory.writeList s.txbuf 0 (supFrame Config.aTx Config.cDisc)
        txLen := 5#12
        retry := s.cfg.maxRetries
        timer := { count := Config.fTick * s.cfg.timeout.toNat, armed := true, alarm := false }
        recog := { s.recog with conf := cfgDiscReply, rxs := .idle, cLatch := 0x00#8, escPend := false, rxLen := 0#12 }
        env := { s.env with
          outputs := s.env.outputs ++ [.tx (supFrame Config.aTx Config.cDisc)]
          lineOut := s.env.lineOut ++ supFrame Config.aTx Config.cDisc } })
      ∧ (s.session = .opened → s.cfg.maxRetries = 0#8 →
        exec .closeS s = .next { s with
          busy := false
          op := .closeCmd
          phase := .ready
          session := .closed
          txbuf := Memory.writeList s.txbuf 0 (supFrame Config.aTx Config.cDisc)
          txLen := 5#12
          retry := 0#8
          timer := { s.timer with armed := false, alarm := false }
          result := { code := .handshakeFailed, kind := .none, len := 0#12 }
          env := { s.env with
            portOpen := false
            outputs := s.env.outputs ++ [.chanClose, .done .handshakeFailed .none 0#12] } })
      ∧ (s.session = .closed →
        exec .closeS s = .next { s with
          result := { code := .illegalCommand, kind := .none, len := 0#12 }
          env := { s.env with outputs := s.env.outputs ++ [.done .illegalCommand .none 0#12] } })

/-- CLOSE in the Receiver role: LLC waits for DISC with A_TX; no timer, nothing sent (R211). CLOSE without a session is
refused. -/
def Obligations.CloseReceiverWaitsForDisc : Prop :=
  ∀ s : State, s.busy = false → s.cfg.role = .receiver →
    (s.session = .opened →
      exec .closeR s = .next { s with
        busy := true
        op := .closeCmd
        phase := .awaitingCommand
        recog := { s.recog with conf := cfgDiscCmd, rxs := .idle, cLatch := 0x00#8, escPend := false, rxLen := 0#12 } })
      ∧ (s.session = .closed →
        exec .closeR s = .next { s with
          result := { code := .illegalCommand, kind := .none, len := 0#12 }
          env := { s.env with outputs := s.env.outputs ++ [.done .illegalCommand .none 0#12] } })

/-- Every command issued where it has no meaning changes RESULT and emits Done(IllegalCommand), and nothing else: OPEN in
a session; WRITE, READ, CLOSE without one; WRITE by a Receiver; READ by a Sender; WRITE of too long a payload (R237). -/
def Obligations.IllegalCommandsAreRefused : Prop :=
  ∀ (op : Op) (rest : List Input) (s : State), s.env.inputs = .cmd op :: rest → s.busy = false →
    ((op = .openCmd ∧ s.session = .opened)
      ∨ (op ≠ .openCmd ∧ s.session = .closed)
      ∨ (op = .writeCmd ∧ s.cfg.role = .receiver)
      ∨ (op = .readCmd ∧ s.cfg.role = .sender)
      ∨ (op = .writeCmd ∧ Config.maxPayload < s.txpayLen.toNat)) →
    step s = .next { s with
      result := { code := .illegalCommand, kind := .none, len := 0#12 }
      env := { s.env with inputs := rest, outputs := s.env.outputs ++ [.done .illegalCommand .none 0#12] } }

/-- The model's choice (log 7): a command issued while BUSY = 1 is not accepted, and its input is dropped without a
trace. -/
def Obligations.CommandsWhileBusyAreIgnored : Prop :=
  ∀ (op : Op) (rest : List Input) (s : State), s.env.inputs = .cmd op :: rest → s.busy = true →
    step s = .next { s with env := { s.env with inputs := rest } }

/-- The role is no part of the opcode: OPEN and CLOSE act by CFG_ROLE (R101). The model's choice (log 13): that holds of the
crossed forms too, OPEN.S and CLOSE.S in the Receiver role wait as OpenReceiverWaitsForSet and CloseReceiverWaitsForDisc
say, OPEN.R and CLOSE.R in the Sender role send as OpenSenderSendsSet and CloseSenderSendsDisc say, and the two
constructors of a command never differ. -/
def Obligations.OpenAndCloseActByRole : Prop :=
  (∀ s : State, exec .openS s = exec .openR s ∧ exec .closeS s = exec .closeR s)
    ∧ (∀ s : State, s.busy = false → s.cfg.role = .receiver →
      (s.session = .closed → s.env.shimOk = true →
        exec .openS s = .next { s with
          busy := true
          op := .openCmd
          phase := .awaitingCommand
          recog := { s.recog with conf := cfgSet, rxs := .idle, cLatch := 0x00#8, escPend := false, rxLen := 0#12 }
          env := { s.env with portOpen := true, outputs := s.env.outputs ++ [.chanOpen s.cfg.port s.cfg.baud] } })
        ∧ (s.session = .opened →
          exec .closeS s = .next { s with
            busy := true
            op := .closeCmd
            phase := .awaitingCommand
            recog := { s.recog with conf := cfgDiscCmd, rxs := .idle, cLatch := 0x00#8, escPend := false, rxLen := 0#12 } }))
    ∧ ∀ s : State, s.busy = false → s.cfg.role = .sender → s.cfg.maxRetries ≠ 0#8 →
      (s.session = .closed → s.env.shimOk = true →
        exec .openR s = .next { s with
          busy := true
          op := .openCmd
          phase := .awaitingResponse
          txbuf := Memory.writeList s.txbuf 0 (supFrame Config.aTx Config.cSet)
          txLen := 5#12
          retry := s.cfg.maxRetries
          timer := { count := Config.fTick * s.cfg.timeout.toNat, armed := true, alarm := false }
          recog := { s.recog with conf := cfgUa, rxs := .idle, cLatch := 0x00#8, escPend := false, rxLen := 0#12 }
          env := { s.env with
            portOpen := true
            outputs := s.env.outputs ++ [.chanOpen s.cfg.port s.cfg.baud, .tx (supFrame Config.aTx Config.cSet)]
            lineOut := s.env.lineOut ++ supFrame Config.aTx Config.cSet } })
        ∧ (s.session = .opened →
          exec .closeR s = .next { s with
            busy := true
            op := .closeCmd
            phase := .awaitingResponse
            txbuf := Memory.writeList s.txbuf 0 (supFrame Config.aTx Config.cDisc)
            txLen := 5#12
            retry := s.cfg.maxRetries
            timer := { count := Config.fTick * s.cfg.timeout.toNat, armed := true, alarm := false }
            recog := { s.recog with conf := cfgDiscReply, rxs := .idle, cLatch := 0x00#8, escPend := false, rxLen := 0#12 }
            env := { s.env with
              outputs := s.env.outputs ++ [.tx (supFrame Config.aTx Config.cDisc)]
              lineOut := s.env.lineOut ++ supFrame Config.aTx Config.cDisc } })

/-! ### Frames -/

/-- SET: recognised in the Receiver's OPEN, which answers UA and completes; ignored everywhere else (R148, R205). -/
def Obligations.SetOpensTheReceiver : Prop :=
  (∀ s : State, WaitsFor .openCmd s → s.cfg.role = .receiver →
      exec (.set .tx) s = .next { s with
        recog := { s.recog with rxs := .done, cLatch := Config.cSet }
        txbuf := Memory.writeList s.txbuf 0 (supFrame Config.aTx Config.cUa)
        txLen := 5#12
        ns := 0#1
        nr := 0#1
        session := .opened
        phase := .ready
        busy := false
        timer := { s.timer with armed := false, alarm := false }
        result := { code := .ok, kind := .none, len := 0#12 }
        env := { s.env with
          outputs := s.env.outputs ++ [.tx (supFrame Config.aTx Config.cUa), .done .ok .none 0#12]
          lineOut := s.env.lineOut ++ supFrame Config.aTx Config.cUa } })
    ∧ ∀ (op : Op) (a : Addr) (s : State), WaitsFor op s → ¬ (op = .openCmd ∧ s.cfg.role = .receiver ∧ a = .tx) →
      exec (.set a) s = .next { s with recog := { s.recog with rxs := .delimiterSeen } }

/-- UA@TX: recognised in the Sender's OPEN, which completes without sending; ignored everywhere else, UA@RX everywhere
(R149, R203). -/
def Obligations.UaOpensTheSender : Prop :=
  (∀ s : State, WaitsFor .openCmd s → s.cfg.role = .sender →
      exec (.ua .tx) s = .next { s with
        recog := { s.recog with rxs := .done, cLatch := Config.cUa }
        ns := 0#1
        nr := 0#1
        session := .opened
        phase := .ready
        busy := false
        timer := { s.timer with armed := false, alarm := false }
        result := { code := .ok, kind := .none, len := 0#12 }
        env := { s.env with outputs := s.env.outputs ++ [.done .ok .none 0#12] } })
    ∧ ∀ (op : Op) (a : Addr) (s : State), WaitsFor op s → ¬ (op = .openCmd ∧ s.cfg.role = .sender ∧ a = .tx) →
      exec (.ua a) s = .next { s with recog := { s.recog with rxs := .delimiterSeen } }

/-- DISC: DISC@TX in the Receiver's CLOSE is answered by DISC@RX, DISC@RX in the Sender's CLOSE by UA@RX, and both close
the port and the session; ignored everywhere else, READ included (R150, R209, R212). -/
def Obligations.DiscClosesTheSession : Prop :=
  (∀ s : State, WaitsFor .closeCmd s → s.cfg.role = .receiver →
      exec (.disc .tx) s = .next { s with
        recog := { s.recog with rxs := .done, cLatch := Config.cDisc }
        txbuf := Memory.writeList s.txbuf 0 (supFrame Config.aRx Config.cDisc)
        txLen := 5#12
        session := .closed
        phase := .ready
        busy := false
        timer := { s.timer with armed := false, alarm := false }
        result := { code := .ok, kind := .none, len := 0#12 }
        env := { s.env with
          portOpen := false
          outputs := s.env.outputs ++ [.tx (supFrame Config.aRx Config.cDisc), .chanClose, .done .ok .none 0#12]
          lineOut := s.env.lineOut ++ supFrame Config.aRx Config.cDisc } })
    ∧ (∀ s : State, WaitsFor .closeCmd s → s.cfg.role = .sender →
      exec (.disc .rx) s = .next { s with
        recog := { s.recog with rxs := .done, cLatch := Config.cDisc }
        txbuf := Memory.writeList s.txbuf 0 (supFrame Config.aRx Config.cUa)
        txLen := 5#12
        session := .closed
        phase := .ready
        busy := false
        timer := { s.timer with armed := false, alarm := false }
        result := { code := .ok, kind := .none, len := 0#12 }
        env := { s.env with
          portOpen := false
          outputs := s.env.outputs ++ [.tx (supFrame Config.aRx Config.cUa), .chanClose, .done .ok .none 0#12]
          lineOut := s.env.lineOut ++ supFrame Config.aRx Config.cUa } })
    ∧ ∀ (op : Op) (a : Addr) (s : State), WaitsFor op s →
      ¬ (op = .closeCmd ∧ s.cfg.role = .receiver ∧ a = .tx) → ¬ (op = .closeCmd ∧ s.cfg.role = .sender ∧ a = .rx) →
      exec (.disc a) s = .next { s with recog := { s.recog with rxs := .delimiterSeen } }

/-- RR(1 - NS) in WRITE: the timer is disarmed, NS flips, Done(Ok, Written, TXLEN); RR(NS) in WRITE and every RR elsewhere
are ignored (R151, R166). -/
def Obligations.ExpectedRrCompletesTheWrite : Prop :=
  (∀ s : State, WaitsFor .writeCmd s →
      exec (.rr .tx (1#1 - s.ns)) s = .next { s with
        recog := { s.recog with rxs := .done, cLatch := cRr (1#1 - s.ns) }
        ns := 1#1 - s.ns
        phase := .ready
        busy := false
        timer := { s.timer with armed := false, alarm := false }
        result := { code := .ok, kind := .written, len := s.txLen }
        env := { s.env with outputs := s.env.outputs ++ [.done .ok .written s.txLen] } })
    ∧ ∀ (op : Op) (a : Addr) (n : Bit) (s : State), WaitsFor op s → ¬ (op = .writeCmd ∧ a = .tx ∧ n = 1#1 - s.ns) →
      exec (.rr a n) s = .next { s with recog := { s.recog with rxs := .delimiterSeen } }

/-- REJ(n) in WRITE, whichever n: the budget is reloaded, the timer armed anew, the recognizer restarted and the same
frame sent again, NS unchanged; ignored elsewhere (R152, R168). -/
def Obligations.RejRetransmitsWithAFullBudget : Prop :=
  (∀ (n : Bit) (s : State), WaitsFor .writeCmd s →
      exec (.rej .tx n) s = .next { s with
        recog := { s.recog with conf := cfgAck s.ns, rxs := .idle, cLatch := 0x00#8, escPend := false, rxLen := 0#12 }
        retry := s.cfg.maxRetries
        phase := .awaitingResponse
        timer := { count := Config.fTick * s.cfg.timeout.toNat, armed := true, alarm := false }
        env := { s.env with
          outputs := s.env.outputs ++ [.tx (Memory.firstBytes s.txbuf s.txLen.toNat)]
          lineOut := s.env.lineOut ++ Memory.firstBytes s.txbuf s.txLen.toNat } })
    ∧ ∀ (op : Op) (a : Addr) (n : Bit) (s : State), WaitsFor op s → ¬ (op = .writeCmd ∧ a = .tx) →
      exec (.rej a n) s = .next { s with recog := { s.recog with rxs := .delimiterSeen } }

/-- A new information frame with good checksum-2 in READ: NR flips, RR with the new NR is sent, Done(Ok, Delivered, len),
and the host finds the payload in RXBUF (R184). -/
def Obligations.NewGoodFrameIsDelivered : Prop :=
  ∀ (s : State) (body : List BodyUnit) (p : List Byte), WaitsFor .readCmd s → bodyWf body = true →
    bodyValues body = p ++ [bcc2 p] →
    ∃ t : State, exec (.info .tx s.nr body) s = .next t
      ∧ t.hostPayload = some p
      ∧ t = { s with
          recog := { s.recog with
            rxs := .done
            cLatch := s.nr.zeroExtend 8 <<< 6
            escPend := false
            rxLen := BitVec.ofNat 12 (p.length + 1)
            rxbuf := Memory.writeList s.recog.rxbuf 0 (p ++ [bcc2 p]) }
          nr := 1#1 - s.nr
          txbuf := Memory.writeList s.txbuf 0 (supFrame Config.aTx (cRr (1#1 - s.nr)))
          txLen := 5#12
          phase := .ready
          busy := false
          timer := { s.timer with armed := false, alarm := false }
          result := { code := .ok, kind := .delivered, len := BitVec.ofNat 12 p.length }
          env := { s.env with
            outputs := s.env.outputs ++
              [.tx (supFrame Config.aTx (cRr (1#1 - s.nr))), .done .ok .delivered (BitVec.ofNat 12 p.length)]
            lineOut := s.env.lineOut ++ supFrame Config.aTx (cRr (1#1 - s.nr)) } }

/-- A duplicate information frame in READ, its checksum-2 good or bad: RR(NR) again, Done(Ok, Duplicate, 0), NR unchanged,
nothing for the host (R185). -/
def Obligations.DuplicateFrameIsAcknowledgedAgain : Prop :=
  ∀ (s : State) (body : List BodyUnit), WaitsFor .readCmd s → bodyWf body = true →
    ∃ t : State, exec (.info .tx (1#1 - s.nr) body) s = .next t
      ∧ t.hostPayload = none
      ∧ t = { s with
          recog := { s.recog with
            rxs := .done
            cLatch := (1#1 - s.nr).zeroExtend 8 <<< 6
            escPend := false
            rxLen := BitVec.ofNat 12 body.length
            rxbuf := Memory.writeList s.recog.rxbuf 0 (bodyValues body) }
          txbuf := Memory.writeList s.txbuf 0 (supFrame Config.aTx (cRr s.nr))
          txLen := 5#12
          phase := .ready
          busy := false
          timer := { s.timer with armed := false, alarm := false }
          result := { code := .ok, kind := .duplicate, len := 0#12 }
          env := { s.env with
            outputs := s.env.outputs ++ [.tx (supFrame Config.aTx (cRr s.nr)), .done .ok .duplicate 0#12]
            lineOut := s.env.lineOut ++ supFrame Config.aTx (cRr s.nr) } }

/-- A new information frame with bad checksum-2 in READ: REJ(NR), Done(ChecksumMismatch, None, 0), NR unchanged, nothing
for the host (R186). -/
def Obligations.NewBadFrameIsRejected : Prop :=
  ∀ (s : State) (body : List BodyUnit) (p : List Byte) (x : Byte), WaitsFor .readCmd s → bodyWf body = true →
    bodyValues body = p ++ [x] → bcc2 p ≠ x →
    ∃ t : State, exec (.info .tx s.nr body) s = .next t
      ∧ t.hostPayload = none
      ∧ t = { s with
          recog := { s.recog with
            rxs := .done
            cLatch := s.nr.zeroExtend 8 <<< 6
            escPend := false
            rxLen := BitVec.ofNat 12 (p.length + 1)
            rxbuf := Memory.writeList s.recog.rxbuf 0 (p ++ [x]) }
          txbuf := Memory.writeList s.txbuf 0 (supFrame Config.aTx (cRej s.nr))
          txLen := 5#12
          phase := .ready
          busy := false
          timer := { s.timer with armed := false, alarm := false }
          result := { code := .checksumMismatch, kind := .none, len := 0#12 }
          env := { s.env with
            outputs := s.env.outputs ++ [.tx (supFrame Config.aTx (cRej s.nr)), .done .checksumMismatch .none 0#12]
            lineOut := s.env.lineOut ++ supFrame Config.aTx (cRej s.nr) } }

/-- A well-formed frame the current configuration does not accept, of whatever kind and address, changes RXS alone (R97).
-/
def Obligations.UnacceptedFramesLeaveNoTrace : Prop :=
  ∀ (op : Op) (i : Instr) (s : State), WaitsFor op s → i.wf = true → i.header ≠ none →
    acceptsFrame s.recog.conf i = false →
    exec i s = .next { s with recog := { s.recog with rxs := .delimiterSeen } }

/-- After a good header in READ: an empty body, a body that ends in an unpaired ESC, and a body of more than RXBUF_CAP
destuffed bytes are dropped; nothing is sent and READ keeps waiting, a FLAG seen (R99). -/
def Obligations.MalformedBodiesAreDropped : Prop :=
  ∀ (s : State) (sb : Bit) (body : List BodyUnit), WaitsFor .readCmd s →
    (body = []
      ∨ (∃ us : List BodyUnit, body = us ++ [.plain Config.esc] ∧ us.all BodyUnit.wf = true)
      ∨ (body.all BodyUnit.wf = true ∧ Config.rxbufCap < body.length)) →
    ∃ t : State, exec (.info .tx sb body) s = .next t
      ∧ t = { s with recog := { s.recog with
          rxs := .delimiterSeen, cLatch := cInfo sb, escPend := false, rxLen := 0#12, rxbuf := t.recog.rxbuf } }

/-- ESC inside a body: the pairs ESC_FLAG and ESC_ESC append 0x7E and 0x7D, and ESC before any other byte x but FLAG
appends x xor 0x20; outside a body 0x7D is an unexpected byte like any other (R92). -/
def Obligations.EscapePrefixesTheNextBodyByte : Prop :=
  ∀ s : State, polling s = true → s.env.portOpen = true → s.env.rxQueue = [] →
    (s.recog.rxs = .checksumVerified → s.recog.conf.kind = .info → s.recog.escPend = false →
        s.recog.rxLen.toNat < Config.rxbufCap →
      exec .escFlag s = .next { s with recog := { s.recog with
          rxbuf := Memory.write s.recog.rxbuf s.recog.rxLen.toNat 0x7E#8, rxLen := s.recog.rxLen + 1#12 } }
        ∧ exec .escEsc s = .next { s with recog := { s.recog with
            rxbuf := Memory.write s.recog.rxbuf s.recog.rxLen.toNat 0x7D#8, rxLen := s.recog.rxLen + 1#12 } }
        ∧ ∀ x : Byte, x ≠ Config.flag → present (.wire [Config.esc, x]) s = .next { s with recog := { s.recog with
            rxbuf := Memory.write s.recog.rxbuf s.recog.rxLen.toNat (x ^^^ 0x20#8), rxLen := s.recog.rxLen + 1#12 } })
      ∧ (∀ i : Instr, i = .escFlag ∨ i = .escEsc →
        HeaderState s.recog ∨ (s.recog.rxs = .checksumVerified ∧ s.recog.conf.kind = .sup) →
        exec i s = .next { s with recog := { s.recog with rxs := .idle } })

/-- While LLC does not poll, the bytes of whatever arrives wait in arrival order; while it polls, the oldest queued byte is
taken first, by a run of bytes as by a single poll, which is one RxByte (R12, R65, R66, R131). The model's own: a poll of an
empty queue, or while LLC is not waiting, only uses its input up (log 6), and a closed port receives nothing (log 9). What
the line does to the queue is LineAndShimMoveBytes. -/
def Obligations.QueuedBytesWaitInOrder : Prop :=
  (∀ s : State, polling s = true ↔ s.busy = true ∧ (s.phase = .awaitingResponse ∨ s.phase = .awaitingCommand))
    ∧ (∀ (rest : List Input) (s : State), s.env.inputs = .poll :: rest →
      (∀ b q, polling s = true → s.env.rxQueue = b :: q →
        step s = .next (rxByte b { s with env := { s.env with inputs := rest, rxQueue := q } }))
        ∧ (s.env.rxQueue = [] ∨ polling s = false → step s = .next { s with env := { s.env with inputs := rest } }))
    ∧ ∀ (bs : List Byte) (s : State),
    (s.env.portOpen = true → polling s = false →
        present (.wire bs) s = .next { s with env := { s.env with rxQueue := s.env.rxQueue ++ bs } })
      ∧ (∀ b q, s.env.portOpen = true → polling s = true → s.env.rxQueue = b :: q → (rxByte b s).env.portOpen = true →
        present (.wire bs) s = present (.wire bs) (rxByte b { s with env := { s.env with rxQueue := q } }))
      ∧ (s.env.portOpen = false → present (.wire bs) s = .next s)

/-! ### The timer -/

/-- arm, disarm, Tick, when a Timeout is due, that it comes before the next Tick, and that its handling leaves ALARM = 0
(R244, R245, R246). The model's own (log 12, DEDUCED from R241 and R246): a Tick taken while a Timeout is due runs the
Timeout and stays the next input, and a Timeout that is not due is dropped, whatever BUSY. -/
def Obligations.TimerCountsDownToTheTimeout : Prop :=
  (∀ s : State, arm s =
      { s with timer := { count := s.cfg.timeout.toNat * Config.fTick, armed := true, alarm := false } })
    ∧ (∀ s : State, disarm s = { s with timer := { count := s.timer.count, armed := false, alarm := false } })
    ∧ (∀ s : State, timeoutDue s = true ↔ s.timer.armed = true ∧ s.timer.count = 0)
    ∧ (∀ (rest : List Input) (s : State), s.env.inputs = .timeout :: rest →
        (s.timer.armed = false ∨ 0 < s.timer.count) → step s = .next { s with env := { s.env with inputs := rest } })
    ∧ ∀ (rest : List Input) (s : State), s.env.inputs = .tick :: rest →
        (s.timer.armed = true → 0 < s.timer.count → step s = .next { s with
            timer := { s.timer with count := s.timer.count - 1 }, env := { s.env with inputs := rest } })
          ∧ (s.timer.armed = false → step s = .next { s with env := { s.env with inputs := rest } })
          ∧ (Inv s → timeoutDue s = true → step s = .next (timeoutEvent s) ∧ (timeoutEvent s).timer.alarm = false
              ∧ (timeoutEvent s).env.inputs = .tick :: rest)

/-- Timeout in WRITE: one unit of RETRY is spent and the same frame is sent again under a restarted recognizer and a
freshly armed timer, or, with the budget spent, Done(MaxRetriesExceeded) with SESSION, NS and TXBUF as they were (R167).
-/
def Obligations.TimeoutInWriteRetransmitsOrFails : Prop :=
  ∀ (rest : List Input) (s : State), s.env.inputs = .timeout :: rest → s.op = .writeCmd → s.timer.armed = true →
    s.timer.count = 0 →
    (1 < s.retry.toNat → step s = .next { s with
        retry := s.retry - 1#8
        phase := .awaitingResponse
        timer := { count := Config.fTick * s.cfg.timeout.toNat, armed := true, alarm := false }
        recog := { s.recog with conf := cfgAck s.ns, rxs := .idle, cLatch := 0x00#8, escPend := false, rxLen := 0#12 }
        env := { s.env with
          inputs := rest
          outputs := s.env.outputs ++ [.tx (Memory.firstBytes s.txbuf s.txLen.toNat)]
          lineOut := s.env.lineOut ++ Memory.firstBytes s.txbuf s.txLen.toNat } })
      ∧ (s.retry.toNat = 1 → step s = .next { s with
        retry := 0#8
        phase := .ready
        busy := false
        timer := { s.timer with armed := false, alarm := false }
        result := { code := .maxRetriesExceeded, kind := .none, len := 0#12 }
        env := { s.env with inputs := rest, outputs := s.env.outputs ++ [.done .maxRetriesExceeded .none 0#12] } })

/-- Timeout in the Sender's OPEN and CLOSE: the same with CFG_UA or CFG_DISC_REPLY, and the failure closes the port and the
session (R202, R208). -/
def Obligations.TimeoutInHandshakeRetransmitsOrFails : Prop :=
  ∀ (rest : List Input) (s : State), s.env.inputs = .timeout :: rest → s.op = .openCmd ∨ s.op = .closeCmd →
    s.timer.armed = true → s.timer.count = 0 →
    (1 < s.retry.toNat → step s = .next { s with
        retry := s.retry - 1#8
        phase := .awaitingResponse
        timer := { count := Config.fTick * s.cfg.timeout.toNat, armed := true, alarm := false }
        recog := { s.recog with
          conf := if s.op = .openCmd then cfgUa else cfgDiscReply
          rxs := .idle, cLatch := 0x00#8, escPend := false, rxLen := 0#12 }
        env := { s.env with
          inputs := rest
          outputs := s.env.outputs ++ [.tx (Memory.firstBytes s.txbuf s.txLen.toNat)]
          lineOut := s.env.lineOut ++ Memory.firstBytes s.txbuf s.txLen.toNat } })
      ∧ (s.retry.toNat = 1 → step s = .next { s with
        retry := 0#8
        phase := .ready
        busy := false
        session := .closed
        timer := { s.timer with armed := false, alarm := false }
        result := { code := .handshakeFailed, kind := .none, len := 0#12 }
        env := { s.env with
          inputs := rest
          portOpen := false
          outputs := s.env.outputs ++ [.chanClose, .done .handshakeFailed .none 0#12] } })

/-! ### The whole machine -/

/-- A step runs the instruction the decoder reads from what is presented: wire bytes, or the host word {CFG_ROLE, opcode}
of a command; the input is taken first, and nothing else is added around exec. The last two clauses are the model's choice
(log 17): what withFetchWord stores is presented next, wire bytes with the port opened, a host word with CFG_ROLE set to its
bit 2. -/
def Obligations.StepRunsTheDecodedInstruction : Prop :=
  (∀ (bs : List Byte) (i : Instr) (rest : List Input) (s : State), s.env.inputs = .wire bs :: rest →
      decode (.wire bs) = .ok i → step s = exec i { s with env := { s.env with inputs := rest } })
    ∧ (∀ (op : Op) (i : Instr) (rest : List Input) (s : State), s.env.inputs = .cmd op :: rest →
      decode (.host (hostWord s.cfg.role op)) = .ok i → step s = exec i { s with env := { s.env with inputs := rest } })
    ∧ (∀ (bs : List Byte) (i : Instr) (s : State), decode (.wire bs) = .ok i →
      step (stored (.wire bs) s) = exec i { s with env := { s.env with portOpen := true } })
    ∧ ∀ (w : BitVec 3) (i : Instr) (s : State), decode (.host w) = .ok i →
      step (stored (.host w) s) = exec i { s with cfg := { s.cfg with role := if w.getLsbD 2 then .receiver else .sender } }

/-- No instruction stops the machine: every one answers a next state in every state (R67, R96, R237). A step stops on one
input only, a host write outside TXPAY (the model's choice, log 15). -/
def Obligations.NothingButABadIndexStops : Prop :=
  (∀ (i : Instr) (s : State), ∃ t, exec i s = .next t)
    ∧ ∀ s : State, (∃ t, step s = .next t)
      ∨ (step s = .fault .noSuchIndex ∧ ∃ k b rest, s.env.inputs = .putTxpay k b :: rest ∧ Config.maxPayload ≤ k)

/-- The values R47 gives for reset (the configuration registers and the buffers it leaves unspecified are not stated). -/
def Obligations.ResetValues : Prop :=
  State.reset.ns = 0#1 ∧ State.reset.nr = 0#1 ∧ State.reset.retry = 0#8
    ∧ State.reset.timer = { count := 0, armed := false, alarm := false }
    ∧ State.reset.phase = .ready ∧ State.reset.op = .openCmd ∧ State.reset.busy = false ∧ State.reset.session = .closed
    ∧ State.reset.result = { code := .ok, kind := .none, len := 0#12 }
    ∧ State.reset.recog.rxs = .idle ∧ State.reset.recog.cLatch = 0x00#8 ∧ State.reset.recog.escPend = false
    ∧ State.reset.recog.rxLen = 0#12 ∧ State.reset.recog.conf = { expA := 0x00#8, acc := 0#9, kind := .sup }
    ∧ State.reset.txLen = 0#12 ∧ State.reset.txpayLen = 0#12

/-- The Reset event, in any state: every register that R47 gives a value has it and nothing is output (R260). That the
environment (port, queue, line) stays as it is is the model's choice (log 11, U14). -/
def Obligations.ResetEventAbandonsTheOperation : Prop :=
  ∀ (rest : List Input) (s : State), s.env.inputs = .reset :: rest →
    ∃ t : State, step s = .next t ∧ t.env = { s.env with inputs := rest }
      ∧ t.ns = 0#1 ∧ t.nr = 0#1 ∧ t.retry = 0#8 ∧ t.timer = { count := 0, armed := false, alarm := false }
      ∧ t.phase = .ready ∧ t.op = .openCmd ∧ t.busy = false ∧ t.session = .closed
      ∧ t.result = { code := .ok, kind := .none, len := 0#12 }
      ∧ t.recog.rxs = .idle ∧ t.recog.cLatch = 0x00#8 ∧ t.recog.escPend = false ∧ t.recog.rxLen = 0#12
      ∧ t.recog.conf = { expA := 0x00#8, acc := 0#9, kind := .sup } ∧ t.txLen = 0#12 ∧ t.txpayLen = 0#12

/-- Every step keeps the invariant of R46. -/
def Obligations.EveryStepKeepsTheInvariant : Prop :=
  ∀ s t : State, Inv s → step s = .next t → Inv t

/-- Every step keeps the three buffers in canonical form. -/
def Obligations.EveryStepKeepsTheBuffersCanonical : Prop :=
  ∀ s t : State, BuffersOk s → step s = .next t → BuffersOk t

/-- The machine right after reset meets both invariants. -/
def Obligations.ResetMeetsTheInvariants : Prop :=
  Inv State.reset ∧ BuffersOk State.reset

/-- NS changes only to 0 at a reset or a successful OPEN, or to 1 - NS at a successful WRITE; NR only to 0 at a reset or a
successful OPEN, or to 1 - NR at a READ that delivers (R46 i). -/
def Obligations.SequenceBitsChangeOnlyOnSuccess : Prop :=
  ∀ s t : State, Inv s → step s = .next t →
    (t.ns = s.ns
        ∨ (t.ns = 0#1 ∧ ((∃ rest, s.env.inputs = .reset :: rest) ∨ (s.op = .openCmd ∧ s.session = .closed ∧ t.session = .opened)))
        ∨ (t.ns = 1#1 - s.ns ∧ s.op = .writeCmd ∧ s.busy = true ∧ t.busy = false
            ∧ t.result = { code := .ok, kind := .written, len := s.txLen }))
      ∧ (t.nr = s.nr
        ∨ (t.nr = 0#1 ∧ ((∃ rest, s.env.inputs = .reset :: rest) ∨ (s.op = .openCmd ∧ s.session = .closed ∧ t.session = .opened)))
        ∨ (t.nr = 1#1 - s.nr ∧ s.op = .readCmd ∧ s.busy = true ∧ t.busy = false
            ∧ t.result.code = .ok ∧ t.result.kind = .delivered))

/-- The configuration registers: a host write while SESSION = Closed and BUSY = 0 is taken, at any other time it is
ignored, and nothing else but Reset changes them (R32). -/
def Obligations.ConfigurationChangesOnlyWhileClosed : Prop :=
  (∀ (rest : List Input) (s : State) (n : BitVec 8), s.env.inputs = .putMaxRetries n :: rest →
      step s = .next { s with
        cfg := if s.session = .closed ∧ s.busy = false then { s.cfg with maxRetries := n } else s.cfg
        env := { s.env with inputs := rest } })
    ∧ (∀ (rest : List Input) (s : State) (n : BitVec 8), s.env.inputs = .putTimeout n :: rest →
      step s = .next { s with
        cfg := if s.session = .closed ∧ s.busy = false then { s.cfg with timeout := n } else s.cfg
        env := { s.env with inputs := rest } })
    ∧ (∀ (rest : List Input) (s : State) (r : Role), s.env.inputs = .putRole r :: rest →
      step s = .next { s with
        cfg := if s.session = .closed ∧ s.busy = false then { s.cfg with role := r } else s.cfg
        env := { s.env with inputs := rest } })
    ∧ (∀ (rest : List Input) (s : State) (p : Nat), s.env.inputs = .putPort p :: rest →
      step s = .next { s with
        cfg := if s.session = .closed ∧ s.busy = false then { s.cfg with port := p } else s.cfg
        env := { s.env with inputs := rest } })
    ∧ (∀ (rest : List Input) (s : State) (b : BitVec 32), s.env.inputs = .putBaud b :: rest →
      step s = .next { s with
        cfg := if s.session = .closed ∧ s.busy = false then { s.cfg with baud := b } else s.cfg
        env := { s.env with inputs := rest } })
    ∧ ∀ s t : State, step s = .next t → t.cfg ≠ s.cfg →
        (∃ rest, s.env.inputs = .reset :: rest)
          ∨ (s.session = .closed ∧ s.busy = false ∧ ∃ i rest, s.env.inputs = i :: rest ∧
            ((∃ n, i = .putMaxRetries n) ∨ (∃ n, i = .putTimeout n) ∨ (∃ r, i = .putRole r) ∨ (∃ p, i = .putPort p)
              ∨ ∃ b, i = .putBaud b))

/-- TXPAY and TXPAY_LEN: a host write while BUSY = 0 is taken, while BUSY = 1 it is ignored, nothing else but Reset changes
them, and no TXPAY write reaches another byte (R61, R71). The model's own: the fault of a write beyond the space (log 15),
and that bytes beyond TXPAY_LEN keep their values (log 27, U2). -/
def Obligations.PayloadBufferBelongsToTheHost : Prop :=
  (∀ (rest : List Input) (s : State) (k : Nat) (b : Byte), s.env.inputs = .putTxpay k b :: rest → k < Config.maxPayload →
      ∃ t, step s = .next t
        ∧ t = { s with txpay := t.txpay, env := { s.env with inputs := rest } }
        ∧ (s.busy = true → t.txpay = s.txpay)
        ∧ (s.busy = false → ∀ j, Memory.read t.txpay j = if j = k then b else Memory.read s.txpay j))
    ∧ (∀ (rest : List Input) (s : State) (n : Len), s.env.inputs = .putTxpayLen n :: rest →
      step s = .next { s with
        txpayLen := if s.busy = true then s.txpayLen else n
        env := { s.env with inputs := rest } })
    ∧ ∀ s t : State, step s = .next t → t.txpay ≠ s.txpay ∨ t.txpayLen ≠ s.txpayLen →
        (∃ rest, s.env.inputs = .reset :: rest)
          ∨ (s.busy = false ∧ ((∃ k b rest, s.env.inputs = .putTxpay k b :: rest)
            ∨ ∃ n rest, s.env.inputs = .putTxpayLen n :: rest))

/-- The layouts of STATUS and RESULT, and the values of the names their fields hold (R38, R39; OP R41, PHASE R29, RXS
R30). -/
def Obligations.StatusAndResultLayouts : Prop :=
  (∀ s : State,
      s.status.extractLsb' 0 1 = (if s.session = .opened then 1#1 else 0#1)
      ∧ s.status.extractLsb' 1 1 = (if s.busy = true then 1#1 else 0#1)
      ∧ s.status.extractLsb' 2 2 = s.op.bits
      ∧ s.status.extractLsb' 4 3 = s.phase.bits
      ∧ s.status.extractLsb' 7 3 = s.recog.rxs.bits
      ∧ s.status.extractLsb' 10 1 = s.ns
      ∧ s.status.extractLsb' 11 1 = s.nr
      ∧ s.status.extractLsb' 12 1 = (if s.timer.armed = true then 1#1 else 0#1)
      ∧ s.status.extractLsb' 13 1 = (if s.timer.alarm = true then 1#1 else 0#1)
      ∧ s.status.extractLsb' 14 1 = (if s.recog.escPend = true then 1#1 else 0#1)
      ∧ s.status.extractLsb' 15 1 = 0#1)
    ∧ (∀ r : Result, r.bits.extractLsb' 0 3 = r.code.bits ∧ r.bits.extractLsb' 3 2 = r.kind.bits
      ∧ r.bits.extractLsb' 5 12 = r.len)
    ∧ [Code.ok, .transportUnavailable, .handshakeFailed, .maxRetriesExceeded, .checksumMismatch, .malformedFrame,
        .illegalCommand].map Code.bits = [0#3, 1#3, 2#3, 3#3, 4#3, 5#3, 6#3]
    ∧ [Kind.none, .delivered, .duplicate, .written].map Kind.bits = [0#2, 1#2, 2#2, 3#2]
    ∧ [Op.openCmd, .writeCmd, .readCmd, .closeCmd].map Op.bits = [0#2, 1#2, 2#2, 3#2]
    ∧ [Phase.ready, .awaitingSend, .awaitingResponse, .accepted, .rejected, .timedOut, .awaitingCommand].map Phase.bits
        = [0#3, 1#3, 2#3, 3#3, 4#3, 5#3, 6#3]
    ∧ [Rxs.idle, .delimiterSeen, .addressSeen, .controlSeen, .checksumVerified, .done].map Rxs.bits
        = [0#3, 1#3, 2#3, 3#3, 4#3, 5#3]

/-- Between commands LLC is quiescent: while BUSY = 0 no input but a command, a Reset and a host write changes any register
or makes any output (R280). -/
def Obligations.QuiescentBetweenCommands : Prop :=
  ∀ (i : Input) (rest : List Input) (s t : State), Inv s → s.busy = false → s.env.inputs = i :: rest → i ≠ .reset →
    (∀ op, i ≠ .cmd op) → (∀ r, i ≠ .putRole r) → (∀ n, i ≠ .putMaxRetries n) → (∀ n, i ≠ .putTimeout n) →
    (∀ p, i ≠ .putPort p) → (∀ b, i ≠ .putBaud b) → (∀ k b, i ≠ .putTxpay k b) → (∀ n, i ≠ .putTxpayLen n) →
    step s = .next t → t = { s with env := t.env } ∧ t.env.outputs = s.env.outputs ∧ t.env.inputs = rest

/-- Completion: a step emits at most one Done; with it BUSY = 0, PHASE = Ready, the timer flags are clear and RESULT is
what the Done says; an operation that ends otherwise than by Reset ends with one; and RESULT changes with a Done only
(R236). -/
def Obligations.CompletionsComeOnceAndWriteResult : Prop :=
  ∀ s t : State, Inv s → step s = .next t → ∃ new : List Output, t.env.outputs = s.env.outputs ++ new
    ∧ doneCount new ≤ 1
    ∧ (doneCount new = 1 → t.busy = false ∧ t.phase = .ready ∧ t.timer.armed = false ∧ t.timer.alarm = false
        ∧ new.getLast? = some (.done t.result.code t.result.kind t.result.len))
    ∧ (doneCount new = 0 → (¬ ∃ rest, s.env.inputs = .reset :: rest) → t.result = s.result)
    ∧ (doneCount new = 0 → (¬ ∃ rest, s.env.inputs = .reset :: rest) → s.busy = true → t.busy = true)

/-- During a WRITE nothing but Reset changes TXBUF and TXLEN, and every frame it sends is TXBUF[0 .. TXLEN - 1] as it was
built (R76, R161). -/
def Obligations.RetransmissionsSendTheSameBytes : Prop :=
  ∀ s t : State, Inv s → s.busy = true → s.op = .writeCmd → (¬ ∃ rest, s.env.inputs = .reset :: rest) → step s = .next t →
    t.txbuf = s.txbuf ∧ t.txLen = s.txLen
      ∧ ∃ new : List Output, t.env.outputs = s.env.outputs ++ new
        ∧ ∀ f ∈ framesSent new, f = Memory.firstBytes s.txbuf s.txLen.toNat

/-- What WRITE sends, delivered whole to a READ in step with it, is delivered to the host byte for byte, and the RR that
answers it completes the WRITE; both sequence bits have flipped and agree (R73 a, b, R118, R166, R184). -/
def Obligations.WrittenPayloadIsReadBack : Prop :=
  ∀ s r : State, Inv s → Inv r →
    s.busy = false → s.session = .opened → s.cfg.role = .sender → s.cfg.maxRetries ≠ 0#8 →
    s.txpayLen.toNat ≤ Config.maxPayload → s.env.portOpen = true → s.env.rxQueue = [] →
    r.busy = false → r.session = .opened → r.cfg.role = .receiver → r.env.portOpen = true → r.env.rxQueue = [] →
    s.ns = r.nr →
    ∃ s1 r1 i r2 j s2,
      exec .write s = .next s1 ∧ exec .read r = .next r1
        ∧ decode (.wire (Memory.firstBytes s1.txbuf s1.txLen.toNat)) = .ok i ∧ exec i r1 = .next r2
        ∧ r2.hostPayload = some (Memory.firstBytes s.txpay s.txpayLen.toNat)
        ∧ decode (.wire (Memory.firstBytes r2.txbuf r2.txLen.toNat)) = .ok j ∧ exec j s1 = .next s2
        ∧ s2.result = { code := .ok, kind := .written, len := s1.txLen }
        ∧ s2.ns = 1#1 - s.ns ∧ r2.nr = 1#1 - r.nr ∧ s2.ns = r2.nr ∧ s2.busy = false ∧ r2.busy = false

/-- Set-up and teardown without loss: SET and UA open both sessions with no retry consumed, DISC, DISC and UA close them
(R200, R214; scenario A). -/
def Obligations.HandshakesMeet : Prop :=
  (∀ s r : State, Inv s → Inv r → s.busy = false → s.session = .closed → s.cfg.role = .sender → s.cfg.maxRetries ≠ 0#8 →
      s.env.shimOk = true → s.env.rxQueue = [] →
      r.busy = false → r.session = .closed → r.cfg.role = .receiver → r.env.shimOk = true → r.env.rxQueue = [] →
      ∃ s1 r1 r2 s2, exec .openS s = .next s1 ∧ exec .openR r = .next r1 ∧ exec (.set .tx) r1 = .next r2
        ∧ exec (.ua .tx) s1 = .next s2 ∧ s1.env.lineOut = s.env.lineOut ++ [0x7E#8, 0x03#8, 0x03#8, 0x00#8, 0x7E#8]
        ∧ r2.env.lineOut = r.env.lineOut ++ [0x7E#8, 0x03#8, 0x07#8, 0x04#8, 0x7E#8]
        ∧ s2.session = .opened ∧ r2.session = .opened ∧ s2.retry = s.cfg.maxRetries ∧ s2.ns = r2.nr
        ∧ s2.busy = false ∧ r2.busy = false)
    ∧ ∀ s r : State, Inv s → Inv r → s.busy = false → s.session = .opened → s.cfg.role = .sender →
      s.cfg.maxRetries ≠ 0#8 → s.env.portOpen = true → s.env.rxQueue = [] →
      r.busy = false → r.session = .opened → r.cfg.role = .receiver → r.env.portOpen = true → r.env.rxQueue = [] →
      ∃ s1 r1 r2 s2, exec .closeS s = .next s1 ∧ exec .closeR r = .next r1 ∧ exec (.disc .tx) r1 = .next r2
        ∧ exec (.disc .rx) s1 = .next s2 ∧ s1.env.lineOut = s.env.lineOut ++ [0x7E#8, 0x03#8, 0x0B#8, 0x08#8, 0x7E#8]
        ∧ r2.env.lineOut = r.env.lineOut ++ [0x7E#8, 0x01#8, 0x0B#8, 0x0A#8, 0x7E#8]
        ∧ s2.env.lineOut = s1.env.lineOut ++ [0x7E#8, 0x01#8, 0x07#8, 0x06#8, 0x7E#8]
        ∧ s2.session = .closed ∧ r2.session = .closed ∧ s2.env.portOpen = false ∧ r2.env.portOpen = false
        ∧ s2.busy = false ∧ r2.busy = false

/-- The channel between two instances keeps the order of the bytes: a byte carried leaves what is in flight, sender's end
after receiver's end, the same, and touches no register of either (R67, R252). -/
def Obligations.ChannelKeepsTheOrderOfBytes : Prop :=
  ∀ (l m : Link),
    (linkStep .carryRight l = .next m →
        m.right.env.lineIn ++ m.left.env.lineOut = l.right.env.lineIn ++ l.left.env.lineOut
          ∧ m.left = { l.left with env := m.left.env } ∧ m.right = { l.right with env := m.right.env })
      ∧ (linkStep .carryLeft l = .next m →
        m.left.env.lineIn ++ m.right.env.lineOut = l.left.env.lineIn ++ l.right.env.lineOut
          ∧ m.left = { l.left with env := m.left.env } ∧ m.right = { l.right with env := m.right.env })
      ∧ (linkStep .stepLeft l = .next m → m.right = l.right)
      ∧ (linkStep .stepRight l = .next m → m.left = l.left)

/-- What the moves of the environment do to the line and the shim, LLC's own registers staying as they are: the peer puts
bytes behind those in flight; the oldest byte in flight is delivered, changed or dropped, or a byte nobody sent comes in; what
arrives is queued last, and lost while the port is closed (R66, R67; the loss is the model's choice, log 9). The oldest
byte LLC has sent leaves the line; the shim's answer is set and the shim reset (the model's inputs, log 8 and 11). -/
def Obligations.LineAndShimMoveBytes : Prop :=
  ∀ (rest : List Input) (s : State),
    (∀ bs, s.env.inputs = .peerSends bs :: rest → step s = .next { s with env := { s.env with
        inputs := rest, lineIn := s.env.lineIn ++ bs } })
      ∧ (∀ b line, s.env.lineIn = b :: line →
        (s.env.inputs = .lineDeliver :: rest → step s = .next { s with env := { s.env with
          inputs := rest, lineIn := line
          rxQueue := if s.env.portOpen = true then s.env.rxQueue ++ [b] else s.env.rxQueue } })
        ∧ (∀ c, s.env.inputs = .lineAlter c :: rest → step s = .next { s with env := { s.env with
          inputs := rest, lineIn := line
          rxQueue := if s.env.portOpen = true then s.env.rxQueue ++ [c] else s.env.rxQueue } })
        ∧ (s.env.inputs = .lineDrop :: rest → step s = .next { s with env := { s.env with inputs := rest, lineIn := line } }))
      ∧ (s.env.lineIn = [] → (s.env.inputs = .lineDeliver :: rest ∨ (∃ c, s.env.inputs = .lineAlter c :: rest)
          ∨ s.env.inputs = .lineDrop :: rest) → step s = .next { s with env := { s.env with inputs := rest } })
      ∧ (∀ c, s.env.inputs = .lineInsert c :: rest → step s = .next { s with env := { s.env with
          inputs := rest
          rxQueue := if s.env.portOpen = true then s.env.rxQueue ++ [c] else s.env.rxQueue } })
      ∧ (s.env.inputs = .lineTaken :: rest → step s = .next { s with env := { s.env with
          inputs := rest, lineOut := s.env.lineOut.drop 1 } })
      ∧ (∀ ok, s.env.inputs = .shimAnswer ok :: rest → step s = .next { s with env := { s.env with
          inputs := rest, shimOk := ok } })
      ∧ (s.env.inputs = .shimReset :: rest → step s = .next { s with env := { s.env with
          inputs := rest, portOpen := false, rxQueue := [] } })

end
end

