-- ==== Sys2Proof/Laws/Codec.lean ====
section
/-! SUPPORT. The laws of the codec: the XOR fold, stuffing as body units, destuffing, and what the decoder makes of an
encoded body. -/

namespace Sys2Proof

theorem foldl_xor (x : Byte) (p : List Byte) : p.foldl (· ^^^ ·) x = x ^^^ bcc2 p := by
  induction p generalizing x with
  | nil => simp [bcc2]
  | cons b p ih =>
    have h := ih (0x00#8 ^^^ b)
    simp only [bcc2, List.foldl_cons]
    rw [ih (x ^^^ b), h, BitVec.zero_xor, BitVec.xor_assoc]

@[simp] theorem bcc2_nil : bcc2 [] = 0x00#8 := rfl

theorem bcc2_cons (b : Byte) (p : List Byte) : bcc2 (b :: p) = b ^^^ bcc2 p := by
  simp only [bcc2, List.foldl_cons]
  rw [foldl_xor, BitVec.zero_xor]
  rfl

theorem bcc2_append (p q : List Byte) : bcc2 (p ++ q) = bcc2 p ^^^ bcc2 q := by
  rw [bcc2, List.foldl_append, foldl_xor]
  rfl

theorem xor_eq_zero (a b : Byte) : a ^^^ b = 0#8 ↔ a = b := by
  constructor
  · intro h
    have h2 : (a ^^^ b) ^^^ b = 0#8 ^^^ b := by rw [h]
    rwa [BitVec.xor_assoc, BitVec.xor_self, BitVec.xor_zero, BitVec.zero_xor] at h2
  · rintro rfl
    exact BitVec.xor_self

/-! ### Units -/

theorem BodyUnit.wf_plain {b : Byte} (h : (BodyUnit.plain b).wf = true) : b ≠ Config.flag ∧ b ≠ Config.esc := by
  simpa [BodyUnit.wf] using h

theorem BodyUnit.wf_escaped {x : Byte} (h : (BodyUnit.escaped x).wf = true) : x ≠ Config.flag := by
  simpa [BodyUnit.wf] using h

theorem esc_ne_flag : Config.esc ≠ Config.flag := by decide

@[simp] theorem bodyBytes_nil : bodyBytes [] = [] := rfl

@[simp] theorem bodyBytes_cons (u : BodyUnit) (us : List BodyUnit) :
    bodyBytes (u :: us) = u.bytes ++ bodyBytes us := rfl

@[simp] theorem bodyValues_cons (u : BodyUnit) (us : List BodyUnit) :
    bodyValues (u :: us) = u.value :: bodyValues us := rfl

@[simp] theorem bodyValues_length (us : List BodyUnit) : (bodyValues us).length = us.length := by
  simp [bodyValues]

/-- No wire byte of a well-formed body is FLAG. -/
theorem flag_notMem_bodyBytes {us : List BodyUnit} (h : us.all BodyUnit.wf = true) :
    Config.flag ∉ bodyBytes us := by
  induction us with
  | nil => simp
  | cons u us ih =>
    simp only [List.all_cons, Bool.and_eq_true] at h
    cases u with
    | plain b => simp [BodyUnit.bytes, ih h.2, (BodyUnit.wf_plain h.1).1.symm]
    | escaped x => simp [BodyUnit.bytes, ih h.2, (BodyUnit.wf_escaped h.1).symm, esc_ne_flag.symm]

/-- DESTUFF of the wire bytes of a well-formed body is its values. -/
theorem destuff_bodyBytes {us : List BodyUnit} (h : us.all BodyUnit.wf = true) :
    destuff (bodyBytes us) = some (bodyValues us) := by
  induction us with
  | nil => rfl
  | cons u us ih =>
    simp only [List.all_cons, Bool.and_eq_true] at h
    have ih' := ih h.2
    cases u with
    | escaped x => simp [BodyUnit.bytes, destuff, ih', BodyUnit.value, esc_ne_flag, BodyUnit.wf_escaped h.1]
    | plain b =>
      obtain ⟨hf, hb⟩ := BodyUnit.wf_plain h.1
      simp only [bodyBytes_cons, BodyUnit.bytes, List.singleton_append]
      cases hus : bodyBytes us with
      | nil =>
        rw [hus] at ih'
        simp only [destuff, Option.some.injEq] at ih'
        simp [destuff, hf, hb, BodyUnit.value, ← ih']
      | cons c w =>
        rw [hus] at ih'
        simp [destuff, hf, hb, ih', BodyUnit.value]

/-- The decoder reads an encoded body back, unit for unit. -/
theorem decodeUnits_bodyBytes {us : List BodyUnit} (h : us.all BodyUnit.wf = true) :
    decodeUnits (bodyBytes us ++ [Config.flag]) = .ok us := by
  induction us with
  | nil => simp [decodeUnits]
  | cons u us ih =>
    simp only [List.all_cons, Bool.and_eq_true] at h
    have ih' := ih h.2
    cases u with
    | escaped x =>
      simp [BodyUnit.bytes, decodeUnits, esc_ne_flag, BodyUnit.wf_escaped h.1, ih', Except.map]
    | plain b =>
      obtain ⟨hf, he⟩ := BodyUnit.wf_plain h.1
      cases hus : bodyBytes us ++ [Config.flag] with
      | nil => simp at hus
      | cons c w =>
        rw [hus] at ih'
        simp [BodyUnit.bytes, hus, decodeUnits, hf, he, ih', Except.map]

/-- What the decoder reads as body units is exactly the bytes it read, the end delimiter last. -/
theorem decodeUnits_eq_ok {w : List Byte} {us : List BodyUnit} (h : decodeUnits w = .ok us) :
    us.all BodyUnit.wf = true ∧ w = bodyBytes us ++ [Config.flag] := by
  induction w using decodeUnits.induct generalizing us with
  | case1 => simp [decodeUnits] at h
  | case2 => simp_all [decodeUnits]
  | case3 b hb => simp [decodeUnits, hb] at h
  | case4 x w => simp [decodeUnits] at h
  | case5 w => simp [decodeUnits, esc_ne_flag] at h
  | case6 x w hne hx ih =>
    simp only [decodeUnits, hne, hx, if_true, if_false] at h
    cases hd : decodeUnits w with
    | error e => simp [hd, Except.map] at h
    | ok vs =>
      simp only [hd, Except.map, Except.ok.injEq] at h
      obtain ⟨h1, h2⟩ := ih hd
      subst h
      simp_all [BodyUnit.wf, BodyUnit.bytes]
  | case7 b x w hf he ih =>
    simp only [decodeUnits, hf, he, if_false] at h
    cases hd : decodeUnits (x :: w) with
    | error e => simp [hd, Except.map] at h
    | ok vs =>
      simp only [hd, Except.map, Except.ok.injEq] at h
      obtain ⟨h1, h2⟩ := ih hd
      subst h
      simp_all [BodyUnit.wf, BodyUnit.bytes]

/-- A run of bytes without FLAG is a well-formed body, or one with an ESC left over at its end. -/
theorem units_of_bytes (w : List Byte) (h : Config.flag ∉ w) :
    ∃ us : List BodyUnit, us.all BodyUnit.wf = true ∧ (w = bodyBytes us ∨ w = bodyBytes us ++ [Config.esc]) := by
  induction w using destuff.induct with
  | case1 => exact ⟨[], by simp⟩
  | case2 b hb =>
    rcases hb with rfl | rfl
    · simp at h
    · exact ⟨[], by simp⟩
  | case3 b hb =>
    rw [not_or] at hb
    exact ⟨[.plain b], by simp [BodyUnit.wf, hb.1, hb.2], .inl (by simp [BodyUnit.bytes])⟩
  | case4 x w => simp at h
  | case5 w => simp at h
  | case6 x w hx _ ih =>
    simp only [List.mem_cons, not_or] at h
    obtain ⟨us, h1, h2⟩ := ih h.2.2
    refine ⟨.escaped x :: us, ?_, ?_⟩
    · rw [List.all_cons, h1]; simp [BodyUnit.wf, hx]
    · rcases h2 with h2 | h2 <;> simp [BodyUnit.bytes, h2]
  | case7 b x w hf hb ih =>
    obtain ⟨us, h1, h2⟩ := ih (fun hm => h (List.mem_cons_of_mem _ hm))
    refine ⟨.plain b :: us, ?_, ?_⟩
    · rw [List.all_cons, h1]; simp [BodyUnit.wf, hf, hb]
    · rcases h2 with h2 | h2 <;> simp [BodyUnit.bytes, h2]

/-- DESTUFF has a value on sequences without FLAG only (R115). -/
theorem destuff_noFlag {w v : List Byte} (h : destuff w = some v) : Config.flag ∉ w := by
  induction w using destuff.induct generalizing v with
  | case1 => simp
  | case2 b hb => simp [destuff, hb] at h
  | case3 b hb =>
    rw [not_or] at hb
    simpa using Ne.symm hb.1
  | case4 x w => simp [destuff] at h
  | case5 w => simp [destuff, esc_ne_flag] at h
  | case6 x w hx _ ih =>
    simp only [destuff, esc_ne_flag, hx, if_true, if_false, Option.map_eq_some_iff] at h
    obtain ⟨u, hu, _⟩ := h
    simp [esc_ne_flag.symm, Ne.symm hx, ih hu]
  | case7 b x w hf hb ih =>
    simp only [destuff, hf, hb, if_false, Option.map_eq_some_iff] at h
    obtain ⟨u, hu, _⟩ := h
    rw [List.mem_cons, not_or]
    exact ⟨Ne.symm hf, ih hu⟩

/-- An ESC left over at the end leaves DESTUFF without a value. -/
theorem destuff_dangling {us : List BodyUnit} (h : us.all BodyUnit.wf = true) :
    destuff (bodyBytes us ++ [Config.esc]) = none := by
  induction us with
  | nil => simp [destuff, esc_ne_flag]
  | cons u us ih =>
    simp only [List.all_cons, Bool.and_eq_true] at h
    have ih' := ih h.2
    cases u with
    | escaped x => simp [BodyUnit.bytes, destuff, ih', esc_ne_flag, BodyUnit.wf_escaped h.1]
    | plain b =>
      obtain ⟨hf, hb⟩ := BodyUnit.wf_plain h.1
      cases hus : bodyBytes us ++ [Config.esc] with
      | nil => simp at hus
      | cons c w =>
        rw [hus] at ih'
        simp [BodyUnit.bytes, hus, destuff, hf, hb, ih']

/-! ### Stuffing as body units -/

@[simp] theorem stuffUnits_length (s : List Byte) : (stuffUnits s).length = s.length := by simp [stuffUnits]

theorem stuffUnit_spec (b : Byte) :
    (stuffUnit b).wf = true ∧ (stuffUnit b).value = b ∧ (stuffUnit b).bytes = stuffByte b := by
  unfold stuffUnit stuffByte
  by_cases h : b = Config.flag ∨ b = Config.esc
  · rcases h with rfl | rfl <;> decide
  · have h' := not_or.mp h
    simp [BodyUnit.wf, BodyUnit.value, BodyUnit.bytes, h'.1, h'.2]

theorem stuffUnits_wf (s : List Byte) : (stuffUnits s).all BodyUnit.wf = true := by
  simp [stuffUnits, (stuffUnit_spec _).1]

@[simp] theorem bodyValues_stuffUnits (s : List Byte) : bodyValues (stuffUnits s) = s := by
  simp [bodyValues, stuffUnits, Function.comp_def, (stuffUnit_spec _).2.1]

@[simp] theorem bodyBytes_stuffUnits (s : List Byte) : bodyBytes (stuffUnits s) = stuff s := by
  simp [bodyBytes, stuffUnits, stuff, List.flatMap_map, (stuffUnit_spec _).2.2]

theorem stuff_length_le (s : List Byte) : (stuff s).length ≤ 2 * s.length := by
  induction s with
  | nil => simp [stuff]
  | cons b s ih =>
    simp only [stuff, List.flatMap_cons, List.length_append, List.length_cons] at ih ⊢
    have : (stuffByte b).length ≤ 2 := by unfold stuffByte; split <;> simp
    omega

theorem stuff_length_ge (s : List Byte) : s.length ≤ (stuff s).length := by
  induction s with
  | nil => simp [stuff]
  | cons b s ih =>
    simp only [stuff, List.flatMap_cons, List.length_append, List.length_cons] at ih ⊢
    have : 1 ≤ (stuffByte b).length := by unfold stuffByte; split <;> simp
    omega

/-! ### Whole frames -/

@[simp] theorem supFrame_length (a c : Byte) : (supFrame a c).length = 5 := rfl

theorem infoFrame_length (a : Byte) (s : Bit) (p : List Byte) :
    (infoFrame a s p).length = 5 + (stuff (p ++ [bcc2 p])).length := by
  simp [infoFrame, infoWire]; omega

theorem infoFrame_length_le (a : Byte) (s : Bit) (p : List Byte) (h : p.length ≤ Config.maxPayload) :
    (infoFrame a s p).length ≤ Config.txbufCap := by
  have h1 := stuff_length_le (p ++ [bcc2 p])
  rw [infoFrame_length]
  simp only [List.length_append, List.length_singleton, Config.txbufCap] at h1 ⊢
  omega

theorem infoOf_wf (s : Bit) (p : List Byte) (h : p.length ≤ Config.maxPayload) : (Instr.infoOf s p).wf = true := by
  have h1 : ¬ (p ++ [bcc2 p]) = [] := by simp
  simp only [Instr.infoOf, Instr.wf, bodyWf, stuffUnits_wf, Bool.and_true, Bool.and_eq_true, decide_eq_true_eq]
  refine ⟨by simp [stuffUnits], ?_⟩
  simp [Config.rxbufCap]; omega

theorem bit_cases (n : Bit) : n = 0#1 ∨ n = 1#1 := by revert n; decide

theorem infoBit_cInfo (s : Bit) : infoBit (cInfo s) = s := by revert s; decide

theorem bodyWf_spec {body : List BodyUnit} (h : bodyWf body = true) :
    body ≠ [] ∧ body.length ≤ Config.rxbufCap ∧ body.all BodyUnit.wf = true := by
  simp only [bodyWf, Bool.and_eq_true, Bool.not_eq_true', decide_eq_true_eq, List.isEmpty_eq_false_iff] at h
  exact ⟨h.1.1, h.1.2, h.2⟩

end Sys2Proof
end

