-- ==== Sys2Proof/Laws/Flags.lean ====
section
/-! SUPPORT. The laws of the timer and of the host's windows: taking a field out of a register packed by ++, the spent
retry budget, and when a Timeout is due. -/

namespace Sys2Proof.Machine

/-- The lowest field of a packed register. -/
theorem field_low {n m : Nat} (x : BitVec n) (y : BitVec m) : (x ++ y).extractLsb' 0 m = y := by
  ext i hi
  simp [BitVec.getLsbD_append, hi]

/-- A field above the lowest. -/
theorem field_above {n m o l : Nat} (x : BitVec n) (y : BitVec m) (k : Nat) (h : o = m + k) :
    (x ++ y).extractLsb' o l = x.extractLsb' k l := by
  subst h
  rw [BitVec.extractLsb'_append_eq_of_le (by omega)]
  congr 1; omega

/-- The only field left. -/
theorem field_all {n : Nat} (x : BitVec n) : x.extractLsb' 0 n = x := by
  ext i hi
  simp

theorem timeoutDue_iff (s : State) : timeoutDue s = true ↔ s.timer.armed = true ∧ s.timer.count = 0 := by
  simp [timeoutDue]

/-- RETRY - 1 with budget left (R121 d). -/
theorem spendRetry_left {r : BitVec 8} (h : 1 < r.toNat) : spendRetry r = r - 1#8 ∧ spendRetry r ≠ 0#8 := by
  have h0 : r ≠ 0#8 := by rintro rfl; simp at h
  have e : spendRetry r = r - 1#8 := by simp [spendRetry, h0]
  refine ⟨e, ?_⟩
  rw [e]
  intro h1
  have := congrArg BitVec.toNat h1
  simp at this
  omega

/-- The last unit of RETRY. -/
theorem spendRetry_last {r : BitVec 8} (h : r.toNat = 1) : spendRetry r = 0#8 := by
  have : r = 1#8 := BitVec.eq_of_toNat_eq h
  subst this
  decide

/-- RETRY never grows by being spent (R23). -/
theorem spendRetry_le (r : BitVec 8) : (spendRetry r).toNat ≤ r.toNat := by
  unfold spendRetry
  split
  · next h => simp [h]
  · next h =>
    have : r.toNat ≠ 0 := fun e => h (BitVec.eq_of_toNat_eq (by simpa using e))
    have hlt := r.isLt
    simp [BitVec.toNat_sub]
    omega

end Sys2Proof.Machine
end

