-- ==== Sys2Proof/Laws/State.lean ====
section
/-! SUPPORT. One lemma per field per update, each true by rfl, so that no later proof unfolds a record update. -/

namespace Sys2Proof.Machine

/-! ### emit -/
@[simp] theorem emit_ns {o : Output} {s : State} : (emit o s).ns = s.ns := rfl
@[simp] theorem emit_nr {o : Output} {s : State} : (emit o s).nr = s.nr := rfl
@[simp] theorem emit_retry {o : Output} {s : State} : (emit o s).retry = s.retry := rfl
@[simp] theorem emit_timer {o : Output} {s : State} : (emit o s).timer = s.timer := rfl
@[simp] theorem emit_phase {o : Output} {s : State} : (emit o s).phase = s.phase := rfl
@[simp] theorem emit_op {o : Output} {s : State} : (emit o s).op = s.op := rfl
@[simp] theorem emit_busy {o : Output} {s : State} : (emit o s).busy = s.busy := rfl
@[simp] theorem emit_session {o : Output} {s : State} : (emit o s).session = s.session := rfl
@[simp] theorem emit_result {o : Output} {s : State} : (emit o s).result = s.result := rfl
@[simp] theorem emit_cfg {o : Output} {s : State} : (emit o s).cfg = s.cfg := rfl
@[simp] theorem emit_recog {o : Output} {s : State} : (emit o s).recog = s.recog := rfl
@[simp] theorem emit_txpay {o : Output} {s : State} : (emit o s).txpay = s.txpay := rfl
@[simp] theorem emit_txpayLen {o : Output} {s : State} : (emit o s).txpayLen = s.txpayLen := rfl
@[simp] theorem emit_txbuf {o : Output} {s : State} : (emit o s).txbuf = s.txbuf := rfl
@[simp] theorem emit_txLen {o : Output} {s : State} : (emit o s).txLen = s.txLen := rfl
@[simp] theorem emit_env {o : Output} {s : State} : (emit o s).env = { s.env with outputs := s.env.outputs ++ [o] } := rfl

/-! ### sendTx -/
@[simp] theorem sendTx_ns {s : State} : (sendTx s).ns = s.ns := rfl
@[simp] theorem sendTx_nr {s : State} : (sendTx s).nr = s.nr := rfl
@[simp] theorem sendTx_retry {s : State} : (sendTx s).retry = s.retry := rfl
@[simp] theorem sendTx_timer {s : State} : (sendTx s).timer = s.timer := rfl
@[simp] theorem sendTx_phase {s : State} : (sendTx s).phase = s.phase := rfl
@[simp] theorem sendTx_op {s : State} : (sendTx s).op = s.op := rfl
@[simp] theorem sendTx_busy {s : State} : (sendTx s).busy = s.busy := rfl
@[simp] theorem sendTx_session {s : State} : (sendTx s).session = s.session := rfl
@[simp] theorem sendTx_result {s : State} : (sendTx s).result = s.result := rfl
@[simp] theorem sendTx_cfg {s : State} : (sendTx s).cfg = s.cfg := rfl
@[simp] theorem sendTx_recog {s : State} : (sendTx s).recog = s.recog := rfl
@[simp] theorem sendTx_txpay {s : State} : (sendTx s).txpay = s.txpay := rfl
@[simp] theorem sendTx_txpayLen {s : State} : (sendTx s).txpayLen = s.txpayLen := rfl
@[simp] theorem sendTx_txbuf {s : State} : (sendTx s).txbuf = s.txbuf := rfl
@[simp] theorem sendTx_txLen {s : State} : (sendTx s).txLen = s.txLen := rfl
@[simp] theorem sendTx_env {s : State} : (sendTx s).env = { s.env with
    outputs := s.env.outputs ++ [Output.tx (wireOperand s)], lineOut := s.env.lineOut ++ wireOperand s } := rfl

/-! ### chanOpen -/
@[simp] theorem chanOpen_ns {s : State} : (chanOpen s).ns = s.ns := rfl
@[simp] theorem chanOpen_nr {s : State} : (chanOpen s).nr = s.nr := rfl
@[simp] theorem chanOpen_retry {s : State} : (chanOpen s).retry = s.retry := rfl
@[simp] theorem chanOpen_timer {s : State} : (chanOpen s).timer = s.timer := rfl
@[simp] theorem chanOpen_phase {s : State} : (chanOpen s).phase = s.phase := rfl
@[simp] theorem chanOpen_op {s : State} : (chanOpen s).op = s.op := rfl
@[simp] theorem chanOpen_busy {s : State} : (chanOpen s).busy = s.busy := rfl
@[simp] theorem chanOpen_session {s : State} : (chanOpen s).session = s.session := rfl
@[simp] theorem chanOpen_result {s : State} : (chanOpen s).result = s.result := rfl
@[simp] theorem chanOpen_cfg {s : State} : (chanOpen s).cfg = s.cfg := rfl
@[simp] theorem chanOpen_recog {s : State} : (chanOpen s).recog = s.recog := rfl
@[simp] theorem chanOpen_txpay {s : State} : (chanOpen s).txpay = s.txpay := rfl
@[simp] theorem chanOpen_txpayLen {s : State} : (chanOpen s).txpayLen = s.txpayLen := rfl
@[simp] theorem chanOpen_txbuf {s : State} : (chanOpen s).txbuf = s.txbuf := rfl
@[simp] theorem chanOpen_txLen {s : State} : (chanOpen s).txLen = s.txLen := rfl
@[simp] theorem chanOpen_env {s : State} : (chanOpen s).env = { s.env with
    portOpen := s.env.shimOk, outputs := s.env.outputs ++ [Output.chanOpen s.cfg.port s.cfg.baud] } := rfl

/-! ### chanClose -/
@[simp] theorem chanClose_ns {s : State} : (chanClose s).ns = s.ns := rfl
@[simp] theorem chanClose_nr {s : State} : (chanClose s).nr = s.nr := rfl
@[simp] theorem chanClose_retry {s : State} : (chanClose s).retry = s.retry := rfl
@[simp] theorem chanClose_timer {s : State} : (chanClose s).timer = s.timer := rfl
@[simp] theorem chanClose_phase {s : State} : (chanClose s).phase = s.phase := rfl
@[simp] theorem chanClose_op {s : State} : (chanClose s).op = s.op := rfl
@[simp] theorem chanClose_busy {s : State} : (chanClose s).busy = s.busy := rfl
@[simp] theorem chanClose_session {s : State} : (chanClose s).session = s.session := rfl
@[simp] theorem chanClose_result {s : State} : (chanClose s).result = s.result := rfl
@[simp] theorem chanClose_cfg {s : State} : (chanClose s).cfg = s.cfg := rfl
@[simp] theorem chanClose_recog {s : State} : (chanClose s).recog = s.recog := rfl
@[simp] theorem chanClose_txpay {s : State} : (chanClose s).txpay = s.txpay := rfl
@[simp] theorem chanClose_txpayLen {s : State} : (chanClose s).txpayLen = s.txpayLen := rfl
@[simp] theorem chanClose_txbuf {s : State} : (chanClose s).txbuf = s.txbuf := rfl
@[simp] theorem chanClose_txLen {s : State} : (chanClose s).txLen = s.txLen := rfl
@[simp] theorem chanClose_env {s : State} : (chanClose s).env = { s.env with
    portOpen := false, outputs := s.env.outputs ++ [Output.chanClose] } := rfl

/-! ### complete -/
@[simp] theorem complete_ns {c : Code} {k : Kind} {l : Len} {s : State} : (complete c k l s).ns = s.ns := rfl
@[simp] theorem complete_nr {c : Code} {k : Kind} {l : Len} {s : State} : (complete c k l s).nr = s.nr := rfl
@[simp] theorem complete_retry {c : Code} {k : Kind} {l : Len} {s : State} : (complete c k l s).retry = s.retry := rfl
@[simp] theorem complete_timer {c : Code} {k : Kind} {l : Len} {s : State} : (complete c k l s).timer = { s.timer with armed := false, alarm := false } := rfl
@[simp] theorem complete_phase {c : Code} {k : Kind} {l : Len} {s : State} : (complete c k l s).phase = .ready := rfl
@[simp] theorem complete_op {c : Code} {k : Kind} {l : Len} {s : State} : (complete c k l s).op = s.op := rfl
@[simp] theorem complete_busy {c : Code} {k : Kind} {l : Len} {s : State} : (complete c k l s).busy = false := rfl
@[simp] theorem complete_session {c : Code} {k : Kind} {l : Len} {s : State} : (complete c k l s).session = s.session := rfl
@[simp] theorem complete_result {c : Code} {k : Kind} {l : Len} {s : State} : (complete c k l s).result = { code := c, kind := k, len := l } := rfl
@[simp] theorem complete_cfg {c : Code} {k : Kind} {l : Len} {s : State} : (complete c k l s).cfg = s.cfg := rfl
@[simp] theorem complete_recog {c : Code} {k : Kind} {l : Len} {s : State} : (complete c k l s).recog = s.recog := rfl
@[simp] theorem complete_txpay {c : Code} {k : Kind} {l : Len} {s : State} : (complete c k l s).txpay = s.txpay := rfl
@[simp] theorem complete_txpayLen {c : Code} {k : Kind} {l : Len} {s : State} : (complete c k l s).txpayLen = s.txpayLen := rfl
@[simp] theorem complete_txbuf {c : Code} {k : Kind} {l : Len} {s : State} : (complete c k l s).txbuf = s.txbuf := rfl
@[simp] theorem complete_txLen {c : Code} {k : Kind} {l : Len} {s : State} : (complete c k l s).txLen = s.txLen := rfl
@[simp] theorem complete_env {c : Code} {k : Kind} {l : Len} {s : State} : (complete c k l s).env = { s.env with
    outputs := s.env.outputs ++ [Output.done c k l] } := rfl

/-! ### illegalCommand -/
@[simp] theorem illegalCommand_ns {s : State} : (illegalCommand s).ns = s.ns := rfl
@[simp] theorem illegalCommand_nr {s : State} : (illegalCommand s).nr = s.nr := rfl
@[simp] theorem illegalCommand_retry {s : State} : (illegalCommand s).retry = s.retry := rfl
@[simp] theorem illegalCommand_timer {s : State} : (illegalCommand s).timer = s.timer := rfl
@[simp] theorem illegalCommand_phase {s : State} : (illegalCommand s).phase = s.phase := rfl
@[simp] theorem illegalCommand_op {s : State} : (illegalCommand s).op = s.op := rfl
@[simp] theorem illegalCommand_busy {s : State} : (illegalCommand s).busy = s.busy := rfl
@[simp] theorem illegalCommand_session {s : State} : (illegalCommand s).session = s.session := rfl
@[simp] theorem illegalCommand_result {s : State} : (illegalCommand s).result = { code := .illegalCommand, kind := .none, len := 0#12 } := rfl
@[simp] theorem illegalCommand_cfg {s : State} : (illegalCommand s).cfg = s.cfg := rfl
@[simp] theorem illegalCommand_recog {s : State} : (illegalCommand s).recog = s.recog := rfl
@[simp] theorem illegalCommand_txpay {s : State} : (illegalCommand s).txpay = s.txpay := rfl
@[simp] theorem illegalCommand_txpayLen {s : State} : (illegalCommand s).txpayLen = s.txpayLen := rfl
@[simp] theorem illegalCommand_txbuf {s : State} : (illegalCommand s).txbuf = s.txbuf := rfl
@[simp] theorem illegalCommand_txLen {s : State} : (illegalCommand s).txLen = s.txLen := rfl
@[simp] theorem illegalCommand_env {s : State} : (illegalCommand s).env = { s.env with
    outputs := s.env.outputs ++ [Output.done .illegalCommand .none 0#12] } := rfl

/-! ### acceptCommand -/
@[simp] theorem acceptCommand_ns {o : Op} {s : State} : (acceptCommand o s).ns = s.ns := rfl
@[simp] theorem acceptCommand_nr {o : Op} {s : State} : (acceptCommand o s).nr = s.nr := rfl
@[simp] theorem acceptCommand_retry {o : Op} {s : State} : (acceptCommand o s).retry = s.retry := rfl
@[simp] theorem acceptCommand_timer {o : Op} {s : State} : (acceptCommand o s).timer = s.timer := rfl
@[simp] theorem acceptCommand_phase {o : Op} {s : State} : (acceptCommand o s).phase = s.phase := rfl
@[simp] theorem acceptCommand_op {o : Op} {s : State} : (acceptCommand o s).op = o := rfl
@[simp] theorem acceptCommand_busy {o : Op} {s : State} : (acceptCommand o s).busy = true := rfl
@[simp] theorem acceptCommand_session {o : Op} {s : State} : (acceptCommand o s).session = s.session := rfl
@[simp] theorem acceptCommand_result {o : Op} {s : State} : (acceptCommand o s).result = s.result := rfl
@[simp] theorem acceptCommand_cfg {o : Op} {s : State} : (acceptCommand o s).cfg = s.cfg := rfl
@[simp] theorem acceptCommand_recog {o : Op} {s : State} : (acceptCommand o s).recog = s.recog := rfl
@[simp] theorem acceptCommand_txpay {o : Op} {s : State} : (acceptCommand o s).txpay = s.txpay := rfl
@[simp] theorem acceptCommand_txpayLen {o : Op} {s : State} : (acceptCommand o s).txpayLen = s.txpayLen := rfl
@[simp] theorem acceptCommand_txbuf {o : Op} {s : State} : (acceptCommand o s).txbuf = s.txbuf := rfl
@[simp] theorem acceptCommand_txLen {o : Op} {s : State} : (acceptCommand o s).txLen = s.txLen := rfl
@[simp] theorem acceptCommand_env {o : Op} {s : State} : (acceptCommand o s).env = s.env := rfl

/-! ### loadTxbuf -/
@[simp] theorem loadTxbuf_ns {bs : List Byte} {s : State} : (loadTxbuf bs s).ns = s.ns := rfl
@[simp] theorem loadTxbuf_nr {bs : List Byte} {s : State} : (loadTxbuf bs s).nr = s.nr := rfl
@[simp] theorem loadTxbuf_retry {bs : List Byte} {s : State} : (loadTxbuf bs s).retry = s.retry := rfl
@[simp] theorem loadTxbuf_timer {bs : List Byte} {s : State} : (loadTxbuf bs s).timer = s.timer := rfl
@[simp] theorem loadTxbuf_phase {bs : List Byte} {s : State} : (loadTxbuf bs s).phase = s.phase := rfl
@[simp] theorem loadTxbuf_op {bs : List Byte} {s : State} : (loadTxbuf bs s).op = s.op := rfl
@[simp] theorem loadTxbuf_busy {bs : List Byte} {s : State} : (loadTxbuf bs s).busy = s.busy := rfl
@[simp] theorem loadTxbuf_session {bs : List Byte} {s : State} : (loadTxbuf bs s).session = s.session := rfl
@[simp] theorem loadTxbuf_result {bs : List Byte} {s : State} : (loadTxbuf bs s).result = s.result := rfl
@[simp] theorem loadTxbuf_cfg {bs : List Byte} {s : State} : (loadTxbuf bs s).cfg = s.cfg := rfl
@[simp] theorem loadTxbuf_recog {bs : List Byte} {s : State} : (loadTxbuf bs s).recog = s.recog := rfl
@[simp] theorem loadTxbuf_txpay {bs : List Byte} {s : State} : (loadTxbuf bs s).txpay = s.txpay := rfl
@[simp] theorem loadTxbuf_txpayLen {bs : List Byte} {s : State} : (loadTxbuf bs s).txpayLen = s.txpayLen := rfl
@[simp] theorem loadTxbuf_txbuf {bs : List Byte} {s : State} : (loadTxbuf bs s).txbuf = Memory.writeList s.txbuf 0 bs := rfl
@[simp] theorem loadTxbuf_txLen {bs : List Byte} {s : State} : (loadTxbuf bs s).txLen = BitVec.ofNat 12 bs.length := rfl
@[simp] theorem loadTxbuf_env {bs : List Byte} {s : State} : (loadTxbuf bs s).env = s.env := rfl

/-! ### restartRecognizer -/
@[simp] theorem restartRecognizer_ns {c : RecConfig} {s : State} : (restartRecognizer c s).ns = s.ns := rfl
@[simp] theorem restartRecognizer_nr {c : RecConfig} {s : State} : (restartRecognizer c s).nr = s.nr := rfl
@[simp] theorem restartRecognizer_retry {c : RecConfig} {s : State} : (restartRecognizer c s).retry = s.retry := rfl
@[simp] theorem restartRecognizer_timer {c : RecConfig} {s : State} : (restartRecognizer c s).timer = s.timer := rfl
@[simp] theorem restartRecognizer_phase {c : RecConfig} {s : State} : (restartRecognizer c s).phase = s.phase := rfl
@[simp] theorem restartRecognizer_op {c : RecConfig} {s : State} : (restartRecognizer c s).op = s.op := rfl
@[simp] theorem restartRecognizer_busy {c : RecConfig} {s : State} : (restartRecognizer c s).busy = s.busy := rfl
@[simp] theorem restartRecognizer_session {c : RecConfig} {s : State} : (restartRecognizer c s).session = s.session := rfl
@[simp] theorem restartRecognizer_result {c : RecConfig} {s : State} : (restartRecognizer c s).result = s.result := rfl
@[simp] theorem restartRecognizer_cfg {c : RecConfig} {s : State} : (restartRecognizer c s).cfg = s.cfg := rfl
@[simp] theorem restartRecognizer_recog {c : RecConfig} {s : State} : (restartRecognizer c s).recog = s.recog.restart c := rfl
@[simp] theorem restartRecognizer_txpay {c : RecConfig} {s : State} : (restartRecognizer c s).txpay = s.txpay := rfl
@[simp] theorem restartRecognizer_txpayLen {c : RecConfig} {s : State} : (restartRecognizer c s).txpayLen = s.txpayLen := rfl
@[simp] theorem restartRecognizer_txbuf {c : RecConfig} {s : State} : (restartRecognizer c s).txbuf = s.txbuf := rfl
@[simp] theorem restartRecognizer_txLen {c : RecConfig} {s : State} : (restartRecognizer c s).txLen = s.txLen := rfl
@[simp] theorem restartRecognizer_env {c : RecConfig} {s : State} : (restartRecognizer c s).env = s.env := rfl

/-! ### setPhase -/
@[simp] theorem setPhase_ns {p : Phase} {s : State} : (setPhase p s).ns = s.ns := rfl
@[simp] theorem setPhase_nr {p : Phase} {s : State} : (setPhase p s).nr = s.nr := rfl
@[simp] theorem setPhase_retry {p : Phase} {s : State} : (setPhase p s).retry = s.retry := rfl
@[simp] theorem setPhase_timer {p : Phase} {s : State} : (setPhase p s).timer = s.timer := rfl
@[simp] theorem setPhase_phase {p : Phase} {s : State} : (setPhase p s).phase = p := rfl
@[simp] theorem setPhase_op {p : Phase} {s : State} : (setPhase p s).op = s.op := rfl
@[simp] theorem setPhase_busy {p : Phase} {s : State} : (setPhase p s).busy = s.busy := rfl
@[simp] theorem setPhase_session {p : Phase} {s : State} : (setPhase p s).session = s.session := rfl
@[simp] theorem setPhase_result {p : Phase} {s : State} : (setPhase p s).result = s.result := rfl
@[simp] theorem setPhase_cfg {p : Phase} {s : State} : (setPhase p s).cfg = s.cfg := rfl
@[simp] theorem setPhase_recog {p : Phase} {s : State} : (setPhase p s).recog = s.recog := rfl
@[simp] theorem setPhase_txpay {p : Phase} {s : State} : (setPhase p s).txpay = s.txpay := rfl
@[simp] theorem setPhase_txpayLen {p : Phase} {s : State} : (setPhase p s).txpayLen = s.txpayLen := rfl
@[simp] theorem setPhase_txbuf {p : Phase} {s : State} : (setPhase p s).txbuf = s.txbuf := rfl
@[simp] theorem setPhase_txLen {p : Phase} {s : State} : (setPhase p s).txLen = s.txLen := rfl
@[simp] theorem setPhase_env {p : Phase} {s : State} : (setPhase p s).env = s.env := rfl

/-! ### loadRetry -/
@[simp] theorem loadRetry_ns {s : State} : (loadRetry s).ns = s.ns := rfl
@[simp] theorem loadRetry_nr {s : State} : (loadRetry s).nr = s.nr := rfl
@[simp] theorem loadRetry_retry {s : State} : (loadRetry s).retry = s.cfg.maxRetries := rfl
@[simp] theorem loadRetry_timer {s : State} : (loadRetry s).timer = s.timer := rfl
@[simp] theorem loadRetry_phase {s : State} : (loadRetry s).phase = s.phase := rfl
@[simp] theorem loadRetry_op {s : State} : (loadRetry s).op = s.op := rfl
@[simp] theorem loadRetry_busy {s : State} : (loadRetry s).busy = s.busy := rfl
@[simp] theorem loadRetry_session {s : State} : (loadRetry s).session = s.session := rfl
@[simp] theorem loadRetry_result {s : State} : (loadRetry s).result = s.result := rfl
@[simp] theorem loadRetry_cfg {s : State} : (loadRetry s).cfg = s.cfg := rfl
@[simp] theorem loadRetry_recog {s : State} : (loadRetry s).recog = s.recog := rfl
@[simp] theorem loadRetry_txpay {s : State} : (loadRetry s).txpay = s.txpay := rfl
@[simp] theorem loadRetry_txpayLen {s : State} : (loadRetry s).txpayLen = s.txpayLen := rfl
@[simp] theorem loadRetry_txbuf {s : State} : (loadRetry s).txbuf = s.txbuf := rfl
@[simp] theorem loadRetry_txLen {s : State} : (loadRetry s).txLen = s.txLen := rfl
@[simp] theorem loadRetry_env {s : State} : (loadRetry s).env = s.env := rfl

/-! ### setSession -/
@[simp] theorem setSession_ns {v : Session} {s : State} : (setSession v s).ns = s.ns := rfl
@[simp] theorem setSession_nr {v : Session} {s : State} : (setSession v s).nr = s.nr := rfl
@[simp] theorem setSession_retry {v : Session} {s : State} : (setSession v s).retry = s.retry := rfl
@[simp] theorem setSession_timer {v : Session} {s : State} : (setSession v s).timer = s.timer := rfl
@[simp] theorem setSession_phase {v : Session} {s : State} : (setSession v s).phase = s.phase := rfl
@[simp] theorem setSession_op {v : Session} {s : State} : (setSession v s).op = s.op := rfl
@[simp] theorem setSession_busy {v : Session} {s : State} : (setSession v s).busy = s.busy := rfl
@[simp] theorem setSession_session {v : Session} {s : State} : (setSession v s).session = v := rfl
@[simp] theorem setSession_result {v : Session} {s : State} : (setSession v s).result = s.result := rfl
@[simp] theorem setSession_cfg {v : Session} {s : State} : (setSession v s).cfg = s.cfg := rfl
@[simp] theorem setSession_recog {v : Session} {s : State} : (setSession v s).recog = s.recog := rfl
@[simp] theorem setSession_txpay {v : Session} {s : State} : (setSession v s).txpay = s.txpay := rfl
@[simp] theorem setSession_txpayLen {v : Session} {s : State} : (setSession v s).txpayLen = s.txpayLen := rfl
@[simp] theorem setSession_txbuf {v : Session} {s : State} : (setSession v s).txbuf = s.txbuf := rfl
@[simp] theorem setSession_txLen {v : Session} {s : State} : (setSession v s).txLen = s.txLen := rfl
@[simp] theorem setSession_env {v : Session} {s : State} : (setSession v s).env = s.env := rfl

/-! ### arm -/
@[simp] theorem arm_ns {s : State} : (arm s).ns = s.ns := rfl
@[simp] theorem arm_nr {s : State} : (arm s).nr = s.nr := rfl
@[simp] theorem arm_retry {s : State} : (arm s).retry = s.retry := rfl
@[simp] theorem arm_timer {s : State} : (arm s).timer = { count := timerLoad s.cfg.timeout, armed := true, alarm := false } := rfl
@[simp] theorem arm_phase {s : State} : (arm s).phase = s.phase := rfl
@[simp] theorem arm_op {s : State} : (arm s).op = s.op := rfl
@[simp] theorem arm_busy {s : State} : (arm s).busy = s.busy := rfl
@[simp] theorem arm_session {s : State} : (arm s).session = s.session := rfl
@[simp] theorem arm_result {s : State} : (arm s).result = s.result := rfl
@[simp] theorem arm_cfg {s : State} : (arm s).cfg = s.cfg := rfl
@[simp] theorem arm_recog {s : State} : (arm s).recog = s.recog := rfl
@[simp] theorem arm_txpay {s : State} : (arm s).txpay = s.txpay := rfl
@[simp] theorem arm_txpayLen {s : State} : (arm s).txpayLen = s.txpayLen := rfl
@[simp] theorem arm_txbuf {s : State} : (arm s).txbuf = s.txbuf := rfl
@[simp] theorem arm_txLen {s : State} : (arm s).txLen = s.txLen := rfl
@[simp] theorem arm_env {s : State} : (arm s).env = s.env := rfl

/-! ### disarm -/
@[simp] theorem disarm_ns {s : State} : (disarm s).ns = s.ns := rfl
@[simp] theorem disarm_nr {s : State} : (disarm s).nr = s.nr := rfl
@[simp] theorem disarm_retry {s : State} : (disarm s).retry = s.retry := rfl
@[simp] theorem disarm_timer {s : State} : (disarm s).timer = { s.timer with armed := false, alarm := false } := rfl
@[simp] theorem disarm_phase {s : State} : (disarm s).phase = s.phase := rfl
@[simp] theorem disarm_op {s : State} : (disarm s).op = s.op := rfl
@[simp] theorem disarm_busy {s : State} : (disarm s).busy = s.busy := rfl
@[simp] theorem disarm_session {s : State} : (disarm s).session = s.session := rfl
@[simp] theorem disarm_result {s : State} : (disarm s).result = s.result := rfl
@[simp] theorem disarm_cfg {s : State} : (disarm s).cfg = s.cfg := rfl
@[simp] theorem disarm_recog {s : State} : (disarm s).recog = s.recog := rfl
@[simp] theorem disarm_txpay {s : State} : (disarm s).txpay = s.txpay := rfl
@[simp] theorem disarm_txpayLen {s : State} : (disarm s).txpayLen = s.txpayLen := rfl
@[simp] theorem disarm_txbuf {s : State} : (disarm s).txbuf = s.txbuf := rfl
@[simp] theorem disarm_txLen {s : State} : (disarm s).txLen = s.txLen := rfl
@[simp] theorem disarm_env {s : State} : (disarm s).env = s.env := rfl

/-! ### alarmFires -/
@[simp] theorem alarmFires_ns {s : State} : (alarmFires s).ns = s.ns := rfl
@[simp] theorem alarmFires_nr {s : State} : (alarmFires s).nr = s.nr := rfl
@[simp] theorem alarmFires_retry {s : State} : (alarmFires s).retry = s.retry := rfl
@[simp] theorem alarmFires_timer {s : State} : (alarmFires s).timer = { s.timer with armed := false, alarm := true } := rfl
@[simp] theorem alarmFires_phase {s : State} : (alarmFires s).phase = s.phase := rfl
@[simp] theorem alarmFires_op {s : State} : (alarmFires s).op = s.op := rfl
@[simp] theorem alarmFires_busy {s : State} : (alarmFires s).busy = s.busy := rfl
@[simp] theorem alarmFires_session {s : State} : (alarmFires s).session = s.session := rfl
@[simp] theorem alarmFires_result {s : State} : (alarmFires s).result = s.result := rfl
@[simp] theorem alarmFires_cfg {s : State} : (alarmFires s).cfg = s.cfg := rfl
@[simp] theorem alarmFires_recog {s : State} : (alarmFires s).recog = s.recog := rfl
@[simp] theorem alarmFires_txpay {s : State} : (alarmFires s).txpay = s.txpay := rfl
@[simp] theorem alarmFires_txpayLen {s : State} : (alarmFires s).txpayLen = s.txpayLen := rfl
@[simp] theorem alarmFires_txbuf {s : State} : (alarmFires s).txbuf = s.txbuf := rfl
@[simp] theorem alarmFires_txLen {s : State} : (alarmFires s).txLen = s.txLen := rfl
@[simp] theorem alarmFires_env {s : State} : (alarmFires s).env = s.env := rfl

/-! ### clearAlarm -/
@[simp] theorem clearAlarm_ns {s : State} : (clearAlarm s).ns = s.ns := rfl
@[simp] theorem clearAlarm_nr {s : State} : (clearAlarm s).nr = s.nr := rfl
@[simp] theorem clearAlarm_retry {s : State} : (clearAlarm s).retry = s.retry := rfl
@[simp] theorem clearAlarm_timer {s : State} : (clearAlarm s).timer = { s.timer with alarm := false } := rfl
@[simp] theorem clearAlarm_phase {s : State} : (clearAlarm s).phase = s.phase := rfl
@[simp] theorem clearAlarm_op {s : State} : (clearAlarm s).op = s.op := rfl
@[simp] theorem clearAlarm_busy {s : State} : (clearAlarm s).busy = s.busy := rfl
@[simp] theorem clearAlarm_session {s : State} : (clearAlarm s).session = s.session := rfl
@[simp] theorem clearAlarm_result {s : State} : (clearAlarm s).result = s.result := rfl
@[simp] theorem clearAlarm_cfg {s : State} : (clearAlarm s).cfg = s.cfg := rfl
@[simp] theorem clearAlarm_recog {s : State} : (clearAlarm s).recog = s.recog := rfl
@[simp] theorem clearAlarm_txpay {s : State} : (clearAlarm s).txpay = s.txpay := rfl
@[simp] theorem clearAlarm_txpayLen {s : State} : (clearAlarm s).txpayLen = s.txpayLen := rfl
@[simp] theorem clearAlarm_txbuf {s : State} : (clearAlarm s).txbuf = s.txbuf := rfl
@[simp] theorem clearAlarm_txLen {s : State} : (clearAlarm s).txLen = s.txLen := rfl
@[simp] theorem clearAlarm_env {s : State} : (clearAlarm s).env = s.env := rfl

/-! ### withInputs -/
@[simp] theorem withInputs_ns {is : List Input} {s : State} : (withInputs is s).ns = s.ns := rfl
@[simp] theorem withInputs_nr {is : List Input} {s : State} : (withInputs is s).nr = s.nr := rfl
@[simp] theorem withInputs_retry {is : List Input} {s : State} : (withInputs is s).retry = s.retry := rfl
@[simp] theorem withInputs_timer {is : List Input} {s : State} : (withInputs is s).timer = s.timer := rfl
@[simp] theorem withInputs_phase {is : List Input} {s : State} : (withInputs is s).phase = s.phase := rfl
@[simp] theorem withInputs_op {is : List Input} {s : State} : (withInputs is s).op = s.op := rfl
@[simp] theorem withInputs_busy {is : List Input} {s : State} : (withInputs is s).busy = s.busy := rfl
@[simp] theorem withInputs_session {is : List Input} {s : State} : (withInputs is s).session = s.session := rfl
@[simp] theorem withInputs_result {is : List Input} {s : State} : (withInputs is s).result = s.result := rfl
@[simp] theorem withInputs_cfg {is : List Input} {s : State} : (withInputs is s).cfg = s.cfg := rfl
@[simp] theorem withInputs_recog {is : List Input} {s : State} : (withInputs is s).recog = s.recog := rfl
@[simp] theorem withInputs_txpay {is : List Input} {s : State} : (withInputs is s).txpay = s.txpay := rfl
@[simp] theorem withInputs_txpayLen {is : List Input} {s : State} : (withInputs is s).txpayLen = s.txpayLen := rfl
@[simp] theorem withInputs_txbuf {is : List Input} {s : State} : (withInputs is s).txbuf = s.txbuf := rfl
@[simp] theorem withInputs_txLen {is : List Input} {s : State} : (withInputs is s).txLen = s.txLen := rfl
@[simp] theorem withInputs_env {is : List Input} {s : State} : (withInputs is s).env = { s.env with inputs := is } := rfl

/-! ### moveEnv -/
@[simp] theorem moveEnv_ns {f : Env → Env} {s : State} : (moveEnv f s).ns = s.ns := rfl
@[simp] theorem moveEnv_nr {f : Env → Env} {s : State} : (moveEnv f s).nr = s.nr := rfl
@[simp] theorem moveEnv_retry {f : Env → Env} {s : State} : (moveEnv f s).retry = s.retry := rfl
@[simp] theorem moveEnv_timer {f : Env → Env} {s : State} : (moveEnv f s).timer = s.timer := rfl
@[simp] theorem moveEnv_phase {f : Env → Env} {s : State} : (moveEnv f s).phase = s.phase := rfl
@[simp] theorem moveEnv_op {f : Env → Env} {s : State} : (moveEnv f s).op = s.op := rfl
@[simp] theorem moveEnv_busy {f : Env → Env} {s : State} : (moveEnv f s).busy = s.busy := rfl
@[simp] theorem moveEnv_session {f : Env → Env} {s : State} : (moveEnv f s).session = s.session := rfl
@[simp] theorem moveEnv_result {f : Env → Env} {s : State} : (moveEnv f s).result = s.result := rfl
@[simp] theorem moveEnv_cfg {f : Env → Env} {s : State} : (moveEnv f s).cfg = s.cfg := rfl
@[simp] theorem moveEnv_recog {f : Env → Env} {s : State} : (moveEnv f s).recog = s.recog := rfl
@[simp] theorem moveEnv_txpay {f : Env → Env} {s : State} : (moveEnv f s).txpay = s.txpay := rfl
@[simp] theorem moveEnv_txpayLen {f : Env → Env} {s : State} : (moveEnv f s).txpayLen = s.txpayLen := rfl
@[simp] theorem moveEnv_txbuf {f : Env → Env} {s : State} : (moveEnv f s).txbuf = s.txbuf := rfl
@[simp] theorem moveEnv_txLen {f : Env → Env} {s : State} : (moveEnv f s).txLen = s.txLen := rfl
@[simp] theorem moveEnv_env {f : Env → Env} {s : State} : (moveEnv f s).env = f s.env := rfl

/-! ### Recognizer.restart and Recognizer.goTo -/
@[simp] theorem Recognizer.restart_rxs {c : RecConfig} {r : Recognizer} : (r.restart c).rxs = .idle := rfl
@[simp] theorem Recognizer.restart_cLatch {c : RecConfig} {r : Recognizer} : (r.restart c).cLatch = 0x00#8 := rfl
@[simp] theorem Recognizer.restart_escPend {c : RecConfig} {r : Recognizer} : (r.restart c).escPend = false := rfl
@[simp] theorem Recognizer.restart_rxLen {c : RecConfig} {r : Recognizer} : (r.restart c).rxLen = 0#12 := rfl
@[simp] theorem Recognizer.restart_conf {c : RecConfig} {r : Recognizer} : (r.restart c).conf = c := rfl
@[simp] theorem Recognizer.restart_rxbuf {c : RecConfig} {r : Recognizer} : (r.restart c).rxbuf = r.rxbuf := rfl
@[simp] theorem Recognizer.goTo_rxs {v : Rxs} {r : Recognizer} : (r.goTo v).rxs = v := rfl
@[simp] theorem Recognizer.goTo_cLatch {v : Rxs} {r : Recognizer} : (r.goTo v).cLatch = r.cLatch := rfl
@[simp] theorem Recognizer.goTo_escPend {v : Rxs} {r : Recognizer} : (r.goTo v).escPend = r.escPend := rfl
@[simp] theorem Recognizer.goTo_rxLen {v : Rxs} {r : Recognizer} : (r.goTo v).rxLen = r.rxLen := rfl
@[simp] theorem Recognizer.goTo_conf {v : Rxs} {r : Recognizer} : (r.goTo v).conf = r.conf := rfl
@[simp] theorem Recognizer.goTo_rxbuf {v : Rxs} {r : Recognizer} : (r.goTo v).rxbuf = r.rxbuf := rfl

end Sys2Proof.Machine
end

