-- ==== Sys2Proof/Laws/Memory.lean ====
section
/-! SUPPORT. The laws of the byte buffers: reading after writing, what a write leaves alone, and the canonical form. -/

namespace Sys2Proof.Machine

theorem Memory.read_erase_self (m : Memory) (i : Nat) : Memory.read (Memory.erase m i) i = Memory.blank := by
  induction m with
  | nil => rfl
  | cons c m ih =>
    obtain ⟨k, v⟩ := c
    by_cases h : k = i <;> simp_all [Memory.erase, Memory.read]

theorem Memory.read_erase_other (m : Memory) {i j : Nat} (hij : j ≠ i) :
    Memory.read (Memory.erase m i) j = Memory.read m j := by
  induction m with
  | nil => rfl
  | cons c m ih =>
    obtain ⟨k, v⟩ := c
    by_cases h : k = i
    · subst h
      have : ¬ k = j := fun e => hij e.symm
      simp_all [Memory.erase, Memory.read]
    · by_cases h' : k = j <;> simp_all [Memory.erase, Memory.read]

theorem Memory.read_place_self (i : Nat) (b : Byte) (m : Memory) (h : ∀ c ∈ m, c.1 ≠ i) :
    Memory.read (Memory.place i b m) i = b := by
  induction m with
  | nil => simp [Memory.place, Memory.read]
  | cons c m ih =>
    obtain ⟨k, v⟩ := c
    have hk : ¬ k = i := h (k, v) (by simp)
    by_cases hlt : i < k
    · simp [Memory.place, Memory.read, hlt]
    · simp [Memory.place, Memory.read, hlt, hk, ih (fun c hc => h c (by simp [hc]))]

theorem Memory.read_place_other (i : Nat) (b : Byte) (m : Memory) {j : Nat} (hij : j ≠ i) :
    Memory.read (Memory.place i b m) j = Memory.read m j := by
  have hij' : ¬ i = j := fun e => hij e.symm
  induction m with
  | nil => simp [Memory.place, Memory.read, hij']
  | cons c m ih =>
    obtain ⟨k, v⟩ := c
    by_cases hlt : i < k
    · simp [Memory.place, Memory.read, hlt, hij']
    · by_cases h' : k = j
      · subst h'; simp [Memory.place, Memory.read, hlt]
      · simp [Memory.place, Memory.read, hlt, h', ih]

theorem Memory.erase_ne (m : Memory) (i : Nat) : ∀ c ∈ Memory.erase m i, c.1 ≠ i := by
  intro c hc
  simpa [Memory.erase] using (List.mem_filter.mp hc).2

/-- A read after a write to the same index gives the byte written. -/
@[simp] theorem Memory.read_write_self (m : Memory) (i : Nat) (b : Byte) :
    Memory.read (Memory.write m i b) i = b := by
  unfold Memory.write
  split
  · next h => rw [Memory.read_erase_self, h]
  · exact Memory.read_place_self i b _ (Memory.erase_ne m i)

/-- A write leaves every other index alone. -/
theorem Memory.read_write_other (m : Memory) (b : Byte) {i j : Nat} (hij : j ≠ i) :
    Memory.read (Memory.write m i b) j = Memory.read m j := by
  unfold Memory.write
  split
  · exact Memory.read_erase_other m hij
  · rw [Memory.read_place_other i b _ hij, Memory.read_erase_other m hij]

/-- Everything a run of writes can do, one index at a time. -/
theorem Memory.read_writeList (m : Memory) (i : Nat) (bs : List Byte) (j : Nat) :
    Memory.read (Memory.writeList m i bs) j
      = if i ≤ j ∧ j < i + bs.length then bs.getD (j - i) Memory.blank else Memory.read m j := by
  induction bs generalizing m i with
  | nil => simp [Memory.writeList]
  | cons b bs ih =>
    rw [Memory.writeList, ih]
    by_cases h1 : j = i
    · subst h1; simp
    · by_cases h2 : i + 1 ≤ j ∧ j < i + 1 + bs.length
      · have h3 : i ≤ j ∧ j < i + (b :: bs).length := by simp only [List.length_cons]; omega
        have h4 : j - i = (j - (i + 1)) + 1 := by omega
        rw [if_pos h2, if_pos h3, h4, List.getD_cons_succ]
      · have h3 : ¬ (i ≤ j ∧ j < i + (b :: bs).length) := by simp only [List.length_cons]; omega
        rw [if_neg h2, if_neg h3, Memory.read_write_other m b h1]

theorem Memory.writeList_append (m : Memory) (i : Nat) (bs cs : List Byte) :
    Memory.writeList m i (bs ++ cs) = Memory.writeList (Memory.writeList m i bs) (i + bs.length) cs := by
  induction bs generalizing m i with
  | nil => rfl
  | cons b bs ih =>
    simp only [List.cons_append, Memory.writeList, ih, List.length_cons]
    congr 1; omega

@[simp] theorem Memory.firstBytes_length (m : Memory) (n : Nat) : (Memory.firstBytes m n).length = n := by
  simp [Memory.firstBytes]

theorem Memory.firstBytes_succ (m : Memory) (n : Nat) :
    Memory.firstBytes m (n + 1) = Memory.firstBytes m n ++ [Memory.read m n] := by
  simp [Memory.firstBytes, List.range_succ]

/-- What was written from index 0 on is read back. -/
@[simp] theorem Memory.firstBytes_writeList (m : Memory) (bs : List Byte) :
    Memory.firstBytes (Memory.writeList m 0 bs) bs.length = bs := by
  apply List.ext_getElem
  · simp
  · intro k h1 h2
    simp [Memory.firstBytes, Memory.read_writeList, h2, List.getD_eq_getElem?_getD]

theorem Memory.firstBytes_writeList_take (m : Memory) (bs : List Byte) (n : Nat) (h : n ≤ bs.length) :
    Memory.firstBytes (Memory.writeList m 0 bs) n = bs.take n := by
  apply List.ext_getElem
  · simp [h]
  · intro k h1 h2
    have h3 : k < bs.length := by simp at h1; omega
    simp [Memory.firstBytes, Memory.read_writeList, h3, List.getD_eq_getElem?_getD]

theorem Memory.erase_wf {m : Memory} (i : Nat) (h : Memory.wf m) : Memory.wf (Memory.erase m i) :=
  ⟨h.1.filter _, fun c hc => h.2 c (List.mem_of_mem_filter hc)⟩

theorem Memory.mem_place {i : Nat} {b : Byte} {m : Memory} {c : Host.Cell} (h : c ∈ Memory.place i b m) :
    c = (i, b) ∨ c ∈ m := by
  induction m with
  | nil => simpa [Memory.place] using h
  | cons d m ih =>
    obtain ⟨k, v⟩ := d
    by_cases hlt : i < k
    · simp only [Memory.place, hlt, if_true, List.mem_cons] at h
      simpa using h
    · simp only [Memory.place, hlt, if_false, List.mem_cons] at h
      rcases h with h | h
      · exact .inr (by simp [h])
      · rcases ih h with h | h
        · exact .inl h
        · exact .inr (by simp [h])

theorem Memory.place_wf {i : Nat} {b : Byte} {m : Memory} (hb : b ≠ Memory.blank) (h : Memory.wf m)
    (hi : ∀ c ∈ m, c.1 ≠ i) : Memory.wf (Memory.place i b m) := by
  refine ⟨?_, fun c hc => ?_⟩
  · induction m with
    | nil => simp [Memory.place]
    | cons d m ih =>
      obtain ⟨k, v⟩ := d
      have hk : k ≠ i := hi (k, v) (by simp)
      have hs := List.pairwise_cons.mp h.1
      by_cases hlt : i < k
      · simp only [Memory.place, hlt, if_true]
        refine List.pairwise_cons.mpr ⟨fun c hc => ?_, h.1⟩
        rcases List.mem_cons.mp hc with hc | hc
        · simpa [hc] using hlt
        · exact lt_trans hlt (hs.1 c hc)
      · simp only [Memory.place, hlt, if_false]
        refine List.pairwise_cons.mpr ⟨fun c hc => ?_, ih ⟨hs.2, fun c hc => h.2 c (by simp [hc])⟩
          (fun c hc => hi c (by simp [hc]))⟩
        rcases Memory.mem_place hc with hc | hc
        · simp only [hc]; omega
        · exact hs.1 c hc
  · rcases Memory.mem_place hc with hc | hc
    · simpa [hc] using hb
    · exact h.2 c hc

/-- A write keeps the canonical form. -/
theorem Memory.write_wf {m : Memory} (i : Nat) (b : Byte) (h : Memory.wf m) : Memory.wf (Memory.write m i b) := by
  unfold Memory.write
  split
  · exact Memory.erase_wf i h
  · next hb => exact Memory.place_wf hb (Memory.erase_wf i h) (Memory.erase_ne m i)

/-- A run of writes keeps the canonical form. -/
theorem Memory.writeList_wf {m : Memory} (i : Nat) (bs : List Byte) (h : Memory.wf m) :
    Memory.wf (Memory.writeList m i bs) := by
  induction bs generalizing m i with
  | nil => exact h
  | cons b bs ih => exact ih (i + 1) (Memory.write_wf i b h)

theorem Memory.nil_wf : Memory.wf [] := by simp [Memory.wf]

end Sys2Proof.Machine
end

