-- ==== Sys2Proof/Laws/Ops.lean ====
section
/-! SUPPORT. One lemma per shared operation: the state it leaves, written out whole. -/

namespace Sys2Proof.Machine

/-- The frame just built is the frame the shim gets (R62, R117, R118). -/
theorem wireOperand_loadTxbuf {bs : List Byte} {s : State} (h : bs.length < 4096) : wireOperand (loadTxbuf bs s) = bs := by
  have : (BitVec.ofNat 12 bs.length).toNat = bs.length := by simp; omega
  simp [wireOperand, loadTxbuf, this]

theorem infoFrame_length_lt (a : Byte) (sb : Bit) {p : List Byte} (h : p.length ≤ Config.maxPayload) :
    (infoFrame a sb p).length < 4096 := by
  have h1 := infoFrame_length_le a sb p h
  have h2 : Config.txbufCap = 2007 := rfl
  omega

theorem payloadOperand_length (s : State) : (payloadOperand s).length = s.txpayLen.toNat := by simp [payloadOperand]

theorem startAttempt_eq (conf : RecConfig) (s : State) :
    startAttempt conf s =
      { s with
        phase := .awaitingResponse
        timer := { count := timerLoad s.cfg.timeout, armed := true, alarm := false }
        recog := { s.recog with conf := conf, rxs := .idle, cLatch := 0x00#8, escPend := false, rxLen := 0#12 }
        env := { s.env with
          outputs := s.env.outputs ++ [.tx (wireOperand s)]
          lineOut := s.env.lineOut ++ wireOperand s } } := rfl

theorem awaitCommand_eq (conf : RecConfig) (s : State) :
    awaitCommand conf s =
      { s with
        phase := .awaitingCommand
        recog := { s.recog with conf := conf, rxs := .idle, cLatch := 0x00#8, escPend := false, rxLen := 0#12 } } := rfl

theorem complete_eq (code : Code) (kind : Kind) (len : Len) (s : State) :
    complete code kind len s =
      { s with
        timer := { s.timer with armed := false, alarm := false }
        result := { code := code, kind := kind, len := len }
        phase := .ready
        busy := false
        env := { s.env with outputs := s.env.outputs ++ [.done code kind len] } } := rfl

theorem failHandshake_eq (s : State) :
    failHandshake s =
      { s with
        timer := { s.timer with armed := false, alarm := false }
        result := { code := .handshakeFailed, kind := .none, len := 0#12 }
        phase := .ready
        busy := false
        session := .closed
        env := { s.env with
          portOpen := false
          outputs := s.env.outputs ++ [.chanClose] ++ [.done .handshakeFailed .none 0#12] } } := rfl

theorem sendReply_eq (a c : Byte) (s : State) :
    sendReply a c s =
      { s with
        txbuf := Memory.writeList s.txbuf 0 (supFrame a c)
        txLen := 5#12
        env := { s.env with
          outputs := s.env.outputs ++ [.tx (supFrame a c)]
          lineOut := s.env.lineOut ++ supFrame a c } } := by
  have h : wireOperand (buildSup a c s) = supFrame a c := wireOperand_loadTxbuf (by simp)
  have h2 : sendReply a c s = sendTx (buildSup a c s) := rfl
  rw [h2]
  unfold sendTx
  rw [h]
  rfl

/-! ### The starts of the commands -/

/-- A handshake's first attempt or its failure, with the frame it sends (R201, R207). -/
theorem beginHandshake_eq (conf : RecConfig) (a c : Byte) (s : State) :
    beginHandshake conf (buildSup a c s) =
      if s.cfg.maxRetries = 0#8 then
        { s with
          retry := s.cfg.maxRetries
          txbuf := Memory.writeList s.txbuf 0 (supFrame a c)
          txLen := 5#12
          timer := { s.timer with armed := false, alarm := false }
          result := { code := .handshakeFailed, kind := .none, len := 0#12 }
          phase := .ready
          busy := false
          session := .closed
          env := { s.env with
            portOpen := false
            outputs := s.env.outputs ++ [.chanClose] ++ [.done .handshakeFailed .none 0#12] } }
      else
        { s with
          retry := s.cfg.maxRetries
          txbuf := Memory.writeList s.txbuf 0 (supFrame a c)
          txLen := 5#12
          phase := .awaitingResponse
          timer := { count := timerLoad s.cfg.timeout, armed := true, alarm := false }
          recog := { s.recog with conf := conf, rxs := .idle, cLatch := 0x00#8, escPend := false, rxLen := 0#12 }
          env := { s.env with
            outputs := s.env.outputs ++ [.tx (supFrame a c)]
            lineOut := s.env.lineOut ++ supFrame a c } } := by
  have hw : wireOperand (loadRetry (buildSup a c s)) = supFrame a c := wireOperand_loadTxbuf (s := s) (by simp)
  unfold beginHandshake
  by_cases h : s.cfg.maxRetries = 0#8
  · rw [if_pos h]
    have h' : (loadRetry (buildSup a c s)).retry = 0#8 := h
    simp only [h', if_true]
    rfl
  · rw [if_neg h]
    have h' : ¬ (loadRetry (buildSup a c s)).retry = 0#8 := h
    simp only [h', if_false]
    rw [startAttempt_eq, hw]
    rfl

/-- WRITE's first attempt or its failure (R161, R164). -/
theorem writeStart_eq (s : State) (h : s.txpayLen.toNat ≤ Config.maxPayload) :
    writeStart s =
      if s.cfg.maxRetries = 0#8 then
        { s with
          op := .writeCmd
          retry := s.cfg.maxRetries
          txbuf := Memory.writeList s.txbuf 0 (infoFrame Config.aTx s.ns (payloadOperand s))
          txLen := BitVec.ofNat 12 (infoFrame Config.aTx s.ns (payloadOperand s)).length
          timer := { s.timer with armed := false, alarm := false }
          result := { code := .maxRetriesExceeded, kind := .none, len := 0#12 }
          phase := .ready
          busy := false
          env := { s.env with outputs := s.env.outputs ++ [.done .maxRetriesExceeded .none 0#12] } }
      else
        { s with
          busy := true
          op := .writeCmd
          retry := s.cfg.maxRetries
          txbuf := Memory.writeList s.txbuf 0 (infoFrame Config.aTx s.ns (payloadOperand s))
          txLen := BitVec.ofNat 12 (infoFrame Config.aTx s.ns (payloadOperand s)).length
          phase := .awaitingResponse
          timer := { count := timerLoad s.cfg.timeout, armed := true, alarm := false }
          recog := { s.recog with conf := cfgAck s.ns, rxs := .idle, cLatch := 0x00#8, escPend := false, rxLen := 0#12 }
          env := { s.env with
            outputs := s.env.outputs ++ [.tx (infoFrame Config.aTx s.ns (payloadOperand s))]
            lineOut := s.env.lineOut ++ infoFrame Config.aTx s.ns (payloadOperand s) } } := by
  have hl : (infoFrame Config.aTx s.ns (payloadOperand s)).length < 4096 :=
    infoFrame_length_lt _ _ (by rw [payloadOperand_length]; exact h)
  have hw : wireOperand (loadRetry (buildInfo Config.aTx s.ns (payloadOperand s)
      (setPhase .awaitingSend (acceptCommand .writeCmd s)))) = infoFrame Config.aTx s.ns (payloadOperand s) :=
    wireOperand_loadTxbuf (s := setPhase .awaitingSend (acceptCommand .writeCmd s)) hl
  unfold writeStart
  by_cases hr : s.cfg.maxRetries = 0#8
  · rw [if_pos hr]
    have h' : (loadRetry (buildInfo Config.aTx s.ns (payloadOperand s)
      (setPhase .awaitingSend (acceptCommand .writeCmd s)))).retry = 0#8 := hr
    simp only [h', if_true]
    rfl
  · rw [if_neg hr]
    have h' : ¬ (loadRetry (buildInfo Config.aTx s.ns (payloadOperand s)
      (setPhase .awaitingSend (acceptCommand .writeCmd s)))).retry = 0#8 := hr
    simp only [h', if_false]
    rw [startAttempt_eq, hw]
    rfl

/-- The Receiver's OPEN and CLOSE and the READ wait without sending (R181, R204, R211). -/
theorem readStart_eq (s : State) :
    readStart s =
      { s with
        busy := true
        op := .readCmd
        phase := .awaitingCommand
        recog := { s.recog with conf := cfgInfo, rxs := .idle, cLatch := 0x00#8, escPend := false, rxLen := 0#12 } } := rfl

theorem closeReceiver_eq (s : State) :
    closeReceiver s =
      { s with
        busy := true
        op := .closeCmd
        phase := .awaitingCommand
        recog := { s.recog with conf := cfgDiscCmd, rxs := .idle, cLatch := 0x00#8, escPend := false, rxLen := 0#12 } } := rfl

/-! ### The ends of the commands -/

theorem sessionOpens_eq (s : State) :
    sessionOpens s =
      { s with
        ns := 0#1
        nr := 0#1
        session := .opened
        timer := { s.timer with armed := false, alarm := false }
        result := { code := .ok, kind := .none, len := 0#12 }
        phase := .ready
        busy := false
        env := { s.env with outputs := s.env.outputs ++ [.done .ok .none 0#12] } } := rfl

theorem sessionCloses_eq (s : State) :
    sessionCloses s =
      { s with
        session := .closed
        timer := { s.timer with armed := false, alarm := false }
        result := { code := .ok, kind := .none, len := 0#12 }
        phase := .ready
        busy := false
        env := { s.env with portOpen := false, outputs := s.env.outputs ++ [.chanClose] ++ [.done .ok .none 0#12] } } := rfl

theorem openReceiverDone_eq (s : State) :
    openReceiverDone s =
      { s with
        txbuf := Memory.writeList s.txbuf 0 (supFrame Config.aTx Config.cUa)
        txLen := 5#12
        ns := 0#1
        nr := 0#1
        session := .opened
        timer := { s.timer with armed := false, alarm := false }
        result := { code := .ok, kind := .none, len := 0#12 }
        phase := .ready
        busy := false
        env := { s.env with
          outputs := s.env.outputs ++ [.tx (supFrame Config.aTx Config.cUa)] ++ [.done .ok .none 0#12]
          lineOut := s.env.lineOut ++ supFrame Config.aTx Config.cUa } } := by
  have h : openReceiverDone s = sessionOpens (sendReply Config.aTx Config.cUa s) := rfl
  rw [h, sendReply_eq]; rfl

theorem closeSenderDone_eq (s : State) :
    closeSenderDone s =
      { s with
        txbuf := Memory.writeList s.txbuf 0 (supFrame Config.aRx Config.cUa)
        txLen := 5#12
        session := .closed
        timer := { s.timer with armed := false, alarm := false }
        result := { code := .ok, kind := .none, len := 0#12 }
        phase := .ready
        busy := false
        env := { s.env with
          portOpen := false
          outputs := s.env.outputs ++ [.tx (supFrame Config.aRx Config.cUa)] ++ [.chanClose] ++ [.done .ok .none 0#12]
          lineOut := s.env.lineOut ++ supFrame Config.aRx Config.cUa } } := by
  have h : closeSenderDone s = sessionCloses (sendReply Config.aRx Config.cUa (disarm s)) := rfl
  rw [h, sendReply_eq]; rfl

theorem closeReceiverDone_eq (s : State) :
    closeReceiverDone s =
      { s with
        txbuf := Memory.writeList s.txbuf 0 (supFrame Config.aRx Config.cDisc)
        txLen := 5#12
        session := .closed
        timer := { s.timer with armed := false, alarm := false }
        result := { code := .ok, kind := .none, len := 0#12 }
        phase := .ready
        busy := false
        env := { s.env with
          portOpen := false
          outputs := s.env.outputs ++ [.tx (supFrame Config.aRx Config.cDisc)] ++ [.chanClose] ++ [.done .ok .none 0#12]
          lineOut := s.env.lineOut ++ supFrame Config.aRx Config.cDisc } } := by
  have h : closeReceiverDone s = sessionCloses (sendReply Config.aRx Config.cDisc s) := rfl
  rw [h, sendReply_eq]; rfl

theorem writeAccepted_eq (s : State) :
    writeAccepted s =
      { s with
        ns := flipBit s.ns
        timer := { s.timer with armed := false, alarm := false }
        result := { code := .ok, kind := .written, len := s.txLen }
        phase := .ready
        busy := false
        env := { s.env with outputs := s.env.outputs ++ [.done .ok .written s.txLen] } } := rfl

theorem writeFails_eq (s : State) :
    writeFails s =
      { s with
        timer := { s.timer with armed := false, alarm := false }
        result := { code := .maxRetriesExceeded, kind := .none, len := 0#12 }
        phase := .ready
        busy := false
        env := { s.env with outputs := s.env.outputs ++ [.done .maxRetriesExceeded .none 0#12] } } := rfl

theorem readAccepts_eq (s : State) :
    readAccepts s =
      { s with
        nr := flipBit s.nr
        txbuf := Memory.writeList s.txbuf 0 (supFrame Config.aTx (cRr (flipBit s.nr)))
        txLen := 5#12
        timer := { s.timer with armed := false, alarm := false }
        result := { code := .ok, kind := .delivered, len := s.recog.rxLen - 1#12 }
        phase := .ready
        busy := false
        env := { s.env with
          outputs := s.env.outputs ++ [.tx (supFrame Config.aTx (cRr (flipBit s.nr)))]
            ++ [.done .ok .delivered (s.recog.rxLen - 1#12)]
          lineOut := s.env.lineOut ++ supFrame Config.aTx (cRr (flipBit s.nr)) } } := by
  unfold readAccepts
  simp only [sendReply_eq]
  rfl

theorem readDuplicate_eq (s : State) :
    readDuplicate s =
      { s with
        txbuf := Memory.writeList s.txbuf 0 (supFrame Config.aTx (cRr s.nr))
        txLen := 5#12
        timer := { s.timer with armed := false, alarm := false }
        result := { code := .ok, kind := .duplicate, len := 0#12 }
        phase := .ready
        busy := false
        env := { s.env with
          outputs := s.env.outputs ++ [.tx (supFrame Config.aTx (cRr s.nr))] ++ [.done .ok .duplicate 0#12]
          lineOut := s.env.lineOut ++ supFrame Config.aTx (cRr s.nr) } } := by
  have h : readDuplicate s = complete .ok .duplicate 0#12 (sendReply Config.aTx (cRr s.nr) s) := rfl
  rw [h, sendReply_eq]; rfl

theorem readRejects_eq (s : State) :
    readRejects s =
      { s with
        txbuf := Memory.writeList s.txbuf 0 (supFrame Config.aTx (cRej s.nr))
        txLen := 5#12
        timer := { s.timer with armed := false, alarm := false }
        result := { code := .checksumMismatch, kind := .none, len := 0#12 }
        phase := .ready
        busy := false
        env := { s.env with
          outputs := s.env.outputs ++ [.tx (supFrame Config.aTx (cRej s.nr))] ++ [.done .checksumMismatch .none 0#12]
          lineOut := s.env.lineOut ++ supFrame Config.aTx (cRej s.nr) } } := by
  have h : readRejects s = raise .checksumMismatch (sendReply Config.aTx (cRej s.nr) s) := rfl
  rw [h, sendReply_eq]; rfl

end Sys2Proof.Machine
end

