-- ==== Sys2Proof/Laws/Recognizer.lean ====
section
/-! SUPPORT. Everything the recognizer can do: one lemma per state and byte, the four header bytes, whole frames accepted
and ignored, the body unit by unit, and the bounds every byte keeps. -/

namespace Sys2Proof.Machine

/-! ### Control bytes -/

/-- What R10 and R88 say of a control byte: neither it nor its checksum-1 is FLAG. -/
theorem control_facts (b : Byte) (h : (accBit b).isSome = true) :
    b ≠ Config.flag ∧ bcc1 Config.aTx b ≠ Config.flag ∧ bcc1 Config.aRx b ≠ Config.flag := by
  revert b; decide

theorem accepts_control {acc : BitVec 9} {b : Byte} (h : accepts acc b = true) : (accBit b).isSome = true := by
  unfold accepts at h
  split at h
  · next k hk => simp [hk]
  · simp at h

theorem accepts_flag (acc : BitVec 9) : accepts acc Config.flag = false := by
  have : accBit Config.flag = none := by decide
  simp [accepts, this]

theorem flag_ne_aTx : Config.flag ≠ Config.aTx := by decide
theorem flag_ne_aRx : Config.flag ≠ Config.aRx := by decide

theorem addr_byte_cases (a : Addr) : a.byte = Config.aTx ∨ a.byte = Config.aRx := by cases a <;> simp [Addr.byte]

theorem addr_ne_flag {x : Byte} (h : x = Config.aTx ∨ x = Config.aRx) : x ≠ Config.flag := by
  rcases h with rfl | rfl <;> decide

theorem bcc1_ne_flag {a c : Byte} (ha : a = Config.aTx ∨ a = Config.aRx) (hc : (accBit c).isSome = true) :
    bcc1 a c ≠ Config.flag := by
  have := control_facts c hc
  rcases ha with rfl | rfl
  · exact this.2.1
  · exact this.2.2

theorem control_ne_flag {c : Byte} (hc : (accBit c).isSome = true) : c ≠ Config.flag := (control_facts c hc).1

theorem accBit_cSet : accBit Config.cSet = some 0 := by decide
theorem accBit_cUa : accBit Config.cUa = some 1 := by decide
theorem accBit_cDisc : accBit Config.cDisc = some 2 := by decide
theorem accBit_cRr (n : Bit) : accBit (cRr n) = some (3 + n.toNat) := by revert n; decide
theorem accBit_cRej (n : Bit) : accBit (cRej n) = some (5 + n.toNat) := by revert n; decide
theorem accBit_cInfo (n : Bit) : accBit (cInfo n) = some (7 + n.toNat) := by revert n; decide

/-- The nine control bytes, and no others, have a bit in REC_ACC (R40, R86). -/
theorem accBit_isSome {c : Byte} (h : (accBit c).isSome = true) :
    c = Config.cSet ∨ c = Config.cUa ∨ c = Config.cDisc ∨ (∃ n, c = cRr n) ∨ (∃ n, c = cRej n) ∨ ∃ n, c = cInfo n := by
  revert c; decide

/-! ### Runs of bytes -/

@[simp] theorem Recognizer.takeAll_nil (r : Recognizer) : r.takeAll [] = r := rfl

@[simp] theorem Recognizer.takeAll_cons (b : Byte) (bs : List Byte) (r : Recognizer) :
    r.takeAll (b :: bs) = (r.take b).takeAll bs := rfl

theorem Recognizer.takeAll_append (xs ys : List Byte) (r : Recognizer) :
    r.takeAll (xs ++ ys) = (r.takeAll xs).takeAll ys := by
  simp [Recognizer.takeAll, List.foldl_append]

/-- The recognizer is not Done before any byte of a run, nor after its last. -/
def NeverDone : List Byte → Recognizer → Prop
  | [], r => r.rxs ≠ .done
  | b :: bs, r => r.rxs ≠ .done ∧ NeverDone bs (r.take b)

theorem NeverDone.start {bs : List Byte} {r : Recognizer} (h : NeverDone bs r) : r.rxs ≠ .done := by
  cases bs with
  | nil => exact h
  | cons b bs => exact h.1

theorem NeverDone.append {xs ys : List Byte} {r : Recognizer} (h1 : NeverDone xs r)
    (h2 : NeverDone ys (r.takeAll xs)) : NeverDone (xs ++ ys) r := by
  induction xs generalizing r with
  | nil => exact h2
  | cons b xs ih => exact ⟨h1.1, ih h1.2 h2⟩

theorem NeverDone.at {bs : List Byte} {r : Recognizer} (h : NeverDone bs r) (n : Nat) (hn : n ≤ bs.length) :
    (r.takeAll (bs.take n)).rxs ≠ .done := by
  induction bs generalizing r n with
  | nil => simpa [NeverDone] using h
  | cons b bs ih =>
    cases n with
    | zero => simpa using h.1
    | succ n => simpa using ih h.2 n (by simpa using hn)

/-! ### One byte -/

/-- A FLAG opens a new frame in every header state (R134, R147). -/
theorem Recognizer.take_flag {r : Recognizer} (h : HeaderState r) : r.take Config.flag = r.goTo .delimiterSeen := by
  have hA : (Config.flag == r.conf.expA) = false := by
    simp only [beq_eq_false_iff_ne]
    rcases h.expA with e | e <;> rw [e] <;> decide
  rcases h.rxs with hr | hr | hr | hr
  · simp [Recognizer.take, hr]
  · simp [Recognizer.take, hr, hA, Recognizer.expect]
  · simp [Recognizer.take, hr, accepts_flag, Recognizer.expect]
  · have hB : (Config.flag == bcc1 r.conf.expA r.cLatch) = false := by
      simp only [beq_eq_false_iff_ne]
      exact (bcc1_ne_flag h.expA (accepts_control (h.latched hr))).symm
    simp [Recognizer.take, hr, hB, Recognizer.expect]

theorem Recognizer.take_idle_skip {r : Recognizer} (h : r.rxs = .idle) {b : Byte} (hb : b ≠ Config.flag) :
    r.take b = r := by
  simp [Recognizer.take, h, hb]

/-- Without a FLAG nothing leaves Idle (R135). -/
theorem Recognizer.takeAll_idle {r : Recognizer} (h : r.rxs = .idle) {bs : List Byte} (hb : Config.flag ∉ bs) :
    r.takeAll bs = r ∧ NeverDone bs r := by
  induction bs with
  | nil => simp [NeverDone, h]
  | cons b bs ih =>
    simp only [List.mem_cons, not_or] at hb
    have h1 := Recognizer.take_idle_skip h (Ne.symm hb.1)
    simp only [Recognizer.takeAll_cons, NeverDone, h1, h]
    exact ⟨(ih hb.2).1, by simp, (ih hb.2).2⟩

/-! ### The header of a frame -/

/-- The header of a frame the configuration accepts leaves its control byte latched and checksum-1 verified (R136 to
R138). -/
theorem Recognizer.takeAll_header {r : Recognizer} (h : HeaderState r) {c : Byte} (hc : accepts r.conf.acc c = true) :
    r.takeAll [Config.flag, r.conf.expA, c, bcc1 r.conf.expA c] = Recognizer.headerDone { r with cLatch := c }
      ∧ NeverDone [Config.flag, r.conf.expA, c] r := by
  have h1 : (r.goTo .delimiterSeen).take r.conf.expA = r.goTo .addressSeen := by
    simp [Recognizer.take, Recognizer.goTo, Recognizer.expect]
  have h2 : (r.goTo .addressSeen).take c = { r with cLatch := c, rxs := .controlSeen } := by
    simp [Recognizer.take, Recognizer.goTo, Recognizer.expect, hc]
  have h3 : Recognizer.take (bcc1 r.conf.expA c) { r with cLatch := c, rxs := .controlSeen }
      = Recognizer.headerDone { r with cLatch := c } := by
    simp only [Recognizer.take, Recognizer.expect, beq_self_eq_true, if_true]
    cases hk : r.conf.kind <;> simp [Recognizer.headerDone, Recognizer.goTo, hk]
  have h0 : r.rxs ≠ .done := by rcases h.rxs with e | e | e | e <;> simp [e]
  refine ⟨by simp only [Recognizer.takeAll_cons, Recognizer.takeAll_nil, Recognizer.take_flag h, h1, h2, h3], ?_⟩
  simp only [NeverDone, Recognizer.take_flag h, h1, h2]
  exact ⟨h0, by simp [Recognizer.goTo], by simp [Recognizer.goTo], by simp⟩

/-- The header of a frame the configuration does not accept leaves the recognizer in Idle (R136, R137). -/
theorem Recognizer.takeAll_refused {r : Recognizer} (h : HeaderState r) {a c : Byte}
    (ha : a = Config.aTx ∨ a = Config.aRx) (hc : (accBit c).isSome = true)
    (hn : ¬ (a = r.conf.expA ∧ accepts r.conf.acc c = true)) :
    r.takeAll [Config.flag, a, c, bcc1 a c] = r.goTo .idle ∧ NeverDone [Config.flag, a, c, bcc1 a c] r := by
  have h0 : r.rxs ≠ .done := by rcases h.rxs with e | e | e | e <;> simp [e]
  have hidle : (r.goTo .idle).rxs = .idle := rfl
  have hcf := control_ne_flag hc
  have hbf := bcc1_ne_flag ha hc
  by_cases hA : a = r.conf.expA
  · have hC : accepts r.conf.acc c = false := by
      cases hh : accepts r.conf.acc c
      · rfl
      · exact absurd ⟨hA, hh⟩ hn
    have h1 : (r.goTo .delimiterSeen).take a = r.goTo .addressSeen := by
      simp [Recognizer.take, Recognizer.goTo, Recognizer.expect, hA]
    have h2 : (r.goTo .addressSeen).take c = r.goTo .idle := by
      simp [Recognizer.take, Recognizer.goTo, Recognizer.expect, hC, hcf]
    have h3 := Recognizer.take_idle_skip hidle hbf
    refine ⟨by simp only [Recognizer.takeAll_cons, Recognizer.takeAll_nil, Recognizer.take_flag h, h1, h2, h3], ?_⟩
    simp only [NeverDone, Recognizer.take_flag h, h1, h2, h3]
    exact ⟨h0, by simp [Recognizer.goTo], by simp [Recognizer.goTo], by simp [Recognizer.goTo], by simp [Recognizer.goTo]⟩
  · have haf := addr_ne_flag ha
    have h1 : (r.goTo .delimiterSeen).take a = r.goTo .idle := by
      simp [Recognizer.take, Recognizer.goTo, Recognizer.expect, hA, haf]
    have h2 := Recognizer.take_idle_skip hidle hcf
    have h3 := Recognizer.take_idle_skip hidle hbf
    refine ⟨by simp only [Recognizer.takeAll_cons, Recognizer.takeAll_nil, Recognizer.take_flag h, h1, h2, h3], ?_⟩
    simp only [NeverDone, Recognizer.take_flag h, h1, h2, h3]
    exact ⟨h0, by simp [Recognizer.goTo], by simp [Recognizer.goTo], by simp [Recognizer.goTo], by simp [Recognizer.goTo]⟩

theorem HeaderState.goTo_idle {r : Recognizer} (h : HeaderState r) : HeaderState (r.goTo .idle) :=
  ⟨.inl rfl, h.expA, by simp [Recognizer.goTo]⟩

theorem HeaderState.goTo_delimiterSeen {r : Recognizer} (h : HeaderState r) : HeaderState (r.goTo .delimiterSeen) :=
  ⟨.inr (.inl rfl), h.expA, by simp [Recognizer.goTo]⟩

/-! ### Supervisory frames -/

/-- A supervisory frame the configuration accepts is recognised at its last byte and not earlier (R139, R147). -/
theorem Recognizer.takeAll_supFrame {r : Recognizer} (h : HeaderState r) (hk : r.conf.kind = .sup) {c : Byte}
    (hc : accepts r.conf.acc c = true) :
    r.takeAll (supFrame r.conf.expA c) = { r with cLatch := c, rxs := .done }
      ∧ NeverDone [Config.flag, r.conf.expA, c, bcc1 r.conf.expA c] r := by
  have h1 := Recognizer.takeAll_header h hc
  have hd : Recognizer.headerDone { r with cLatch := c } = { r with cLatch := c, rxs := .checksumVerified } := by
    simp [Recognizer.headerDone, hk, Recognizer.goTo]
  constructor
  · have : supFrame r.conf.expA c = [Config.flag, r.conf.expA, c, bcc1 r.conf.expA c] ++ [Config.flag] := rfl
    rw [this, Recognizer.takeAll_append, h1.1, hd]
    simp [Recognizer.take, hk, Recognizer.goTo]
  · refine NeverDone.append (xs := [Config.flag, r.conf.expA, c]) (ys := [bcc1 r.conf.expA c]) h1.2 ?_
    refine ⟨h1.2.at 3 (by simp), ?_⟩
    have h2 := h1.1
    rw [show [Config.flag, r.conf.expA, c, bcc1 r.conf.expA c]
      = [Config.flag, r.conf.expA, c] ++ [bcc1 r.conf.expA c] from rfl, Recognizer.takeAll_append] at h2
    simp only [Recognizer.takeAll_cons, Recognizer.takeAll_nil] at h2 ⊢
    simp [NeverDone, h2, hd]

/-- A supervisory frame the configuration does not accept leaves only a FLAG seen (R97). -/
theorem Recognizer.takeAll_supFrame_ignored {r : Recognizer} (h : HeaderState r) {a c : Byte}
    (ha : a = Config.aTx ∨ a = Config.aRx) (hc : (accBit c).isSome = true)
    (hn : ¬ (a = r.conf.expA ∧ accepts r.conf.acc c = true)) :
    r.takeAll (supFrame a c) = r.goTo .delimiterSeen ∧ NeverDone (supFrame a c) r := by
  have h1 := Recognizer.takeAll_refused h ha hc hn
  have hs : supFrame a c = [Config.flag, a, c, bcc1 a c] ++ [Config.flag] := rfl
  have h2 : (r.goTo .idle).take Config.flag = r.goTo .delimiterSeen := by simp [Recognizer.take, Recognizer.goTo]
  constructor
  · rw [hs, Recognizer.takeAll_append, h1.1, Recognizer.takeAll_cons, h2, Recognizer.takeAll_nil]
  · rw [hs]
    refine h1.2.append ?_
    rw [h1.1]
    refine ⟨by simp [Recognizer.goTo], ?_⟩
    rw [h2]; simp [NeverDone, Recognizer.goTo]

/-! ### Information frames -/

/-- An information frame whose header the configuration does not accept is skipped (R97, R153). -/
theorem Recognizer.takeAll_infoWire_ignored {r : Recognizer} (h : HeaderState r) {a : Byte} {s : Bit} {w : List Byte}
    (ha : a = Config.aTx ∨ a = Config.aRx) (hw : Config.flag ∉ w)
    (hn : ¬ (a = r.conf.expA ∧ accepts r.conf.acc (cInfo s) = true)) :
    r.takeAll (infoWire a s w) = r.goTo .delimiterSeen ∧ NeverDone (infoWire a s w) r := by
  have hc : (accBit (cInfo s)).isSome = true := by simp [accBit_cInfo]
  have h1 := Recognizer.takeAll_refused h ha hc hn
  have h2 : (r.goTo .idle).take Config.flag = r.goTo .delimiterSeen := by simp [Recognizer.take, Recognizer.goTo]
  have h3 := Recognizer.takeAll_idle (r := r.goTo .idle) rfl hw
  constructor
  · rw [infoWire, Recognizer.takeAll_append, Recognizer.takeAll_append, h1.1, h3.1, Recognizer.takeAll_cons, h2,
      Recognizer.takeAll_nil]
  · rw [infoWire]
    refine (h1.2.append ?_).append ?_
    · rw [h1.1]; exact h3.2
    · rw [Recognizer.takeAll_append, h1.1, h3.1]
      refine ⟨by simp [Recognizer.goTo], ?_⟩
      rw [h2]; simp [NeverDone, Recognizer.goTo]

theorem len_add {n : Len} {k : Nat} (h : n.toNat + k ≤ Config.rxbufCap) :
    (n + BitVec.ofNat 12 k).toNat = n.toNat + k := by
  have : Config.rxbufCap = 1001 := rfl
  simp [BitVec.toNat_add]; omega

/-- One body unit appends its value (R140). -/
theorem Recognizer.takeAll_unit {r : Recognizer} (hx : r.rxs = .checksumVerified) (hk : r.conf.kind = .info)
    (he : r.escPend = false) {u : BodyUnit} (hu : u.wf = true) :
    r.takeAll u.bytes = r.append u.value := by
  cases u with
  | plain b =>
    obtain ⟨h1, h2⟩ := BodyUnit.wf_plain hu
    simp [BodyUnit.bytes, BodyUnit.value, Recognizer.take, hx, hk, Recognizer.takeBody, h1, h2, he]
  | escaped x =>
    have h1 := BodyUnit.wf_escaped hu
    have h3 : r.take Config.esc = { r with escPend := true } := by
      simp [Recognizer.take, hx, hk, Recognizer.takeBody, esc_ne_flag, he]
    have h4 : Recognizer.take x { r with escPend := true } = Recognizer.append (x ^^^ Config.xmask) { r with escPend := false } := by
      simp [Recognizer.take, hx, hk, Recognizer.takeBody, h1]
    have h5 : { r with escPend := false } = r := by cases r; simp_all
    simp only [BodyUnit.bytes, BodyUnit.value, Recognizer.takeAll_cons, Recognizer.takeAll_nil, h3, h4, h5]

theorem Recognizer.neverDone_unit {r : Recognizer} (hx : r.rxs = .checksumVerified) (hk : r.conf.kind = .info)
    (he : r.escPend = false) {u : BodyUnit} (hu : u.wf = true) : NeverDone u.bytes r := by
  have h0 : r.rxs ≠ .done := by simp [hx]
  have ha : ∀ (q : Recognizer) (v : Byte), q.rxs ≠ .done → (q.append v).rxs ≠ .done := by
    intro q v hq
    unfold Recognizer.append
    split <;> simp [hq]
  have hall := Recognizer.takeAll_unit hx hk he hu
  cases u with
  | plain b =>
    simp only [BodyUnit.bytes, Recognizer.takeAll_cons, Recognizer.takeAll_nil] at hall
    refine ⟨h0, ?_⟩
    rw [hall]; exact ha _ _ h0
  | escaped x =>
    have h3 : r.take Config.esc = { r with escPend := true } := by
      simp [Recognizer.take, hx, hk, Recognizer.takeBody, esc_ne_flag, he]
    simp only [BodyUnit.bytes, Recognizer.takeAll_cons, Recognizer.takeAll_nil] at hall
    refine ⟨h0, by rw [h3]; exact h0, ?_⟩
    rw [hall]; exact ha _ _ h0

/-- The body unit by unit: RXBUF holds the destuffed bytes, RXLEN counts them, ESC_PEND ends at 0 (R140). -/
theorem Recognizer.takeAll_body {us : List BodyUnit} (hu : us.all BodyUnit.wf = true) {r : Recognizer}
    (hx : r.rxs = .checksumVerified) (hk : r.conf.kind = .info) (he : r.escPend = false)
    (hl : r.rxLen.toNat + us.length ≤ Config.rxbufCap) :
    r.takeAll (bodyBytes us)
        = { r with rxLen := r.rxLen + BitVec.ofNat 12 us.length
                   rxbuf := Memory.writeList r.rxbuf r.rxLen.toNat (bodyValues us) }
      ∧ NeverDone (bodyBytes us) r := by
  induction us generalizing r with
  | nil => exact ⟨by cases r; simp [bodyValues, Memory.writeList], by simp [NeverDone, hx]⟩
  | cons u us ih =>
    simp only [List.all_cons, Bool.and_eq_true] at hu
    simp only [List.length_cons] at hl
    have hcap : Config.rxbufCap = 1001 := rfl
    have h1 := Recognizer.takeAll_unit hx hk he hu.1
    have hlt : r.rxLen.toNat < Config.rxbufCap := by omega
    have hn : (r.rxLen + 1#12).toNat = r.rxLen.toNat + 1 := by
      have := len_add (n := r.rxLen) (k := 1) (by omega); simpa using this
    have h2 : r.append u.value = { r with rxbuf := Memory.write r.rxbuf r.rxLen.toNat u.value, rxLen := r.rxLen + 1#12 } := by
      simp [Recognizer.append, hlt]
    have h3 := ih hu.2 (r := r.append u.value) (by rw [h2]; exact hx) (by rw [h2]; exact hk) (by rw [h2]; exact he)
      (by rw [h2]; simp only; omega)
    have h4 : r.rxLen + 1#12 + BitVec.ofNat 12 us.length = r.rxLen + BitVec.ofNat 12 (us.length + 1) := by
      apply BitVec.eq_of_toNat_eq; simp [BitVec.toNat_add]; omega
    constructor
    · rw [bodyBytes_cons, Recognizer.takeAll_append, h1, h3.1, h2]
      simp only [bodyValues_cons, Memory.writeList, List.length_cons, hn, h4]
    · rw [bodyBytes_cons]
      exact (Recognizer.neverDone_unit hx hk he hu.1).append (by rw [h1]; exact h3.2)

/-- A body of more than RXBUF_CAP destuffed bytes sends the recognizer back to Idle (R143). -/
theorem Recognizer.takeAll_overflow {us : List BodyUnit} (hu : us.all BodyUnit.wf = true) {r : Recognizer}
    (hx : r.rxs = .checksumVerified) (hk : r.conf.kind = .info) (he : r.escPend = false)
    (hr : r.rxLen.toNat ≤ Config.rxbufCap) (hl : Config.rxbufCap < r.rxLen.toNat + us.length) :
    (r.takeAll (bodyBytes us)).rxs = .idle ∧ (r.takeAll (bodyBytes us)).escPend = false
      ∧ (r.takeAll (bodyBytes us)).rxLen = 0#12 ∧ NeverDone (bodyBytes us) r := by
  induction us generalizing r with
  | nil => simp at hl; omega
  | cons u us ih =>
    simp only [List.all_cons, Bool.and_eq_true] at hu
    simp only [List.length_cons] at hl
    have hcap : Config.rxbufCap = 1001 := rfl
    have h1 := Recognizer.takeAll_unit hx hk he hu.1
    by_cases hlt : r.rxLen.toNat < Config.rxbufCap
    · have hn : (r.rxLen + 1#12).toNat = r.rxLen.toNat + 1 := by
        have := len_add (n := r.rxLen) (k := 1) (by omega); simpa using this
      have h2 : r.append u.value = { r with rxbuf := Memory.write r.rxbuf r.rxLen.toNat u.value, rxLen := r.rxLen + 1#12 } := by
        simp [Recognizer.append, hlt]
      have h3 := ih hu.2 (r := r.append u.value) (by rw [h2]; exact hx) (by rw [h2]; exact hk) (by rw [h2]; exact he)
        (by rw [h2]; simp only; omega) (by rw [h2]; simp only; omega)
      rw [bodyBytes_cons, Recognizer.takeAll_append, h1]
      exact ⟨h3.1, h3.2.1, h3.2.2.1, (Recognizer.neverDone_unit hx hk he hu.1).append (by rw [h1]; exact h3.2.2.2)⟩
    · have h2 : r.append u.value = { r with escPend := false, rxLen := 0#12, rxs := .idle } := by
        simp [Recognizer.append, hlt]
      have h3 := Recognizer.takeAll_idle (r := r.append u.value) (by rw [h2]) (flag_notMem_bodyBytes hu.2)
      rw [bodyBytes_cons, Recognizer.takeAll_append, h1, h3.1, h2]
      exact ⟨rfl, rfl, rfl, (Recognizer.neverDone_unit hx hk he hu.1).append (by rw [h1]; exact h3.2)⟩

/-- The recognizer after a well-formed information frame the configuration accepts (R144). -/
def Recognizer.withFrame (sb : Bit) (body : List Byte) (r : Recognizer) : Recognizer :=
  { r with rxs := .done, cLatch := cInfo sb, escPend := false, rxLen := BitVec.ofNat 12 body.length
           rxbuf := Memory.writeList r.rxbuf 0 body }

/-- An information frame the configuration accepts is recognised at its last byte and not earlier (R144, R147). -/
theorem Recognizer.takeAll_infoWire {r : Recognizer} (h : HeaderState r) (hk : r.conf.kind = .info) {sb : Bit}
    (hc : accepts r.conf.acc (cInfo sb) = true) {us : List BodyUnit} (hu : bodyWf us = true) :
    r.takeAll (infoWire r.conf.expA sb (bodyBytes us)) = r.withFrame sb (bodyValues us)
      ∧ NeverDone ([Config.flag, r.conf.expA, cInfo sb, bcc1 r.conf.expA (cInfo sb)] ++ bodyBytes us) r := by
  obtain ⟨hne, hlen, hall⟩ := bodyWf_spec hu
  have hcap : Config.rxbufCap = 1001 := rfl
  have h1 := Recognizer.takeAll_header h hc
  have hd : Recognizer.headerDone { r with cLatch := cInfo sb }
      = { r with cLatch := cInfo sb, rxs := .checksumVerified, rxLen := 0#12, escPend := false } := by
    simp [Recognizer.headerDone, hk]
  have h2 := Recognizer.takeAll_body hall (r := Recognizer.headerDone { r with cLatch := cInfo sb }) (by rw [hd])
    (by rw [hd]; exact hk) (by rw [hd]) (by rw [hd]; simpa using hlen)
  have hpos : 0 < us.length := List.length_pos_iff.mpr hne
  have hz : BitVec.ofNat 12 us.length ≠ 0#12 := by
    intro e
    have := congrArg BitVec.toNat e
    simp at this; omega
  constructor
  · rw [infoWire, Recognizer.takeAll_append, Recognizer.takeAll_append, h1.1, h2.1, hd]
    simp [Recognizer.take, hk, Recognizer.takeBody, hz, Recognizer.goTo, Recognizer.withFrame]
  · refine NeverDone.append ?_ (by rw [h1.1]; exact h2.2)
    refine NeverDone.append (xs := [Config.flag, r.conf.expA, cInfo sb]) (ys := [bcc1 r.conf.expA (cInfo sb)]) h1.2 ?_
    refine ⟨h1.2.at 3 (by simp), ?_⟩
    have h3 := h1.1
    rw [show [Config.flag, r.conf.expA, cInfo sb, bcc1 r.conf.expA (cInfo sb)]
      = [Config.flag, r.conf.expA, cInfo sb] ++ [bcc1 r.conf.expA (cInfo sb)] from rfl, Recognizer.takeAll_append] at h3
    simp only [Recognizer.takeAll_cons, Recognizer.takeAll_nil] at h3 ⊢
    simp [NeverDone, h3, hd]

/-! ### What every byte keeps -/

theorem Recognizer.append_conf (v : Byte) (r : Recognizer) : (r.append v).conf = r.conf := by
  unfold Recognizer.append; split <;> rfl

/-- A byte leaves the configuration alone (R131). -/
@[simp] theorem Recognizer.take_conf (b : Byte) (r : Recognizer) : (r.take b).conf = r.conf := by
  unfold Recognizer.take
  split
  · split <;> rfl
  · unfold Recognizer.expect; split
    · rfl
    · split <;> rfl
  · unfold Recognizer.expect; split
    · rfl
    · split <;> rfl
  · unfold Recognizer.expect; split
    · unfold Recognizer.headerDone; split <;> rfl
    · split <;> rfl
  · split
    · split <;> rfl
    · unfold Recognizer.takeBody
      split
      · split
        · rfl
        · split <;> rfl
      · split
        · rw [Recognizer.append_conf]
        · split
          · rfl
          · rw [Recognizer.append_conf]
  · rfl

theorem Recognizer.append_ok {v : Byte} {r : Recognizer} (hl : r.rxLen.toNat ≤ Config.rxbufCap) (he : r.escPend = false)
    (_ : r.rxs = .checksumVerified) (ha : accepts r.conf.acc r.cLatch = true) : RecogOk (r.append v) := by
  have hcap : Config.rxbufCap = 1001 := rfl
  unfold Recognizer.append
  split
  · next h =>
    have hn := len_add (n := r.rxLen) (k := 1) (by omega)
    have hn' : (r.rxLen + 1#12).toNat = r.rxLen.toNat + 1 := by simpa using hn
    exact ⟨by simp only [hn']; omega, by simp [he], fun _ => ha⟩
  · exact ⟨by simp, by simp, by simp⟩

/-- Every byte keeps the recognizer's bounds (R46 f, g). -/
theorem RecogOk.take {r : Recognizer} (h : RecogOk r) (b : Byte) : RecogOk (r.take b) := by
  have goIdle : r.escPend = false → RecogOk (r.goTo .idle) := fun he =>
    ⟨h.rxLen, by simp [Recognizer.goTo, he], by simp [Recognizer.goTo]⟩
  have goDs : r.escPend = false → RecogOk (r.goTo .delimiterSeen) := fun he =>
    ⟨h.rxLen, by simp [Recognizer.goTo, he], by simp [Recognizer.goTo]⟩
  have noEsc : r.rxs ≠ .checksumVerified → r.escPend = false := by
    intro hne
    cases hh : r.escPend
    · rfl
    · exact absurd (h.escPend hh).1 hne
  unfold Recognizer.take
  split
  · next hr =>
    split
    · exact goDs (noEsc (by simp [hr]))
    · exact h
  · next hr =>
    have he := noEsc (by simp [hr])
    unfold Recognizer.expect
    split
    · exact ⟨h.rxLen, by simp [Recognizer.goTo, he], by simp [Recognizer.goTo]⟩
    · split
      · exact goDs he
      · exact goIdle he
  · next hr =>
    have he := noEsc (by simp [hr])
    unfold Recognizer.expect
    split
    · next hacc => exact ⟨h.rxLen, by simp [he], fun _ => hacc⟩
    · split
      · exact goDs he
      · exact goIdle he
  · next hr =>
    have he := noEsc (by simp [hr])
    have hl := h.latched (.inl hr)
    unfold Recognizer.expect
    split
    · unfold Recognizer.headerDone
      split
      · exact ⟨h.rxLen, by simp [Recognizer.goTo, he], fun _ => hl⟩
      · exact ⟨by simp, by simp, fun _ => hl⟩
    · split
      · exact goDs he
      · exact goIdle he
  · next hr =>
    have hl := h.latched (.inr hr)
    split
    · next hk =>
      have he : r.escPend = false := by
        cases hh : r.escPend
        · rfl
        · have := (h.escPend hh).2; simp [hk] at this
      split
      · exact ⟨h.rxLen, by simp [Recognizer.goTo, he], by simp [Recognizer.goTo]⟩
      · exact goIdle he
    · next hk =>
      unfold Recognizer.takeBody
      split
      · split
        · exact ⟨by simp, by simp, by simp⟩
        · next he =>
          have he' : r.escPend = false := by simpa using he
          split
          · exact goDs he'
          · exact ⟨h.rxLen, by simp [Recognizer.goTo, he'], by simp [Recognizer.goTo]⟩
      · split
        · exact Recognizer.append_ok (by exact h.rxLen) rfl hr hl
        · next he =>
          have he' : r.escPend = false := by simpa using he
          split
          · exact ⟨h.rxLen, fun _ => ⟨hr, hk⟩, fun _ => hl⟩
          · exact Recognizer.append_ok h.rxLen he' hr hl
  · exact h

/-- A restart gives the reset values of R133 and the bounds. -/
theorem RecogOk.restart (conf : RecConfig) (r : Recognizer) : RecogOk (r.restart conf) :=
  ⟨by simp [Recognizer.restart], by simp [Recognizer.restart], by simp [Recognizer.restart]⟩

/-- RXS becomes Done on a FLAG only, and with the latched control byte unchanged (R139, R144). -/
theorem Recognizer.take_done {r : Recognizer} {b : Byte} (h0 : r.rxs ≠ .done) (h : (r.take b).rxs = .done) :
    r.rxs = .checksumVerified ∧ b = Config.flag ∧ r.take b = r.goTo .done
      ∧ (r.conf.kind = .info → r.escPend = false ∧ r.rxLen ≠ 0#12) := by
  have hap : ∀ (q : Recognizer) (v : Byte), q.rxs ≠ .done → (q.append v).rxs ≠ .done := by
    intro q v hq
    unfold Recognizer.append
    split <;> simp [hq]
  cases hr : r.rxs with
  | idle => by_cases hb : b = Config.flag <;> simp [Recognizer.take, hr, hb, Recognizer.goTo] at h
  | delimiterSeen =>
    simp only [Recognizer.take, hr, Recognizer.expect] at h
    split at h
    · simp [Recognizer.goTo] at h
    · split at h <;> simp [Recognizer.goTo] at h
  | addressSeen =>
    simp only [Recognizer.take, hr, Recognizer.expect] at h
    split at h
    · simp at h
    · split at h <;> simp [Recognizer.goTo] at h
  | controlSeen =>
    simp only [Recognizer.take, hr, Recognizer.expect] at h
    split at h
    · unfold Recognizer.headerDone at h
      split at h <;> simp [Recognizer.goTo] at h
    · split at h <;> simp [Recognizer.goTo] at h
  | checksumVerified =>
    cases hk : r.conf.kind with
    | sup =>
      by_cases hb : b = Config.flag
      · refine ⟨rfl, hb, by simp [Recognizer.take, hr, hk, hb], by simp⟩
      · simp [Recognizer.take, hr, hk, hb, Recognizer.goTo] at h
    | info =>
      by_cases hb : b = Config.flag
      · subst hb
        cases he : r.escPend with
        | true => simp [Recognizer.take, hr, hk, Recognizer.takeBody, he] at h
        | false =>
          by_cases hz : r.rxLen = 0#12
          · simp [Recognizer.take, hr, hk, Recognizer.takeBody, he, hz, Recognizer.goTo] at h
          · exact ⟨rfl, rfl, by simp [Recognizer.take, hr, hk, Recognizer.takeBody, he, hz], fun _ => ⟨rfl, hz⟩⟩
      · simp only [Recognizer.take, hr, hk, Recognizer.takeBody, hb, if_false] at h
        exfalso
        split at h
        · exact hap _ _ (by simp) h
        · split at h
          · simp at h
          · exact hap r _ h0 h
  | done => exact absurd hr h0

/-- Every byte keeps RXBUF in canonical form. -/
theorem Recognizer.take_rxbuf_wf {r : Recognizer} (h : Memory.wf r.rxbuf) (b : Byte) : Memory.wf (r.take b).rxbuf := by
  have hap : ∀ (q : Recognizer) (v : Byte), Memory.wf q.rxbuf → Memory.wf (q.append v).rxbuf := by
    intro q v hq
    unfold Recognizer.append
    split
    · exact Memory.write_wf _ _ hq
    · exact hq
  unfold Recognizer.take
  split
  · split <;> exact h
  · unfold Recognizer.expect; split
    · exact h
    · split <;> exact h
  · unfold Recognizer.expect; split
    · exact h
    · split <;> exact h
  · unfold Recognizer.expect; split
    · unfold Recognizer.headerDone; split <;> exact h
    · split <;> exact h
  · split
    · split <;> exact h
    · unfold Recognizer.takeBody
      split
      · split
        · exact h
        · split <;> exact h
      · split
        · exact hap _ _ h
        · split
          · exact h
          · exact hap _ _ h
  · exact h

/-! ### Prefixes, refused headers, and the parser -/

/-- Not Done after any proper prefix of a run. -/
theorem neverDone_prefix {xs : List Byte} {b : Byte} {r : Recognizer} (h : NeverDone xs r) :
    ∀ n, n < (xs ++ [b]).length → (r.takeAll ((xs ++ [b]).take n)).rxs ≠ .done := by
  intro n hn
  have hn' : n ≤ xs.length := by simp at hn; omega
  rw [List.take_append_of_le_length hn']
  exact h.at n hn'

/-- No byte of an accepted header makes Done. -/
theorem header_never {r : Recognizer} (h : HeaderState r) {c : Byte} (hc : accepts r.conf.acc c = true) :
    NeverDone [Config.flag, r.conf.expA, c, bcc1 r.conf.expA c] r := by
  have hh := Recognizer.takeAll_header h hc
  refine NeverDone.append (xs := [Config.flag, r.conf.expA, c]) (ys := [bcc1 r.conf.expA c]) hh.2 ?_
  refine ⟨hh.2.at 3 (by simp), ?_⟩
  have h3 := hh.1
  rw [show [Config.flag, r.conf.expA, c, bcc1 r.conf.expA c] = [Config.flag, r.conf.expA, c] ++ [bcc1 r.conf.expA c] from rfl, Recognizer.takeAll_append] at h3
  simp only [Recognizer.takeAll_cons, Recognizer.takeAll_nil] at h3 ⊢
  show (Recognizer.take (bcc1 r.conf.expA c) _).rxs ≠ .done
  rw [h3]
  unfold Recognizer.headerDone; split <;> simp [Recognizer.goTo]

/-- A run of bytes leaves the configuration alone (R131). -/
theorem conf_takeAll (bs : List Byte) (q : Recognizer) : (q.takeAll bs).conf = q.conf := by
  induction bs generalizing q with
  | nil => rfl
  | cons b bs ih => rw [Recognizer.takeAll_cons, ih, Recognizer.take_conf]

/-- The body leaves C_LATCH alone. -/
theorem body_latch {us : List BodyUnit} (hu : us.all BodyUnit.wf = true) {r : Recognizer} (hx : r.rxs = .checksumVerified)
    (hk : r.conf.kind = .info) (he : r.escPend = false) : (r.takeAll (bodyBytes us)).cLatch = r.cLatch := by
  induction us generalizing r with
  | nil => rfl
  | cons u us ih =>
    simp only [List.all_cons, Bool.and_eq_true] at hu
    have h1 := Recognizer.takeAll_unit hx hk he hu.1
    rw [bodyBytes_cons, Recognizer.takeAll_append, h1]
    by_cases hlt : r.rxLen.toNat < Config.rxbufCap
    · have h2 : r.append u.value = { r with rxbuf := Memory.write r.rxbuf r.rxLen.toNat u.value, rxLen := r.rxLen + 1#12 } := by
        simp [Recognizer.append, hlt]
      rw [ih hu.2 (by rw [h2]; exact hx) (by rw [h2]; exact hk) (by rw [h2]; exact he), h2]
    · have h2 : r.append u.value = { r with escPend := false, rxLen := 0#12, rxs := .idle } := by
        simp [Recognizer.append, hlt]
      rw [(Recognizer.takeAll_idle (r := r.append u.value) (by rw [h2]) (flag_notMem_bodyBytes hu.2)).1, h2]

theorem bodyBytes_append (us vs : List BodyUnit) : bodyBytes (us ++ vs) = bodyBytes us ++ bodyBytes vs := by simp [bodyBytes]

/-- A FLAG and fewer than three bytes after it end in a header state. -/
theorem short_inner (r : Recognizer) (h : HeaderState r) (inner : List Byte) (hf : Config.flag ∉ inner) (hl : inner.length < 3) :
    NeverDone ([Config.flag] ++ inner) r ∧ HeaderState (r.takeAll ([Config.flag] ++ inner)) := by
  have h0 : r.rxs ≠ .done := by rcases h.rxs with e | e | e | e <;> simp [e]
  have ds := HeaderState.goTo_delimiterSeen h
  match inner, hl with
  | [], _ => exact ⟨⟨h0, by rw [Recognizer.take_flag h]; simp [NeverDone, Recognizer.goTo]⟩, by simpa [Recognizer.take_flag h] using ds⟩
  | [a], _ =>
    have ha : a ≠ Config.flag := by intro e; simp [e] at hf
    have h1 : HeaderState ((r.goTo .delimiterSeen).take a) ∧ ((r.goTo .delimiterSeen).take a).rxs ≠ .done := by
      simp only [Recognizer.take, Recognizer.goTo, Recognizer.expect]
      split
      · exact ⟨⟨by simp, h.expA, by simp⟩, by simp⟩
      · simp only; exact ⟨⟨by simp, h.expA, by simp⟩, by simp⟩
    refine ⟨⟨h0, ?_⟩, ?_⟩
    · rw [Recognizer.take_flag h]; exact ⟨by simp [Recognizer.goTo], h1.2⟩
    · simp only [List.singleton_append, Recognizer.takeAll_cons, Recognizer.takeAll_nil, Recognizer.take_flag h]; exact h1.1
  | [a, c], _ =>
    have ha : a ≠ Config.flag := by intro e; simp [e] at hf
    have hc : c ≠ Config.flag := by intro e; simp [e] at hf
    have h1 : ((r.goTo .delimiterSeen).take a).rxs ≠ .done ∧ HeaderState (((r.goTo .delimiterSeen).take a).take c)
        ∧ (((r.goTo .delimiterSeen).take a).take c).rxs ≠ .done := by
      by_cases hA : a = r.conf.expA
      · have e : (r.goTo .delimiterSeen).take a = r.goTo .addressSeen := by simp [Recognizer.take, Recognizer.goTo, Recognizer.expect, hA]
        rw [e]
        refine ⟨by simp [Recognizer.goTo], ?_⟩
        simp only [Recognizer.take, Recognizer.goTo, Recognizer.expect]
        split
        · next hacc => exact ⟨⟨by simp, h.expA, fun _ => hacc⟩, by simp⟩
        · simp only; exact ⟨⟨by simp, h.expA, by simp⟩, by simp⟩
      · have e : (r.goTo .delimiterSeen).take a = r.goTo .idle := by simp [Recognizer.take, Recognizer.goTo, Recognizer.expect, hA, ha]
        rw [e, Recognizer.take_idle_skip (r := r.goTo .idle) rfl hc]
        exact ⟨by simp [Recognizer.goTo], HeaderState.goTo_idle h, by simp [Recognizer.goTo]⟩
    refine ⟨⟨h0, ?_⟩, ?_⟩
    · rw [Recognizer.take_flag h]; exact ⟨by simp [Recognizer.goTo], h1.1, h1.2.2⟩
    · simp only [List.singleton_append, Recognizer.takeAll_cons, Recognizer.takeAll_nil, Recognizer.take_flag h]; exact h1.2.1

/-- A header other than the one expected ends in Idle (R134). -/
theorem bad_header (r : Recognizer) (h : HeaderState r) (a c x : Byte) (ha : a ≠ Config.flag) (hc : c ≠ Config.flag) (hx : x ≠ Config.flag)
    (hn : ¬ (a = r.conf.expA ∧ accepts r.conf.acc c = true ∧ x = bcc1 a c)) :
    (r.takeAll [Config.flag, a, c, x]).rxs = .idle ∧ NeverDone [Config.flag, a, c, x] r := by
  have h0 : r.rxs ≠ .done := by rcases h.rxs with e | e | e | e <;> simp [e]
  have hidle : ∀ q : Recognizer, q.rxs = .idle → ∀ b, b ≠ Config.flag → q.take b = q := fun q hq b hb => Recognizer.take_idle_skip hq hb
  by_cases hA : a = r.conf.expA
  · have e : (r.goTo .delimiterSeen).take a = r.goTo .addressSeen := by simp [Recognizer.take, Recognizer.goTo, Recognizer.expect, hA]
    by_cases hC : accepts r.conf.acc c = true
    · have e2 : (r.goTo .addressSeen).take c = { r with cLatch := c, rxs := .controlSeen } := by simp [Recognizer.take, Recognizer.goTo, Recognizer.expect, hC]
      have hX : x ≠ bcc1 r.conf.expA c := fun e => hn ⟨hA, hC, by rw [e, hA]⟩
      have e3 : Recognizer.take x { r with cLatch := c, rxs := .controlSeen } = { r with cLatch := c, rxs := .idle } := by
        simp [Recognizer.take, Recognizer.goTo, Recognizer.expect, hX, hx]
      simp only [Recognizer.takeAll_cons, Recognizer.takeAll_nil, NeverDone, Recognizer.take_flag h, e, e2, e3]
      exact ⟨trivial, h0, by simp [Recognizer.goTo], by simp [Recognizer.goTo], by simp, by simp⟩
    · have e2 : (r.goTo .addressSeen).take c = r.goTo .idle := by simp [Recognizer.take, Recognizer.goTo, Recognizer.expect, hC, hc]
      simp only [Recognizer.takeAll_cons, Recognizer.takeAll_nil, NeverDone, Recognizer.take_flag h, e, e2, hidle (r.goTo .idle) rfl x hx]
      exact ⟨rfl, h0, by simp [Recognizer.goTo], by simp [Recognizer.goTo], by simp [Recognizer.goTo], by simp [Recognizer.goTo]⟩
  · have e : (r.goTo .delimiterSeen).take a = r.goTo .idle := by simp [Recognizer.take, Recognizer.goTo, Recognizer.expect, hA, ha]
    simp only [Recognizer.takeAll_cons, Recognizer.takeAll_nil, NeverDone, Recognizer.take_flag h, e, hidle (r.goTo .idle) rfl x hx, hidle (r.goTo .idle) rfl c hc]
    exact ⟨rfl, h0, by simp [Recognizer.goTo], by simp [Recognizer.goTo], by simp [Recognizer.goTo], by simp [Recognizer.goTo]⟩

/-- Fewer than six bytes are no information frame (R120). -/
theorem parse_short (inner : List Byte) (h : inner.length < 4) : parseInfo ([Config.flag] ++ inner ++ [Config.flag]) = .malformed := by
  simp only [parseInfo]
  rw [if_pos]
  left; simp; omega

/-- PARSE_INFO on six bytes or more (R120). -/
theorem parse_long (a c x : Byte) (rest : List Byte) (hr : rest ≠ []) :
    parseInfo ([Config.flag] ++ (a :: c :: x :: rest) ++ [Config.flag]) =
      if a ≠ Config.aTx ∨ (c ≠ cInfo 0#1 ∧ c ≠ cInfo 1#1) ∨ x ≠ bcc1 a c then .malformed
      else match destuff rest with
        | none => .malformed
        | some body => parseBody (infoBit c) body := by
  have hl : 0 < rest.length := List.length_pos_iff.mpr hr
  unfold parseInfo
  rw [if_neg]
  · have e : (([Config.flag] ++ (a :: c :: x :: rest) ++ [Config.flag]).drop 4).dropLast = rest :=
      List.dropLast_concat
    rw [e]
    rfl
  · have e : ([Config.flag] ++ (a :: c :: x :: rest) ++ [Config.flag]).length = rest.length + 5 := by simp
    rw [e]
    simp only [not_or]
    refine ⟨by omega, by simp, ?_⟩
    simp only [ne_eq, not_not]
    have : rest.length + 5 - 1 = ([Config.flag] ++ (a :: c :: x :: rest)).length := by simp
    rw [this, List.getD_eq_getElem?_getD, List.getElem?_append_right (le_refl _)]
    simp

/-- CFG_INFO accepts I(0) and I(1) and nothing else (R132). -/
theorem cfgInfo_accepts (c : Byte) : accepts cfgInfo.acc c = true ↔ c = cInfo 0#1 ∨ c = cInfo 1#1 := by revert c; decide

end Sys2Proof.Machine
end

