-- ==== Sys2Proof/Laws/Receive.lean ====
section
/-! SUPPORT. Runs of received bytes: one byte at a time, bytes that complete no frame, a whole frame, and the rule by which
anything each byte keeps is kept by a run. -/

namespace Sys2Proof.Machine

/-! ### Which engine rule runs (R145) -/

theorem recognised_openSender {s : State} (ho : s.op = .openCmd) (hr : s.cfg.role = .sender) :
    frameRecognised s = openSenderDone s := by simp only [frameRecognised, ho, hr]
theorem recognised_openReceiver {s : State} (ho : s.op = .openCmd) (hr : s.cfg.role = .receiver) :
    frameRecognised s = openReceiverDone s := by simp only [frameRecognised, ho, hr]
theorem recognised_write {s : State} (ho : s.op = .writeCmd) : frameRecognised s = writeAnswered s := by
  simp only [frameRecognised, ho]
theorem recognised_read {s : State} (ho : s.op = .readCmd) : frameRecognised s = readRecognised s := by
  simp only [frameRecognised, ho]
theorem recognised_closeSender {s : State} (ho : s.op = .closeCmd) (hr : s.cfg.role = .sender) :
    frameRecognised s = closeSenderDone s := by simp only [frameRecognised, ho, hr]
theorem recognised_closeReceiver {s : State} (ho : s.op = .closeCmd) (hr : s.cfg.role = .receiver) :
    frameRecognised s = closeReceiverDone s := by simp only [frameRecognised, ho, hr]

/-- One byte that does not complete a frame moves the recognizer alone (R131, R163). -/
theorem rxByte_quiet {b : Byte} {s : State} (h : (s.recog.take b).rxs ≠ .done) :
    rxByte b s = { s with recog := s.recog.take b } := by
  simp [rxByte, h]

/-- The byte that completes a frame also runs the engine rule (R145). -/
theorem rxByte_done {b : Byte} {s : State} (h0 : s.recog.rxs ≠ .done) (h : (s.recog.take b).rxs = .done) :
    rxByte b s = frameRecognised { s with recog := s.recog.take b } := by
  simp [rxByte, h0, h]

theorem polling_recog (s : State) (r : Recognizer) : polling { s with recog := r } = polling s := rfl
theorem polling_env (s : State) (e : Env) : polling { s with env := e } = polling s := rfl

theorem polling_spec {s : State} (h : polling s = true) :
    s.busy = true ∧ (s.phase = .awaitingResponse ∨ s.phase = .awaitingCommand) := by
  simpa [polling] using h

/-- Bytes that complete no frame are all taken, and only the recognizer moves. -/
theorem drain_quiet {xs : List Byte} {s : State} (hp : polling s = true) (hn : NeverDone xs s.recog) (ys : List Byte) :
    drain (xs ++ ys) s = drain ys { s with recog := s.recog.takeAll xs } := by
  induction xs generalizing s with
  | nil => simp
  | cons b xs ih =>
    rw [List.cons_append, drain, if_pos hp, rxByte_quiet hn.2.start,
      ih (s := { s with recog := s.recog.take b }) hp hn.2]
    rfl

/-- An engine rule does not look at the shim's queue and leaves it alone. -/
theorem frameRecognised_queue (s : State) : (frameRecognised s).env.rxQueue = s.env.rxQueue := by
  unfold frameRecognised
  split
  · split <;> rfl
  · unfold writeAnswered
    split
    · rfl
    · split <;> rfl
  · unfold readRecognised
    split
    · split <;> rfl
    · rfl
  · split <;> rfl

theorem rxByte_queue (b : Byte) (s : State) : (rxByte b s).env.rxQueue = s.env.rxQueue := by
  unfold rxByte
  simp only
  split
  · rw [frameRecognised_queue]
  · rfl

theorem drain_nil {s : State} (h : s.env.rxQueue = []) : drain [] s = s := by
  obtain ⟨_, _, _, _, _, _, _, _, _, _, _, _, _, _, _, e⟩ := s
  obtain ⟨_, _, _, _, _, _, _⟩ := e
  simp_all [drain]

/-- A whole frame, recognised at its last byte, runs the engine rule once (R145, R147). -/
theorem deliver_recognised {bs : List Byte} {b : Byte} {s : State} (ho : s.env.portOpen = true)
    (hq : s.env.rxQueue = []) (hp : polling s = true) (hn : NeverDone bs s.recog)
    (hd : (s.recog.takeAll (bs ++ [b])).rxs = .done) :
    deliver (bs ++ [b]) s = frameRecognised { s with recog := s.recog.takeAll (bs ++ [b]) } := by
  have h0 : (s.recog.takeAll bs).rxs ≠ .done := by simpa using hn.at bs.length (le_refl _)
  have he : s.recog.takeAll (bs ++ [b]) = (s.recog.takeAll bs).take b := by
    rw [Recognizer.takeAll_append]; rfl
  rw [he] at hd ⊢
  unfold deliver
  rw [if_pos ho, hq, List.nil_append, drain_quiet hp hn, drain,
    if_pos (by rw [polling_recog]; exact hp), rxByte_done h0 hd, drain_nil]
  rw [frameRecognised_queue]; exact hq

/-- Bytes that complete no frame leave no trace but the recognizer's (R163, R182). -/
theorem deliver_quiet {bs : List Byte} {s : State} (ho : s.env.portOpen = true)
    (hq : s.env.rxQueue = []) (hp : polling s = true) (hn : NeverDone bs s.recog) :
    deliver bs s = { s with recog := s.recog.takeAll bs } := by
  have := drain_quiet hp hn []
  rw [List.append_nil] at this
  unfold deliver
  rw [if_pos ho, hq, List.nil_append, this, drain_nil]
  exact hq

/-- Bytes that reach an LLC that does not poll wait behind the others (R66). -/
theorem drain_notPolling {bs : List Byte} {s : State} (hp : polling s = false) :
    drain bs s = { s with env := { s.env with rxQueue := bs } } := by
  cases bs with
  | nil => rfl
  | cons b bs => simp [drain, hp]

/-- What every byte taken while polling keeps, a run of bytes keeps. -/
theorem drain_keeps {P : State → Prop} (hq : ∀ s q, P s → P { s with env := { s.env with rxQueue := q } })
    (hb : ∀ s b, P s → polling s = true → P (rxByte b s)) (bs : List Byte) (s : State) (h : P s) : P (drain bs s) := by
  induction bs generalizing s with
  | nil => exact hq s [] h
  | cons b bs ih =>
    unfold drain
    split
    · next hp => exact ih _ (hb s b h hp)
    · exact hq s _ h

theorem deliver_keeps {P : State → Prop} (hq : ∀ s q, P s → P { s with env := { s.env with rxQueue := q } })
    (hb : ∀ s b, P s → polling s = true → P (rxByte b s)) (bs : List Byte) (s : State) (h : P s) :
    P (deliver bs s) := by
  unfold deliver
  split
  · exact drain_keeps hq hb _ s h
  · exact h

/-- A poll that takes the oldest queued byte. -/
theorem pollOnce_cons {s : State} {b : Byte} {q : List Byte} (hp : polling s = true) (hq : s.env.rxQueue = b :: q) :
    pollOnce s = rxByte b { s with env := { s.env with rxQueue := q } } := by
  unfold pollOnce; rw [hq]; simp [hp]

/-- A poll that takes nothing: the queue is empty, or LLC does not poll. -/
theorem pollOnce_idle {s : State} (h : s.env.rxQueue = [] ∨ polling s = false) : pollOnce s = s := by
  unfold pollOnce
  split
  · rfl
  · next hq =>
    rcases h with h | h
    · rw [hq] at h; cases h
    · simp [h]

theorem pollOnce_keeps {P : State → Prop} (hq : ∀ s q, P s → P { s with env := { s.env with rxQueue := q } })
    (hb : ∀ s b, P s → polling s = true → P (rxByte b s)) (s : State) (h : P s) : P (pollOnce s) := by
  unfold pollOnce
  split
  · exact h
  · split
    · next hp => exact hb _ _ (hq s _ h) hp
    · exact h

/-! ### What it means to wait for a frame -/

/-- The recognizer's configuration while an operation waits has one of the two addresses. -/
theorem awaitedConfig_expA (op : Op) (role : Role) (ns : Bit) :
    (awaitedConfig op role ns).expA = Config.aTx ∨ (awaitedConfig op role ns).expA = Config.aRx := by
  cases op <;> cases role <;> simp [awaitedConfig, cfgUa, cfgSet, cfgAck, cfgInfo, cfgDiscReply, cfgDiscCmd]

theorem WaitsFor.headerState {op : Op} {s : State} (h : WaitsFor op s) : HeaderState s.recog := by
  have hb := h.inv.busy h.busy
  refine ⟨?_, ?_, fun hr => h.inv.recog.latched (.inl hr)⟩
  · have h1 := h.header
    have h2 := hb.notDone
    cases hr : s.recog.rxs <;> simp_all
  · rw [hb.conf]; exact awaitedConfig_expA _ _ _

theorem WaitsFor.polling {op : Op} {s : State} (h : WaitsFor op s) : polling s = true := by
  have h1 := h.inv.phases
  have h2 : s.phase ≠ .ready := by
    intro e
    have := h.inv.busyIff.mpr e
    rw [h.busy] at this; exact absurd this (by simp)
  simp only [Machine.polling, h.busy, Bool.true_and, Bool.or_eq_true, beq_iff_eq]
  tauto

theorem WaitsFor.conf {op : Op} {s : State} (h : WaitsFor op s) :
    s.recog.conf = awaitedConfig op s.cfg.role s.ns := by
  have := (h.inv.busy h.busy).conf
  rwa [h.op] at this

/-- A frame whose header the configuration does not accept leaves only a FLAG seen (R97). -/
theorem WaitsFor.ignores_sup {op : Op} {s : State} (h : WaitsFor op s) {a c : Byte}
    (ha : a = Config.aTx ∨ a = Config.aRx) (hc : (accBit c).isSome = true)
    (hn : ¬ (a = s.recog.conf.expA ∧ accepts s.recog.conf.acc c = true)) :
    deliver (supFrame a c) s = { s with recog := s.recog.goTo .delimiterSeen } := by
  have h1 := Recognizer.takeAll_supFrame_ignored h.headerState ha hc hn
  rw [deliver_quiet h.port h.queue h.polling h1.2, h1.1]

theorem WaitsFor.ignores_info {op : Op} {s : State} (h : WaitsFor op s) {a : Byte} {sb : Bit} {w : List Byte}
    (ha : a = Config.aTx ∨ a = Config.aRx) (hw : Config.flag ∉ w)
    (hn : ¬ (a = s.recog.conf.expA ∧ accepts s.recog.conf.acc (cInfo sb) = true)) :
    deliver (infoWire a sb w) s = { s with recog := s.recog.goTo .delimiterSeen } := by
  have h1 := Recognizer.takeAll_infoWire_ignored h.headerState ha hw hn
  rw [deliver_quiet h.port h.queue h.polling h1.2, h1.1]

/-- A supervisory frame the configuration accepts runs the engine rule with its control byte latched (R145). -/
theorem WaitsFor.takes_sup {op : Op} {s : State} (h : WaitsFor op s) (hk : s.recog.conf.kind = .sup) {a c : Byte}
    (ha : a = s.recog.conf.expA) (hc : accepts s.recog.conf.acc c = true) :
    deliver (supFrame a c) s = frameRecognised { s with recog := { s.recog with cLatch := c, rxs := .done } } := by
  subst ha
  have h1 := Recognizer.takeAll_supFrame h.headerState hk hc
  have hs : supFrame s.recog.conf.expA c
    = [Config.flag, s.recog.conf.expA, c, bcc1 s.recog.conf.expA c] ++ [Config.flag] := rfl
  rw [hs] at h1 ⊢
  rw [deliver_recognised h.port h.queue h.polling h1.2 (by rw [h1.1]), h1.1]

/-- An information frame the configuration accepts runs the engine rule with its body in RXBUF (R144, R145). -/
theorem WaitsFor.takes_info {op : Op} {s : State} (h : WaitsFor op s) (hk : s.recog.conf.kind = .info) {a : Byte} {sb : Bit}
    (ha : a = s.recog.conf.expA) (hc : accepts s.recog.conf.acc (cInfo sb) = true) {us : List BodyUnit}
    (hu : bodyWf us = true) :
    deliver (infoWire a sb (bodyBytes us)) s
      = frameRecognised { s with recog := s.recog.withFrame sb (bodyValues us) } := by
  subst ha
  have h1 := Recognizer.takeAll_infoWire h.headerState hk hc hu
  have hs : infoWire s.recog.conf.expA sb (bodyBytes us)
    = ([Config.flag, s.recog.conf.expA, cInfo sb, bcc1 s.recog.conf.expA (cInfo sb)] ++ bodyBytes us)
      ++ [Config.flag] := rfl
  rw [hs] at h1 ⊢
  rw [deliver_recognised h.port h.queue h.polling h1.2 (by rw [h1.1]; rfl), h1.1]

/-- What READ finds in RXBUF after a frame with body p ++ [x] (R144, R183). -/
theorem received_withFrame (r : Recognizer) (sb : Bit) (p : List Byte) (x : Byte) (h : p.length < Config.rxbufCap) :
    receivedPayload (r.withFrame sb (p ++ [x])) = p ∧ receivedChecksum (r.withFrame sb (p ++ [x])) = x := by
  have hcap : Config.rxbufCap = 1001 := rfl
  have hl : (BitVec.ofNat 12 (p ++ [x]).length).toNat = p.length + 1 := by simp; omega
  have e1 : (r.withFrame sb (p ++ [x])).rxLen.toNat - 1 = p.length := by
    show (BitVec.ofNat 12 (p ++ [x]).length).toNat - 1 = p.length
    rw [hl]; rfl
  constructor
  · unfold receivedPayload
    rw [e1]
    show Memory.firstBytes (Memory.writeList r.rxbuf 0 (p ++ [x])) p.length = p
    rw [Memory.firstBytes_writeList_take _ _ _ (by simp)]; simp
  · unfold receivedChecksum
    rw [e1]
    show Memory.read (Memory.writeList r.rxbuf 0 (p ++ [x])) p.length = x
    rw [Memory.read_writeList]; simp

/-! ### The shim's queue, and the operations that wait -/

/-- An engine rule commutes with a change of the shim's queue. -/
theorem frameRec_setq (s : State) (q : List Byte) : frameRecognised { s with env := { s.env with rxQueue := q } }
    = { frameRecognised s with env := { (frameRecognised s).env with rxQueue := q } } := by
  obtain ⟨ns, nr, retry, timer, phase, op, busy, session, result, ⟨role, mr, tmo, port, baud⟩, recog, txpay, tl, tb, txl, env⟩ := s
  cases op
  · cases role <;> rfl
  · simp only [frameRecognised, writeAnswered]
    split
    · rfl
    · split <;> rfl
  · simp only [frameRecognised, readRecognised]
    split
    · split <;> rfl
    · rfl
  · cases role <;> rfl

theorem rxByte_setq (b : Byte) (s : State) (q : List Byte) : rxByte b { s with env := { s.env with rxQueue := q } }
    = { rxByte b s with env := { (rxByte b s).env with rxQueue := q } } := by
  unfold rxByte
  simp only
  split
  · exact frameRec_setq { s with recog := s.recog.take b } q
  · rfl

/-- A run of bytes does not look at what the queue held. -/
theorem drain_setq (bs : List Byte) (s : State) (q : List Byte) : drain bs { s with env := { s.env with rxQueue := q } } = drain bs s := by
  induction bs generalizing s q with
  | nil => rfl
  | cons b bs ih =>
    have hp : polling { s with env := { s.env with rxQueue := q } } = polling s := rfl
    unfold drain
    rw [hp]
    split
    · rw [rxByte_setq, ih]
    · rfl

/-- Every operation but READ waits for a supervisory frame (R132). -/
theorem conf_sup {op : Op} {s : State} (h : WaitsFor op s) (hne : op ≠ .readCmd) : s.recog.conf.kind = .sup := by
  rw [h.conf]; cases op <;> cases s.cfg.role <;> simp_all [awaitedConfig, cfgUa, cfgSet, cfgAck, cfgDiscReply, cfgDiscCmd]

/-- READ waits at a Receiver only (R46 c). -/
theorem read_role {s : State} (h : WaitsFor .readCmd s) : s.cfg.role = .receiver := by
  rcases h.inv.phases with e | e | e
  · have := h.inv.busyIff.mpr e; rw [h.busy] at this; cases this
  · exact absurd h.op (h.inv.armed (h.inv.timed e)).op
  · exact (h.inv.passive e).2.1

/-- A supervisory frame outside the awaited configuration leaves only a FLAG seen (R97). -/
theorem ignores_by {op : Op} {s : State} (h : WaitsFor op s) (a : Addr) (c : Byte) (hc : (accBit c).isSome = true)
    (hn : ¬ (a.byte = (awaitedConfig op s.cfg.role s.ns).expA ∧ accepts (awaitedConfig op s.cfg.role s.ns).acc c = true)) :
    deliver (supFrame a.byte c) s = { s with recog := { s.recog with rxs := .delimiterSeen } } :=
  h.ignores_sup (addr_byte_cases a) hc (by rw [h.conf]; exact hn)

/-- A well-formed body is a payload and one byte of checksum-2 (R18, R90). -/
theorem body_split {body : List BodyUnit} (h : bodyWf body = true) : ∃ p x, bodyValues body = p ++ [x] ∧ p.length + 1 = body.length := by
  obtain ⟨h1, h2, h3⟩ := bodyWf_spec h
  have hl := bodyValues_length body
  have hne : bodyValues body ≠ [] := by intro e; rw [e] at hl; simp at hl; exact h1 (List.length_eq_zero_iff.mp hl.symm)
  refine ⟨(bodyValues body).dropLast, (bodyValues body).getLast hne, (List.dropLast_append_getLast hne).symm, ?_⟩
  have : 0 < body.length := List.length_pos_iff.mpr h1
  simp [hl]; omega

/-- READ takes every well-formed information frame with address A_TX (R153). -/
theorem takes_read {s : State} (h : WaitsFor .readCmd s) (sb : Bit) {body : List BodyUnit} (hb : bodyWf body = true) :
    deliver (infoWire Config.aTx sb (bodyBytes body)) s
      = readRecognised { s with recog := s.recog.withFrame sb (bodyValues body) } := by
  have hconf := h.conf
  have hc2 : s.recog.conf = cfgInfo := hconf
  have he : deliver (infoWire Config.aTx sb (bodyBytes body)) s = (deliver (infoWire Config.aTx sb (bodyBytes body)) s) := rfl
  rw [he, h.takes_info (by rw [hc2]; rfl) (by rw [hc2]; rfl) (by rw [hc2]; rcases bit_cases sb with e | e <;> rw [e] <;> decide) hb]
  have hop := h.op
  simp only [frameRecognised, hop]

/-- The verdict on checksum-2 (R183). -/
theorem good_of {r : Recognizer} {sb : Bit} {p : List Byte} {x : Byte} (h : p.length < Config.rxbufCap) :
    receivedGood (r.withFrame sb (p ++ [x])) = decide (bcc2 p = x) := by
  have := received_withFrame r sb p x h
  unfold receivedGood; rw [this.1, this.2]; rfl

theorem len_body {body : List BodyUnit} {p : List Byte} {x : Byte} (hb : bodyWf body = true) (hv : bodyValues body = p ++ [x]) :
    p.length < Config.rxbufCap := by
  have h1 := (bodyWf_spec hb).2.1
  have := bodyValues_length body
  rw [hv] at this; simp at this; omega

theorem len_pred {n : Nat} (_ : n < Config.rxbufCap) : BitVec.ofNat 12 (n + 1) - 1#12 = BitVec.ofNat 12 n := by
  have : Config.rxbufCap = 1001 := rfl
  apply BitVec.eq_of_toNat_eq; simp; omega

end Sys2Proof.Machine
end

