-- ==== Sys2Proof/Laws/Step.lean ====
section
/-! SUPPORT. The encoder and decoder agree; what presenting bytes or a host word does; and the one inversion lemma of
step: everything one input can do, from which every invariant is proved. -/

namespace Sys2Proof

theorem decodeAddr_byte (a : Addr) : decodeAddr a.byte = .ok a := by cases a <;> decide

theorem decodeAddr_ok {x : Byte} {a : Addr} (h : decodeAddr x = .ok a) : x = a.byte := by
  unfold decodeAddr at h
  split at h
  · next hx => cases h; exact hx
  · split at h
    · next hx => cases h; exact hx
    · cases h

theorem decodeSup_flag (i : Instr) : decodeSup i [Config.flag] = .ok i := by simp [decodeSup]

theorem decodeSup_ok {i j : Instr} {rest : List Byte} (h : decodeSup i rest = .ok j) : i = j ∧ rest = [Config.flag] := by
  unfold decodeSup at h
  split at h
  · next hr => cases h; exact ⟨rfl, hr⟩
  · cases h

theorem decodeInfo_ok {a : Addr} {s : Bit} {rest : List Byte} {j : Instr} (h : decodeInfo a s rest = .ok j) :
    ∃ us, bodyWf us = true ∧ rest = bodyBytes us ++ [Config.flag] ∧ j = .info a s us := by
  unfold decodeInfo at h
  split at h
  · cases h
  · next us hu =>
    split at h
    · cases h
    · next he =>
      split at h
      · cases h
      · next hl =>
        cases h
        obtain ⟨h1, h2⟩ := decodeUnits_eq_ok hu
        refine ⟨us, ?_, h2, rfl⟩
        simp only [bodyWf, h1, Bool.and_true, Bool.and_eq_true, Bool.not_eq_true', decide_eq_true_eq]
        exact ⟨by simpa using he, by omega⟩

theorem decodeControl_sup (a : Addr) (c : Byte) (rest : List Byte) :
    decodeControl a c rest =
      if c = Config.cSet then decodeSup (.set a) rest
      else if c = Config.cUa then decodeSup (.ua a) rest
      else if c = Config.cDisc then decodeSup (.disc a) rest
      else if c = cRr 0#1 then decodeSup (.rr a 0#1) rest
      else if c = cRr 1#1 then decodeSup (.rr a 1#1) rest
      else if c = cRej 0#1 then decodeSup (.rej a 0#1) rest
      else if c = cRej 1#1 then decodeSup (.rej a 1#1) rest
      else if c = cInfo 0#1 then decodeInfo a 0#1 rest
      else if c = cInfo 1#1 then decodeInfo a 1#1 rest
      else .error .badControl := rfl

theorem decodeControl_cRr (a : Addr) (n : Bit) : decodeControl a (cRr n) [Config.flag] = .ok (.rr a n) := by
  rcases bit_cases n with rfl | rfl <;> rfl

theorem decodeControl_cRej (a : Addr) (n : Bit) : decodeControl a (cRej n) [Config.flag] = .ok (.rej a n) := by
  rcases bit_cases n with rfl | rfl <;> rfl

theorem decodeControl_cInfo (a : Addr) (n : Bit) (rest : List Byte) :
    decodeControl a (cInfo n) rest = decodeInfo a n rest := by
  rcases bit_cases n with rfl | rfl <;> rfl

/-- A frame's bytes after the header test (R81, R82). -/
theorem decodeWire_frame (a : Addr) (c : Byte) (rest : List Byte) :
    decodeWire (Config.flag :: a.byte :: c :: bcc1 a.byte c :: rest) = decodeControl a c rest := by
  simp [decodeWire, decodeAddr_byte]

theorem decodeInfo_bodyBytes (a : Addr) (s : Bit) {us : List BodyUnit} (h : bodyWf us = true) :
    decodeInfo a s (bodyBytes us ++ [Config.flag]) = .ok (.info a s us) := by
  obtain ⟨h1, h2, h3⟩ := bodyWf_spec h
  have h4 : ¬ Config.rxbufCap < us.length := by omega
  simp [decodeInfo, decodeUnits_bodyBytes h3, h1, h4]

/-- What the decoder reads is well-formed and is exactly the bytes it read. -/
theorem decodeWire_ok {bs : List Byte} {i : Instr} (h : decodeWire bs = .ok i) :
    i.wf = true ∧ encode i = .wire bs := by
  unfold decodeWire at h
  split at h
  · next b x =>
    split at h
    · next hb => cases h; obtain ⟨rfl, rfl⟩ := hb; exact ⟨rfl, rfl⟩
    · split at h
      · next hb => cases h; obtain ⟨rfl, rfl⟩ := hb; exact ⟨rfl, rfl⟩
      · cases h
  · next f a c x rest =>
    split at h
    · next hf =>
      subst hf
      split at h
      · cases h
      · next ad had =>
        have ha := decodeAddr_ok had
        subst ha
        split at h
        · next hx =>
          subst hx
          have sup : ∀ (j : Instr) (k : Byte), decodeSup j rest = .ok i → encode j = .wire (supFrame ad.byte k) →
              j.wf = true → i.wf = true ∧ encode i = .wire (Config.flag :: ad.byte :: k :: bcc1 ad.byte k :: rest) := by
            intro j k hs he hw
            obtain ⟨rfl, hr⟩ := decodeSup_ok hs
            rw [hr]; exact ⟨hw, he⟩
          have inf : ∀ sb, decodeInfo ad sb rest = .ok i → i.wf = true
              ∧ encode i = .wire (Config.flag :: ad.byte :: cInfo sb :: bcc1 ad.byte (cInfo sb) :: rest) := by
            intro sb hs
            obtain ⟨us, hu, hr, hj⟩ := decodeInfo_ok hs
            subst hj hr
            exact ⟨hu, rfl⟩
          rw [decodeControl_sup] at h
          split at h
          · next hc => subst hc; exact sup _ _ h rfl rfl
          split at h
          · next hc => subst hc; exact sup _ _ h rfl rfl
          split at h
          · next hc => subst hc; exact sup _ _ h rfl rfl
          split at h
          · next hc => subst hc; exact sup _ _ h rfl rfl
          split at h
          · next hc => subst hc; exact sup _ _ h rfl rfl
          split at h
          · next hc => subst hc; exact sup _ _ h rfl rfl
          split at h
          · next hc => subst hc; exact sup _ _ h rfl rfl
          split at h
          · next hc => subst hc; exact inf _ h
          split at h
          · next hc => subst hc; exact inf _ h
          · cases h
        · cases h
    · cases h
  · cases h

namespace Machine

/-! ### Presenting bytes and host words -/

/-- A frame or an escape pair is run as its wire bytes (R104). -/
theorem exec_wire {i : Instr} {bs : List Byte} (h : encode i = .wire bs) (s : State) :
    exec i s = .next (deliver bs s) := by
  cases i <;> simp_all [encode] <;> subst h <;> rfl

/-- Wire bytes are taken one by one whether or not they are one instruction (R95, R96). -/
theorem present_wire (bs : List Byte) (s : State) : present (.wire bs) s = .next (deliver bs s) := by
  unfold present
  split
  · next i hi => exact exec_wire (decodeWire_ok hi).2 s
  · rfl

/-- Whether a command has a meaning in a state (R237). -/
def legal (op : Op) (s : State) : Bool :=
  match op with
  | .openCmd => s.session == .closed
  | .writeCmd => s.session == .opened && s.cfg.role == .sender && decide (s.txpayLen.toNat ≤ Config.maxPayload)
  | .readCmd => s.session == .opened && s.cfg.role == .receiver
  | .closeCmd => s.session == .opened

/-- The start of a command (R161, R181, R201, R204, R207, R211). -/
def start (op : Op) (s : State) : State :=
  match op with
  | .openCmd => openByRole s
  | .writeCmd => writeStart s
  | .readCmd => readStart s
  | .closeCmd => closeByRole s

theorem hostCommand_false (f g : State → State) (s : State) : hostCommand false f s = hostCommand false g s := by
  simp [hostCommand]

/-- A host word runs its command, or is refused (R101, R105, R237). -/
theorem present_host (op : Op) (s : State) :
    present (.host (hostWord s.cfg.role op)) s = .next (hostCommand (legal op s) (start op) s) := by
  have hw : decode (.host (hostWord s.cfg.role op)) =
      match s.cfg.role, op with
      | .sender, .openCmd => .ok .openS
      | .sender, .writeCmd => .ok .write
      | .sender, .readCmd => .error .readBySender
      | .sender, .closeCmd => .ok .closeS
      | .receiver, .openCmd => .ok .openR
      | .receiver, .writeCmd => .error .writeByReceiver
      | .receiver, .readCmd => .ok .read
      | .receiver, .closeCmd => .ok .closeR := by
    cases s.cfg.role <;> cases op <;> rfl
  unfold present
  rw [hw]
  cases hr : s.cfg.role <;> cases op
  · rfl
  · rfl
  · have hl : legal .readCmd s = false := by simp [legal, hr]
    rw [hl]
    exact congrArg Host.Outcome.next (hostCommand_false _ _ _)
  · rfl
  · rfl
  · have hl : legal .writeCmd s = false := by simp [legal, hr]
    rw [hl]
    exact congrArg Host.Outcome.next (hostCommand_false _ _ _)
  · rfl
  · rfl

/-! ### Everything one input can do -/

/-- A host write to a configuration register. -/
def isCfgWrite : Input → Bool
  | .putRole _ | .putMaxRetries _ | .putTimeout _ | .putPort _ | .putBaud _ => true
  | .reset | .cmd _ | .wire _ | .poll | .tick | .timeout | .putTxpay _ _ | .putTxpayLen _ | .shimAnswer _
  | .peerSends _ | .lineDeliver | .lineAlter _ | .lineDrop | .lineInsert _ | .lineTaken | .shimReset => false

/-- Everything input i can do to a state it has been taken from. -/
inductive Event : Input → State → State → Prop
  | reset (s : State) : Event .reset s (resetEvent s)
  | cmd (op : Op) (s : State) : Event (.cmd op) s (hostCommand (legal op s) (start op) s)
  | bytes (bs : List Byte) (s : State) : Event (.wire bs) s (deliver bs s)
  | poll (s : State) : Event .poll s (pollOnce s)
  | tick (s : State) (h : timeoutDue s = false) : Event .tick s (tickTimer s)
  | timeout (i : Input) (s : State) (hi : i = .tick ∨ i = .timeout) (h : timeoutDue s = true) : Event i s (timeoutEvent s)
  | notDue (s : State) (h : timeoutDue s = false) : Event .timeout s s
  | cfg (i : Input) (c : Cfg) (s : State) (hi : isCfgWrite i = true) : Event i s (writeCfg c s)
  | txpay (k : Nat) (b : Byte) (s : State) (h : k < Config.maxPayload) (hb : s.busy = false) :
      Event (.putTxpay k b) s { s with txpay := Memory.write s.txpay k b }
  | txpayBusy (k : Nat) (b : Byte) (s : State) (hb : s.busy = true) : Event (.putTxpay k b) s s
  | txpayLen (n : Len) (s : State) : Event (.putTxpayLen n) s (writeTxpayLen n s)
  | env (i : Input) (s : State) (e : Env) (ho : e.outputs = s.env.outputs) (hi : e.inputs = s.env.inputs) :
      Event i s { s with env := e }

theorem takeInput_event {i : Input} {s t : State} (ht : i = .tick → timeoutDue s = false)
    (h : takeInput i s = .next t) : Event i s t := by
  have mv : ∀ (j : Input) (f : Env → Env), (f s.env).outputs = s.env.outputs → (f s.env).inputs = s.env.inputs →
      Host.Outcome.next (moveEnv f s) = (Host.Outcome.next t : Host.Outcome State Fault Refusal) → Event j s t := by
    intro j f h1 h2 h3
    cases h3
    exact .env j s _ h1 h2
  have sr : ∀ (b : Byte) (e : Env), (shimReceives b e).outputs = e.outputs ∧ (shimReceives b e).inputs = e.inputs := by
    intro b e; unfold shimReceives; split <;> simp
  have lm : ∀ (f : Byte → Env → Env), (∀ b e, (f b e).outputs = e.outputs ∧ (f b e).inputs = e.inputs) →
      (lineMoves f s.env).outputs = s.env.outputs ∧ (lineMoves f s.env).inputs = s.env.inputs := by
    intro f hf; unfold lineMoves; split
    · exact ⟨rfl, rfl⟩
    · exact hf _ _
  cases i with
  | reset => cases h; exact .reset s
  | cmd op =>
    have h' : present (.host (hostWord s.cfg.role op)) s = .next t := h
    rw [present_host] at h'
    cases h'
    exact .cmd op s
  | wire bs =>
    have h' : present (.wire bs) s = .next t := h
    rw [present_wire] at h'
    cases h'
    exact .bytes bs s
  | poll => cases h; exact .poll s
  | tick => cases h; exact .tick s (ht rfl)
  | timeout =>
    have h' : Host.Outcome.next (timeoutInput s) = (Host.Outcome.next t : Host.Outcome State Fault Refusal) := h
    unfold timeoutInput at h'
    split at h'
    · next hd => cases h'; exact .timeout _ s (.inr rfl) hd
    · next hd => cases h'; exact .notDue s (by simpa using hd)
  | putRole r => cases h; exact .cfg _ _ s rfl
  | putMaxRetries n => cases h; exact .cfg _ _ s rfl
  | putTimeout n => cases h; exact .cfg _ _ s rfl
  | putPort p => cases h; exact .cfg _ _ s rfl
  | putBaud b => cases h; exact .cfg _ _ s rfl
  | putTxpay k b =>
    have h' : writeTxpay k b s = .next t := h
    unfold writeTxpay at h'
    split at h'
    · cases h'
    · next hk =>
      have hk' : k < Config.maxPayload := Nat.lt_of_not_le hk
      by_cases hb : s.busy = true
      · rw [if_pos hb] at h'; cases h'; exact .txpayBusy k b s hb
      · rw [if_neg hb] at h'; cases h'; exact .txpay k b s hk' (by simpa using hb)
  | putTxpayLen n => cases h; exact .txpayLen n s
  | shimAnswer ok => exact mv _ (fun e => { e with shimOk := ok }) rfl rfl h
  | peerSends bs => exact mv _ (fun e => { e with lineIn := e.lineIn ++ bs }) rfl rfl h
  | lineDeliver => exact mv _ (lineMoves shimReceives) (lm _ sr).1 (lm _ sr).2 h
  | lineAlter b => exact mv _ (lineMoves (fun _ => shimReceives b)) (lm _ (fun _ => sr b)).1 (lm _ (fun _ => sr b)).2 h
  | lineDrop => exact mv _ (lineMoves (fun _ e => e)) (lm _ (fun _ _ => ⟨rfl, rfl⟩)).1 (lm _ (fun _ _ => ⟨rfl, rfl⟩)).2 h
  | lineInsert b => exact mv _ (shimReceives b) (sr b _).1 (sr b _).2 h
  | lineTaken => exact mv _ (fun e => { e with lineOut := e.lineOut.drop 1 }) rfl rfl h
  | shimReset => exact mv _ (fun e => { e with portOpen := false, rxQueue := [] }) rfl rfl h

/-- The inversion of step: no input and nothing happens, a Tick that waits for a due Timeout, or one input taken. -/
theorem step_cases {s t : State} (h : step s = .next t) :
    (s.env.inputs = [] ∧ t = s)
      ∨ (∃ rest, s.env.inputs = .tick :: rest ∧ timeoutDue s = true ∧ t = timeoutEvent s)
      ∨ ∃ i rest, s.env.inputs = i :: rest ∧ Event i (withInputs rest s) t := by
  unfold step at h
  split at h
  · next hi => cases h; exact .inl ⟨hi, rfl⟩
  · next i rest hi =>
    unfold nextInput at h
    split at h
    · next hc =>
      obtain ⟨rfl, hd⟩ := hc
      cases h
      exact .inr (.inl ⟨rest, hi, hd, rfl⟩)
    · next hc =>
      refine .inr (.inr ⟨i, rest, hi, takeInput_event ?_ h⟩)
      intro ht
      cases hd : timeoutDue s
      · exact hd
      · exact absurd ⟨ht, hd⟩ hc

/-! ### Commands and single inputs -/

/-- A legal command issued while BUSY = 0 runs. -/
theorem hc_run {f : State → State} {s : State} (hb : s.busy = false) : hostCommand true f s = f s := by simp [hostCommand, hb]

/-- An illegal one is refused (R237). -/
theorem hc_bad {f : State → State} {s : State} (hb : s.busy = false) : hostCommand false f s = illegalCommand s := by simp [hostCommand, hb]

/-- All an illegal command does (R237). -/
theorem illegal_eq (s : State) : illegalCommand s = { s with
          result := { code := .illegalCommand, kind := .none, len := 0#12 }
          env := { s.env with outputs := s.env.outputs ++ [.done .illegalCommand .none 0#12] } } := rfl

/-- A step on a command. -/
theorem step_cmd {op : Op} {rest : List Input} {s : State} (h : s.env.inputs = .cmd op :: rest) :
    step s = .next (hostCommand (legal op (withInputs rest s)) (start op) (withInputs rest s)) := by
  unfold step
  rw [h]
  exact present_host op (withInputs rest s)

/-- A step on any input but Tick. -/
theorem step_of {i : Input} {rest : List Input} {s : State} (h : s.env.inputs = i :: rest) (hi : i ≠ .tick) :
    step s = takeInput i (withInputs rest s) := by
  unfold step; rw [h]; unfold nextInput; simp [hi]

/-- A step on Tick (R246). -/
theorem step_tick {rest : List Input} {s : State} (h : s.env.inputs = .tick :: rest) :
    step s = if timeoutDue s = true then .next (timeoutEvent s) else .next (tickTimer (withInputs rest s)) := by
  unfold step; rw [h]; unfold nextInput; simp [takeInput]

/-- A step on a Timeout that is due (R241). -/
theorem step_timeout {rest : List Input} {s : State} (h : s.env.inputs = .timeout :: rest) (hd : timeoutDue s = true) :
    step s = .next (timeoutEvent (withInputs rest s)) := by
  rw [step_of h (by simp)]
  show Host.Outcome.next (timeoutInput (withInputs rest s)) = _
  have : timeoutDue (withInputs rest s) = true := hd
  simp [timeoutInput, this]

/-- A step on a Timeout that is not due drops it (log 12). -/
theorem step_timeout_early {rest : List Input} {s : State} (h : s.env.inputs = .timeout :: rest)
    (hd : timeoutDue s = false) : step s = .next (withInputs rest s) := by
  rw [step_of h (by simp)]
  show Host.Outcome.next (timeoutInput (withInputs rest s)) = _
  have : timeoutDue (withInputs rest s) = false := hd
  simp [timeoutInput, this]

/-- A byte that reaches the shim touches the queue only, and only while the port is open. -/
theorem shimReceives_eq (b : Byte) (e : Env) :
    shimReceives b e = { e with rxQueue := if e.portOpen = true then e.rxQueue ++ [b] else e.rxQueue } := by
  unfold shimReceives; split <;> rfl

theorem lineMoves_nil (f : Byte → Env → Env) {e : Env} (h : e.lineIn = []) : lineMoves f e = e := by
  unfold lineMoves; rw [h]

theorem lineMoves_cons (f : Byte → Env → Env) {e : Env} {b : Byte} {line : List Byte} (h : e.lineIn = b :: line) :
    lineMoves f e = f b { e with lineIn := line } := by
  unfold lineMoves; rw [h]

/-- Everything a Timeout does in WRITE (R167). -/
theorem timeoutEvent_write {s : State} (h : s.op = .writeCmd) :
    timeoutEvent s =
      if spendRetry s.retry = 0#8 then
        { s with
          retry := spendRetry s.retry
          timer := { s.timer with armed := false, alarm := false }
          result := { code := .maxRetriesExceeded, kind := .none, len := 0#12 }
          phase := .ready
          busy := false
          env := { s.env with outputs := s.env.outputs ++ [.done .maxRetriesExceeded .none 0#12] } }
      else
        { s with
          retry := spendRetry s.retry
          phase := .awaitingResponse
          timer := { count := timerLoad s.cfg.timeout, armed := true, alarm := false }
          recog := { s.recog with conf := cfgAck s.ns, rxs := .idle, cLatch := 0x00#8, escPend := false, rxLen := 0#12 }
          env := { s.env with
            outputs := s.env.outputs ++ [.tx (wireOperand s)]
            lineOut := s.env.lineOut ++ wireOperand s } } := by
  obtain ⟨_, _, _, _, _, op, _, _, _, _, _, _, _, _, _, _⟩ := s
  cases h
  simp only [timeoutEvent, writeTimedOut]
  split <;> rfl

/-- Everything a Timeout does in OPEN and CLOSE (R202, R208). -/
theorem timeoutEvent_handshake {s : State} (h : s.op = .openCmd ∨ s.op = .closeCmd) :
    timeoutEvent s =
      if spendRetry s.retry = 0#8 then
        { s with
          retry := spendRetry s.retry
          timer := { s.timer with armed := false, alarm := false }
          result := { code := .handshakeFailed, kind := .none, len := 0#12 }
          phase := .ready
          busy := false
          session := .closed
          env := { s.env with
            portOpen := false
            outputs := s.env.outputs ++ [.chanClose] ++ [.done .handshakeFailed .none 0#12] } }
      else
        { s with
          retry := spendRetry s.retry
          phase := .awaitingResponse
          timer := { count := timerLoad s.cfg.timeout, armed := true, alarm := false }
          recog := { s.recog with
            conf := if s.op = .openCmd then cfgUa else cfgDiscReply
            rxs := .idle, cLatch := 0x00#8, escPend := false, rxLen := 0#12 }
          env := { s.env with
            outputs := s.env.outputs ++ [.tx (wireOperand s)]
            lineOut := s.env.lineOut ++ wireOperand s } } := by
  obtain ⟨_, _, _, _, _, op, _, _, _, _, _, _, _, _, _, _⟩ := s
  rcases h with h | h <;> cases h <;> simp only [timeoutEvent, handshakeTimedOut] <;> split <;> rfl

/-- What every event keeps, a step keeps. -/
theorem step_keeps {P : State → Prop} (hin : ∀ s rest, P s → P (withInputs rest s))
    (hev : ∀ i s t, Event i s t → P s → P t) {s t : State} (h : step s = .next t) (hs : P s) : P t := by
  rcases step_cases h with ⟨_, rfl⟩ | ⟨rest, _, hd, rfl⟩ | ⟨i, rest, _, he⟩
  · exact hs
  · exact hev .tick s _ (.timeout _ s (.inl rfl) hd) hs
  · exact hev i _ t he (hin s rest hs)

end Machine

end Sys2Proof
end

