-- ==== Sys2Proof/Laws/Invariant.lean ====
section
/-! SUPPORT. What keeps the invariant Inv (R46): a machine that is Ready, a timed wait, a passive wait, and the pieces a
step is made of (a byte, an engine rule, the start of a command, a Timeout). -/

namespace Sys2Proof.Machine

/-- The invariant does not look at the environment. -/
theorem Inv.setEnv {s : State} (h : Inv s) (e : Env) : Inv { s with env := e } :=
  ⟨h.busyIff, h.phases, fun ha => ⟨(h.armed ha).1, (h.armed ha).2, (h.armed ha).3, (h.armed ha).4, (h.armed ha).5, (h.armed ha).6, (h.armed ha).7⟩,
    h.passive, h.timed, h.alarm, fun hb => ⟨(h.busy hb).1, (h.busy hb).2, (h.busy hb).3, (h.busy hb).4, (h.busy hb).5⟩,
    h.recog, h.txLen, h.roleBits⟩

/-- A byte that completes no frame keeps the invariant. -/
theorem Inv.quiet {s : State} (h : Inv s) {b : Byte} (hd : (s.recog.take b).rxs ≠ .done) :
    Inv { s with recog := s.recog.take b } :=
  ⟨h.busyIff, h.phases, fun ha => ⟨(h.armed ha).1, (h.armed ha).2, (h.armed ha).3, (h.armed ha).4, (h.armed ha).5, (h.armed ha).6, (h.armed ha).7⟩,
    h.passive, h.timed, h.alarm,
    fun hb => ⟨(h.busy hb).1, (h.busy hb).2, by simpa using (h.busy hb).3, hd, (h.busy hb).5⟩,
    h.recog.take b, h.txLen, h.roleBits⟩

/-- A machine that is Ready meets the invariant. -/
theorem Inv.ofReady {s : State} (hb : s.busy = false) (hp : s.phase = .ready) (ha : s.timer.armed = false)
    (hl : s.timer.alarm = false) (hr : RecogOk s.recog) (ht : s.txLen.toNat ≤ Config.txbufCap)
    (hn : s.session = .opened → (s.cfg.role = .receiver → s.ns = 0#1) ∧ (s.cfg.role = .sender → s.nr = 0#1)) : Inv s :=
  ⟨by simp [hb, hp], .inl hp, by simp [ha], by simp [hp], by simp [hp], hl, by simp [hb], hr, ht, hn⟩

/-- A timed wait with budget left meets it. -/
theorem Inv.ofAttempt {s : State} (hb : s.busy = true) (hp : s.phase = .awaitingResponse) (ha : ArmedOk s)
    (hm : s.timer.armed = true) (hl : s.timer.alarm = false) (hbo : BusyOk s)
    (hr : RecogOk s.recog) (ht : s.txLen.toNat ≤ Config.txbufCap)
    (hn : s.session = .opened → (s.cfg.role = .receiver → s.ns = 0#1) ∧ (s.cfg.role = .sender → s.nr = 0#1)) : Inv s :=
  ⟨by simp [hb, hp], .inr (.inl hp), fun _ => ha, by simp [hp], fun _ => hm, hl, fun _ => hbo, hr, ht, hn⟩

/-- A passive wait meets it. -/
theorem Inv.ofPassive {s : State} (hb : s.busy = true) (hp : s.phase = .awaitingCommand) (hm : s.timer.armed = false)
    (hro : s.cfg.role = .receiver) (hop : s.op ≠ .writeCmd) (hl : s.timer.alarm = false) (hbo : BusyOk s)
    (hr : RecogOk s.recog) (ht : s.txLen.toNat ≤ Config.txbufCap)
    (hn : s.session = .opened → (s.cfg.role = .receiver → s.ns = 0#1) ∧ (s.cfg.role = .sender → s.nr = 0#1)) : Inv s :=
  ⟨by simp [hb, hp], .inr (.inr hp), by simp [hm], fun _ => ⟨hm, hro, hop⟩, by simp [hp], hl, fun _ => hbo, hr, ht, hn⟩

/-- While Ready nothing is armed. -/
theorem Inv.ready {s : State} (h : Inv s) (hb : s.busy = false) : s.phase = .ready ∧ s.timer.armed = false := by
  refine ⟨h.busyIff.mp hb, ?_⟩
  cases ha : s.timer.armed
  · rfl
  · have := (h.armed ha).busy; rw [hb] at this; cases this

theorem restart_ok (conf : RecConfig) (r : Recognizer) :
    RecogOk { r with conf := conf, rxs := .idle, cLatch := 0x00#8, escPend := false, rxLen := 0#12 } := RecogOk.restart conf r

theorem retry_pos {r : BitVec 8} (h : r ≠ 0#8) : 1 ≤ r.toNat := by
  have : r.toNat ≠ 0 := fun e => h (BitVec.eq_of_toNat_eq (by simpa using e))
  omega

theorem sup_cap : (5#12 : Len).toNat ≤ Config.txbufCap := by decide

/-- The start of a legal command keeps the invariant. -/
theorem Inv.start {s : State} (h : Inv s) (hb : s.busy = false) (op : Op) (hl : legal op s = true) : Inv (start op s) := by
  obtain ⟨hp, ha⟩ := h.ready hb
  have hal := h.alarm
  cases op with
  | openCmd =>
    have hs : s.session = .closed := by simpa [legal] using hl
    show Inv (openByRole s)
    unfold openByRole
    cases hr : s.cfg.role
    · simp only [openSender]
      split
      · rw [beginHandshake_eq]
        split
        · exact .ofReady rfl rfl rfl rfl h.recog sup_cap (by simp)
        · next hm =>
          refine .ofAttempt rfl rfl ⟨rfl, rfl, hr, by simp [acceptCommand], retry_pos hm, le_refl _, le_refl _⟩ rfl rfl
            ⟨fun _ => hs, by simp [acceptCommand], ?_, by simp, by simp [acceptCommand]⟩ (restart_ok _ _) sup_cap ?_
          · simp [acceptCommand, hr, awaitedConfig]
          · simp [acceptCommand, hs]
      · exact .ofReady rfl rfl rfl rfl h.recog h.txLen (by simp [transportUnavailable, raise, setSession])
    · simp only [openReceiver]
      split
      · rw [awaitCommand_eq]
        exact .ofPassive rfl rfl ha hr (by simp [acceptCommand]) hal
          ⟨fun _ => hs, by simp [acceptCommand], by simp [acceptCommand, hr, awaitedConfig], by simp, by simp [acceptCommand]⟩
          (restart_ok _ _) h.txLen (by simp [acceptCommand, hs])
      · exact .ofReady rfl rfl rfl rfl h.recog h.txLen (by simp [transportUnavailable, raise, setSession])
  | writeCmd =>
    have hl' : (s.session = .opened ∧ s.cfg.role = .sender) ∧ s.txpayLen.toNat ≤ Config.maxPayload := by simpa [legal] using hl
    obtain ⟨⟨hs, hr⟩, hn⟩ := hl'
    show Inv (writeStart s)
    have hlen := infoFrame_length_le Config.aTx s.ns (payloadOperand s) (by rw [payloadOperand_length]; exact hn)
    have ht : (BitVec.ofNat 12 (infoFrame Config.aTx s.ns (payloadOperand s)).length).toNat ≤ Config.txbufCap := by
      have h2 : Config.txbufCap = 2007 := rfl
      simp; omega
    rw [writeStart_eq s hn]
    split
    · exact .ofReady rfl rfl rfl rfl h.recog ht h.roleBits
    · next hm =>
      exact .ofAttempt rfl rfl ⟨rfl, rfl, hr, by simp, retry_pos hm, le_refl _, le_refl _⟩ rfl rfl
        ⟨by simp, fun _ => hs, by simp [awaitedConfig], by simp, fun _ => hn⟩ (restart_ok _ _) ht h.roleBits
  | readCmd =>
    have hl' : s.session = .opened ∧ s.cfg.role = .receiver := by simpa [legal] using hl
    obtain ⟨hs, hr⟩ := hl'
    show Inv (readStart s)
    rw [readStart_eq]
    exact .ofPassive rfl rfl ha hr (by simp) hal ⟨by simp, fun _ => hs, by simp [awaitedConfig], by simp, by simp⟩
      (restart_ok _ _) h.txLen h.roleBits
  | closeCmd =>
    have hs : s.session = .opened := by simpa [legal] using hl
    show Inv (closeByRole s)
    unfold closeByRole
    cases hr : s.cfg.role
    · simp only [closeSender]
      rw [beginHandshake_eq]
      split
      · exact .ofReady rfl rfl rfl rfl h.recog sup_cap (by simp)
      · next hm =>
        exact .ofAttempt rfl rfl ⟨rfl, rfl, hr, by simp [acceptCommand], retry_pos hm, le_refl _, le_refl _⟩ rfl rfl
          ⟨by simp [acceptCommand], fun _ => hs, by simp [acceptCommand, hr, awaitedConfig], by simp, by simp [acceptCommand]⟩
          (restart_ok _ _) sup_cap h.roleBits
    · simp only [closeReceiver_eq]
      exact .ofPassive rfl rfl ha hr (by simp) hal ⟨by simp, fun _ => hs, by simp [awaitedConfig, hr], by simp, by simp⟩
        (restart_ok _ _) h.txLen h.roleBits

/-- What WRITE can have latched (R132, R165). -/
theorem ack_latch {n : Bit} {c : Byte} (h : accepts (cfgAck n).acc c = true) :
    c = cRr (flipBit n) ∨ c = cRej 0#1 ∨ c = cRej 1#1 := by
  revert h; revert c n; decide

/-- An engine rule keeps it, run on the recognizer as Done left it. -/
theorem Inv.recognised {s : State} (h : Inv s) (hb : s.busy = true) {r : Recognizer} (hr : RecogOk r) (hc : r.conf = s.recog.conf)
    (hcl : accepts r.conf.acc r.cLatch = true) :
    Inv (frameRecognised { s with recog := r }) := by
  have hbo := h.busy hb
  have ready : ∀ t : State, t.busy = false → t.phase = .ready → t.timer.armed = false → t.timer.alarm = false →
      t.recog = r → t.txLen.toNat ≤ Config.txbufCap → (t.session = .opened → (t.cfg.role = .receiver → t.ns = 0#1) ∧ (t.cfg.role = .sender → t.nr = 0#1)) → Inv t := by
    intro t h1 h2 h3 h4 h5 h6 h7
    exact .ofReady h1 h2 h3 h4 (h5 ▸ hr) h6 h7
  unfold frameRecognised
  cases hop : s.op with
  | openCmd =>
    cases hro : s.cfg.role
    · exact ready _ rfl rfl rfl rfl rfl h.txLen (by simp [openSenderDone, sessionOpens_eq])
    · simp only [openReceiverDone_eq]
      exact ready _ rfl rfl rfl rfl rfl sup_cap (by simp)
  | writeCmd =>
    have hs := hbo.inSession (by simp [hop])
    have hph : s.phase = .awaitingResponse := by
      rcases h.phases with e | e | e
      · have := h.busyIff.mpr e; rw [hb] at this; cases this
      · exact e
      · exact absurd hop (h.passive e).2.2
    have hao := h.armed (h.timed hph)
    simp only [writeAnswered]
    split
    · simp only [writeAccepted_eq]
      refine ready _ rfl rfl rfl rfl rfl h.txLen ?_
      intro _
      have := h.roleBits hs
      have hro := hao.role
      simp [setPhase, hro, this.2 hro]
    · split
      · simp only [writeRejected, startAttempt_eq]
        exact .ofAttempt hb rfl ⟨hb, rfl, hao.role, by simp [setPhase, loadRetry], le_trans hao.retryPos hao.retryLe, le_refl _, le_refl _⟩ rfl rfl
          ⟨by simp [setPhase, loadRetry], fun _ => hs, by simp [setPhase, loadRetry, awaitedConfig], by simp,
            fun _ => hbo.payload hop⟩ (restart_ok _ _) h.txLen h.roleBits
      · next h1 h2 =>
        exfalso
        have hcc : r.conf = cfgAck s.ns := by rw [hc, hbo.conf, hop]; rfl
        rw [hcc] at hcl
        rcases ack_latch hcl with e | e | e
        · exact h1 e
        · exact h2 (.inl e)
        · exact h2 (.inr e)
  | readCmd =>
    have hs := hbo.inSession (by simp [hop])
    have hrole : s.cfg.role = .receiver := by
      rcases h.phases with e | e | e
      · have := h.busyIff.mpr e; rw [hb] at this; cases this
      · exact absurd hop (h.armed (h.timed e)).op
      · exact (h.passive e).2.1
    have hbits := (h.roleBits hs).1 hrole
    simp only [readRecognised]
    split
    · split
      · simp only [readAccepts_eq]
        exact ready _ rfl rfl rfl rfl rfl sup_cap (by simp [hrole, hbits])
      · simp only [readRejects_eq]
        exact ready _ rfl rfl rfl rfl rfl sup_cap (by simp [hrole, hbits])
    · simp only [readDuplicate_eq]
      exact ready _ rfl rfl rfl rfl rfl sup_cap (by simp [hrole, hbits])
  | closeCmd =>
    cases hro : s.cfg.role
    · simp only [closeSenderDone_eq]
      exact ready _ rfl rfl rfl rfl rfl sup_cap (by simp)
    · simp only [closeReceiverDone_eq]
      exact ready _ rfl rfl rfl rfl rfl sup_cap (by simp)

/-- A Timeout keeps it. -/
theorem Inv.timeout {s : State} (h : Inv s) (hd : timeoutDue s = true) : Inv (timeoutEvent s) := by
  have hm := ((timeoutDue_iff s).mp hd).1
  have ha := h.armed hm
  have hbo := h.busy ha.busy
  have hle := spendRetry_le s.retry
  by_cases hop : s.op = .writeCmd
  · have hs := hbo.inSession (by simp [hop])
    rw [timeoutEvent_write hop]
    split
    · exact .ofReady rfl rfl rfl rfl h.recog h.txLen h.roleBits
    · next hz =>
      exact .ofAttempt ha.busy rfl ⟨ha.busy, rfl, ha.role, by simp [hop], retry_pos hz, le_trans hle ha.retryLe, le_refl _⟩ rfl rfl
          ⟨by simp [hop], fun _ => hs, by simp [hop, awaitedConfig], by simp,
            fun _ => hbo.payload hop⟩ (restart_ok _ _) h.txLen h.roleBits
  · have hop2 : s.op = .openCmd ∨ s.op = .closeCmd := by
      have := ha.op; cases e : s.op <;> simp_all
    rw [timeoutEvent_handshake hop2]
    split
    · exact .ofReady rfl rfl rfl rfl h.recog h.txLen (by simp)
    · next hz =>
      refine .ofAttempt ha.busy rfl ⟨ha.busy, rfl, ha.role, ha.op, retry_pos hz, le_trans hle ha.retryLe, le_refl _⟩ rfl rfl
          ⟨hbo.opening, hbo.inSession, ?_, by simp,
            fun e => absurd e hop⟩ (restart_ok _ _) h.txLen h.roleBits
      have hro := ha.role
      rcases hop2 with e | e <;> simp [e, hro, awaitedConfig]

/-- One byte keeps it. -/
theorem Inv.byte {s : State} (h : Inv s) (hp : polling s = true) (b : Byte) : Inv (rxByte b s) := by
  have hb := (polling_spec hp).1
  by_cases hd : (s.recog.take b).rxs = .done
  · have h0 := (h.busy hb).notDone
    rw [rxByte_done h0 hd]
    obtain ⟨h1, _, h3, _⟩ := Recognizer.take_done h0 hd
    have hl : accepts (s.recog.take b).conf.acc (s.recog.take b).cLatch = true := by
      rw [h3]; exact h.recog.latched (.inr h1)
    exact h.recognised hb (h.recog.take b) (Recognizer.take_conf b _) hl
  · rw [rxByte_quiet hd]; exact h.quiet hd

end Sys2Proof.Machine
end

