-- ==== Sys2Proof/Laws/PerInstr.lean ====
section
/-! SUPPORT. Laws stated of every instruction, one lemma per constructor. Delimited: FLAG delimits a frame and occurs
nowhere else in it (R93); an escape pair has none, and a host command has no wire bytes (R105). -/

namespace Sys2Proof.Laws.Delimited

open Sys2Proof Sys2Proof.Machine

/-- FLAG stands at the two ends of a well-formed frame and nowhere between; it is in no escape pair. -/
def Statement (i : Instr) : Prop :=
  i.wf = true →
    match i.header with
    | some _ => ∃ inner, i.wireBytes = some ([Config.flag] ++ inner ++ [Config.flag]) ∧ Config.flag ∉ inner
    | none => ∀ bs, i.wireBytes = some bs → Config.flag ∉ bs

theorem flag_notMem_header {a c : Byte} (ha : a = Config.aTx ∨ a = Config.aRx) (hc : (accBit c).isSome = true) :
    Config.flag ∉ [a, c, bcc1 a c] := by
  have h1 := addr_ne_flag ha
  have h2 := control_ne_flag hc
  have h3 := bcc1_ne_flag ha hc
  simp [Ne.symm h1, Ne.symm h2, Ne.symm h3]

theorem of_sup (a : Addr) {c : Byte} (hc : (accBit c).isSome = true) :
    ∃ inner, some (supFrame a.byte c) = some ([Config.flag] ++ inner ++ [Config.flag]) ∧ Config.flag ∉ inner :=
  ⟨[a.byte, c, bcc1 a.byte c], rfl, flag_notMem_header (addr_byte_cases a) hc⟩

theorem set (a : Addr) : Statement (.set a) := fun _ => of_sup a (by decide)
theorem ua (a : Addr) : Statement (.ua a) := fun _ => of_sup a (by decide)
theorem disc (a : Addr) : Statement (.disc a) := fun _ => of_sup a (by decide)
theorem rr (a : Addr) (n : Bit) : Statement (.rr a n) := fun _ => of_sup a (by rw [accBit_cRr]; rfl)
theorem rej (a : Addr) (n : Bit) : Statement (.rej a n) := fun _ => of_sup a (by rw [accBit_cRej]; rfl)

theorem info (a : Addr) (sb : Bit) (body : List BodyUnit) : Statement (.info a sb body) := by
  intro h
  refine ⟨[a.byte, cInfo sb, bcc1 a.byte (cInfo sb)] ++ bodyBytes body, rfl, ?_⟩
  have h1 := flag_notMem_header (c := cInfo sb) (addr_byte_cases a) (by rw [accBit_cInfo]; rfl)
  have h2 := flag_notMem_bodyBytes (bodyWf_spec h).2.2
  simp only [List.mem_append, not_or]
  exact ⟨h1, h2⟩

theorem escFlag : Statement .escFlag := fun _ bs h => by cases h; decide
theorem escEsc : Statement .escEsc := fun _ bs h => by cases h; decide
theorem openS : Statement .openS := fun _ _ h => by cases h
theorem openR : Statement .openR := fun _ _ h => by cases h
theorem write : Statement .write := fun _ _ h => by cases h
theorem read : Statement .read := fun _ _ h => by cases h
theorem closeS : Statement .closeS := fun _ _ h => by cases h
theorem closeR : Statement .closeR := fun _ _ h => by cases h

end Sys2Proof.Laws.Delimited
end

