-- ==== Sys2Proof/Laws/Progress.lean ====
section
/-! SUPPORT. How an operation in progress moves on: it goes on waiting, or it completes. Each engine rule, each byte, each
run of bytes and each Timeout does one of the two, and each says what it leaves alone. -/

namespace Sys2Proof.Machine

theorem doneCount_append (xs ys : List Output) : doneCount (xs ++ ys) = doneCount xs + doneCount ys := by
  induction xs with
  | nil => simp [doneCount]
  | cons o xs ih =>
    cases o with
    | done c k l => simp only [doneCount, List.cons_append, ih]; omega
    | _ => simpa only [doneCount, List.cons_append] using ih

theorem framesSent_append (xs ys : List Output) : framesSent (xs ++ ys) = framesSent xs ++ framesSent ys := by
  induction xs with
  | nil => rfl
  | cons o xs ih => cases o <;> simp [framesSent, ih]

/-- From s to t the operation in progress has gone on waiting; every frame sent on the way is TXBUF. -/
structure Waits (s t : State) : Prop where
  busy : t.busy = true
  op : t.op = s.op
  session : t.session = s.session
  ns : t.ns = s.ns
  nr : t.nr = s.nr
  result : t.result = s.result
  cfg : t.cfg = s.cfg
  txpay : t.txpay = s.txpay
  txpayLen : t.txpayLen = s.txpayLen
  txbuf : t.txbuf = s.txbuf
  txLen : t.txLen = s.txLen
  inputs : t.env.inputs = s.env.inputs
  outputs : ∃ pre, t.env.outputs = s.env.outputs ++ pre ∧ doneCount pre = 0 ∧ ∀ f ∈ framesSent pre, f = wireOperand s

/-- From s to t the operation in progress has completed, with one Done as its last output. -/
structure Completes (s t : State) : Prop where
  busy : t.busy = false
  phase : t.phase = .ready
  armed : t.timer.armed = false
  alarm : t.timer.alarm = false
  cfg : t.cfg = s.cfg
  txpay : t.txpay = s.txpay
  txpayLen : t.txpayLen = s.txpayLen
  inputs : t.env.inputs = s.env.inputs
  outputs : ∃ pre, t.env.outputs = s.env.outputs ++ (pre ++ [.done t.result.code t.result.kind t.result.len])
    ∧ doneCount pre = 0 ∧ (s.op = .writeCmd → ∀ f ∈ framesSent pre, f = wireOperand s)
  txbuf : s.op = .writeCmd → t.txbuf = s.txbuf ∧ t.txLen = s.txLen
  ns : t.ns = s.ns ∨ (t.ns = 0#1 ∧ s.op = .openCmd ∧ t.session = .opened)
    ∨ (t.ns = 1#1 - s.ns ∧ s.op = .writeCmd ∧ t.result = { code := .ok, kind := .written, len := s.txLen })
  nr : t.nr = s.nr ∨ (t.nr = 0#1 ∧ s.op = .openCmd ∧ t.session = .opened)
    ∨ (t.nr = 1#1 - s.nr ∧ s.op = .readCmd ∧ t.result.code = .ok ∧ t.result.kind = .delivered)

theorem wireOperand_congr {s t : State} (h1 : t.txbuf = s.txbuf) (h2 : t.txLen = s.txLen) : wireOperand t = wireOperand s := by
  simp [wireOperand, h1, h2]

theorem Waits.refl {s : State} (h : s.busy = true) : Waits s s :=
  ⟨h, rfl, rfl, rfl, rfl, rfl, rfl, rfl, rfl, rfl, rfl, rfl, [], by simp [doneCount, framesSent]⟩

theorem Waits.trans {s t u : State} (h : Waits s t) (k : Waits t u) : Waits s u := by
  obtain ⟨p, hp, hd, hf⟩ := h.outputs
  obtain ⟨q, hq, he, hg⟩ := k.outputs
  have hw := wireOperand_congr h.txbuf h.txLen
  refine ⟨k.busy, k.op.trans h.op, k.session.trans h.session, k.ns.trans h.ns, k.nr.trans h.nr, k.result.trans h.result,
    k.cfg.trans h.cfg, k.txpay.trans h.txpay, k.txpayLen.trans h.txpayLen, k.txbuf.trans h.txbuf, k.txLen.trans h.txLen,
    k.inputs.trans h.inputs, p ++ q, by rw [hq, hp, List.append_assoc], by rw [doneCount_append, hd, he], ?_⟩
  intro f hm
  rw [framesSent_append, List.mem_append] at hm
  rcases hm with hm | hm
  · exact hf f hm
  · rw [← hw]; exact hg f hm

theorem Waits.completes {s t u : State} (h : Waits s t) (k : Completes t u) : Completes s u := by
  obtain ⟨p, hp, hd, hf⟩ := h.outputs
  obtain ⟨q, hq, he, hg⟩ := k.outputs
  have hw := wireOperand_congr h.txbuf h.txLen
  have hns := k.ns
  have hnr := k.nr
  rw [h.ns, h.op, h.txLen] at hns
  rw [h.nr, h.op] at hnr
  refine ⟨k.busy, k.phase, k.armed, k.alarm, k.cfg.trans h.cfg, k.txpay.trans h.txpay, k.txpayLen.trans h.txpayLen,
    k.inputs.trans h.inputs, ⟨p ++ q, by rw [hq, hp]; simp, by rw [doneCount_append, hd, he], ?_⟩, ?_, hns, hnr⟩
  · intro hop f hm
    rw [framesSent_append, List.mem_append] at hm
    rcases hm with hm | hm
    · exact hf f hm
    · rw [← hw]; exact hg (h.op.trans hop) f hm
  · intro hop
    have := k.txbuf (h.op.trans hop)
    exact ⟨this.1.trans h.txbuf, this.2.trans h.txLen⟩

/-- A change of recognizer, phase, timer flags or queue is no move of the operation. -/
theorem Waits.quiet {s : State} (h : s.busy = true) (r : Recognizer) (q : List Byte) :
    Waits s { s with recog := r, env := { s.env with rxQueue := q } } :=
  ⟨h, rfl, rfl, rfl, rfl, rfl, rfl, rfl, rfl, rfl, rfl, rfl, [], by simp [doneCount, framesSent]⟩

/-- An engine rule goes on waiting or completes. -/
theorem recognised_moves {s : State} (hb : s.busy = true) (r : Recognizer) :
    Waits s (frameRecognised { s with recog := r }) ∨ Completes s (frameRecognised { s with recog := r }) := by
  unfold frameRecognised
  cases hop : s.op with
  | openCmd =>
    right
    cases hro : s.cfg.role
    · exact ⟨rfl, rfl, rfl, rfl, rfl, rfl, rfl, rfl, ⟨[], by simp [openSenderDone, sessionOpens_eq, doneCount, framesSent]⟩,
        by simp [hop], .inr (.inl ⟨rfl, hop, rfl⟩), .inr (.inl ⟨rfl, hop, rfl⟩)⟩
    · simp only [openReceiverDone_eq]
      exact ⟨rfl, rfl, rfl, rfl, rfl, rfl, rfl, rfl, ⟨[_], List.append_assoc _ _ _, by simp [doneCount], by simp [hop]⟩,
        by simp [hop], .inr (.inl ⟨rfl, hop, rfl⟩), .inr (.inl ⟨rfl, hop, rfl⟩)⟩
  | writeCmd =>
    simp only [writeAnswered]
    split
    · right
      simp only [writeAccepted_eq]
      exact ⟨rfl, rfl, rfl, rfl, rfl, rfl, rfl, rfl, ⟨[], rfl, rfl, by simp [framesSent]⟩, fun _ => ⟨rfl, rfl⟩,
        .inr (.inr ⟨rfl, hop, rfl⟩), .inl rfl⟩
    · left
      split
      · simp only [writeRejected, startAttempt_eq]
        exact ⟨hb, hop.symm, rfl, rfl, rfl, rfl, rfl, rfl, rfl, rfl, rfl, rfl, [_], rfl, by simp [doneCount], by
          simp [framesSent]; rfl⟩
      · exact ⟨hb, hop.symm, rfl, rfl, rfl, rfl, rfl, rfl, rfl, rfl, rfl, rfl, [], by simp [doneCount, framesSent]⟩
  | readCmd =>
    right
    simp only [readRecognised]
    split
    · split
      · simp only [readAccepts_eq]
        exact ⟨rfl, rfl, rfl, rfl, rfl, rfl, rfl, rfl, ⟨[_], List.append_assoc _ _ _, by simp [doneCount], by simp [hop]⟩,
          by simp [hop], .inl rfl, .inr (.inr ⟨rfl, hop, rfl, rfl⟩)⟩
      · simp only [readRejects_eq]
        exact ⟨rfl, rfl, rfl, rfl, rfl, rfl, rfl, rfl, ⟨[_], List.append_assoc _ _ _, by simp [doneCount], by simp [hop]⟩,
          by simp [hop], .inl rfl, .inl rfl⟩
    · simp only [readDuplicate_eq]
      exact ⟨rfl, rfl, rfl, rfl, rfl, rfl, rfl, rfl, ⟨[_], List.append_assoc _ _ _, by simp [doneCount], by simp [hop]⟩,
          by simp [hop], .inl rfl, .inl rfl⟩
  | closeCmd =>
    right
    cases hro : s.cfg.role
    · simp only [closeSenderDone_eq]
      exact ⟨rfl, rfl, rfl, rfl, rfl, rfl, rfl, rfl, ⟨[.tx (supFrame Config.aRx Config.cUa), .chanClose], by simp, by simp [doneCount], by simp [hop]⟩,
          by simp [hop], .inl rfl, .inl rfl⟩
    · simp only [closeReceiverDone_eq]
      exact ⟨rfl, rfl, rfl, rfl, rfl, rfl, rfl, rfl, ⟨[.tx (supFrame Config.aRx Config.cDisc), .chanClose], by simp, by simp [doneCount], by simp [hop]⟩,
          by simp [hop], .inl rfl, .inl rfl⟩

/-- One byte goes on waiting or completes. -/
theorem byte_moves {s : State} (hb : s.busy = true) (b : Byte) : Waits s (rxByte b s) ∨ Completes s (rxByte b s) := by
  unfold rxByte
  simp only
  split
  · exact recognised_moves hb _
  · exact .inl (Waits.quiet hb _ s.env.rxQueue)

/-- What is true of an operation that waited and perhaps completed stays true while bytes arrive. -/
def Moved (s t : State) : Prop := Waits s t ∨ Completes s t

theorem Moved.queue {s t : State} (h : Moved s t) (q : List Byte) : Moved s { t with env := { t.env with rxQueue := q } } := by
  rcases h with h | h
  · exact .inl (h.trans (Waits.quiet h.busy t.recog q))
  · exact .inr ⟨h.busy, h.phase, h.armed, h.alarm, h.cfg, h.txpay, h.txpayLen, h.inputs, h.outputs, h.txbuf, h.ns, h.nr⟩

theorem Moved.byte {s t : State} (h : Moved s t) (b : Byte) (hp : polling t = true) : Moved s (rxByte b t) := by
  rcases h with h | h
  · rcases byte_moves h.busy b with k | k
    · exact .inl (h.trans k)
    · exact .inr (h.completes k)
  · have := (polling_spec hp).1
    rw [h.busy] at this; cases this

/-- A run of bytes goes on waiting or completes. -/
theorem deliver_moves {s : State} (hb : s.busy = true) (bs : List Byte) : Moved s (deliver bs s) :=
  deliver_keeps (P := Moved s) (fun _ q h => h.queue q) (fun _ b h hp => h.byte b hp) bs s (.inl (Waits.refl hb))

theorem poll_moves {s : State} (hb : s.busy = true) : Moved s (pollOnce s) :=
  pollOnce_keeps (P := Moved s) (fun _ q h => h.queue q) (fun _ b h hp => h.byte b hp) s (.inl (Waits.refl hb))

/-- A Timeout goes on waiting or completes; READ has none (R182). -/
theorem timeout_moves {s : State} (hb : s.busy = true) (hop : s.op ≠ .readCmd) : Moved s (timeoutEvent s) := by
  by_cases hw : s.op = .writeCmd
  · rw [timeoutEvent_write hw]
    split
    · exact .inr ⟨rfl, rfl, rfl, rfl, rfl, rfl, rfl, rfl, ⟨[], rfl, rfl, by simp [framesSent]⟩, fun _ => ⟨rfl, rfl⟩,
        .inl rfl, .inl rfl⟩
    · exact .inl ⟨hb, rfl, rfl, rfl, rfl, rfl, rfl, rfl, rfl, rfl, rfl, rfl, [_], rfl, by simp [doneCount], by simp [framesSent]⟩
  · rw [timeoutEvent_handshake (by cases e : s.op <;> simp_all)]
    split
    · exact .inr ⟨rfl, rfl, rfl, rfl, rfl, rfl, rfl, rfl, ⟨[_], List.append_assoc _ _ _, by simp [doneCount], fun e => absurd e hw⟩,
        fun e => absurd e hw, .inl rfl, .inl rfl⟩
    · exact .inl ⟨hb, rfl, rfl, rfl, rfl, rfl, rfl, rfl, rfl, rfl, rfl, rfl, [_], rfl, by simp [doneCount], by simp [framesSent]⟩

/-- Bytes that reach an LLC that is not busy are queued or lost (R66). -/
theorem deliver_ready {s : State} (hb : s.busy = false) (bs : List Byte) :
    ∃ q, deliver bs s = { s with env := { s.env with rxQueue := q } } := by
  have hp : polling s = false := by simp [polling, hb]
  unfold deliver
  split
  · exact ⟨_, drain_notPolling hp⟩
  · exact ⟨s.env.rxQueue, rfl⟩

theorem poll_ready {s : State} (hb : s.busy = false) : pollOnce s = s := by
  have hp : polling s = false := by simp [polling, hb]
  unfold pollOnce
  split
  · rfl
  · rw [if_neg (by simp [hp])]

/-- What a command of a machine that is Ready does to the rest of it: its own registers, TXBUF and the outputs, and a
Done only when it completes at once. -/
structure Starts (s t : State) : Prop where
  cfg : t.cfg = s.cfg
  txpay : t.txpay = s.txpay
  txpayLen : t.txpayLen = s.txpayLen
  ns : t.ns = s.ns
  nr : t.nr = s.nr
  inputs : t.env.inputs = s.env.inputs
  outputs : ∃ new, t.env.outputs = s.env.outputs ++ new ∧
    ((doneCount new = 0 ∧ t.result = s.result ∧ t.busy = true)
      ∨ (doneCount new = 1 ∧ t.busy = false ∧ t.phase = .ready ∧ t.timer.armed = false ∧ t.timer.alarm = false
        ∧ new.getLast? = some (.done t.result.code t.result.kind t.result.len)))

theorem beginHandshake_starts {s t : State} (conf : RecConfig) (a c : Byte) (hb : t.busy = true) (h1 : t.cfg = s.cfg)
    (h2 : t.txpay = s.txpay) (h3 : t.txpayLen = s.txpayLen) (h4 : t.ns = s.ns) (h5 : t.nr = s.nr)
    (h6 : t.env.inputs = s.env.inputs) (h7 : t.result = s.result)
    (ho : ∃ pre, t.env.outputs = s.env.outputs ++ pre ∧ doneCount pre = 0) :
    Starts s (beginHandshake conf (buildSup a c t)) := by
  obtain ⟨pre, hp, hd⟩ := ho
  rw [beginHandshake_eq]
  split
  · exact ⟨h1, h2, h3, h4, h5, h6, pre ++ [.chanClose] ++ [.done .handshakeFailed .none 0#12], by simp [hp],
      .inr (by simp [doneCount_append, hd, doneCount])⟩
  · exact ⟨h1, h2, h3, h4, h5, h6, pre ++ [.tx (supFrame a c)], by simp [hp],
      .inl ⟨by simp [doneCount_append, hd, doneCount], h7, hb⟩⟩

/-- The start of a legal command. -/
theorem start_starts {op : Op} {s : State} (hl : legal op s = true) : Starts s (start op s) := by
  cases op with
  | openCmd =>
    show Starts s (openByRole s)
    unfold openByRole
    split
    · simp only [openSender]
      split
      · exact beginHandshake_starts _ _ _ rfl rfl rfl rfl rfl rfl rfl rfl ⟨[_], rfl, rfl⟩
      · exact ⟨rfl, rfl, rfl, rfl, rfl, rfl, [_, _], List.append_assoc _ _ _, .inr ⟨rfl, rfl, rfl, rfl, rfl, rfl⟩⟩
    · simp only [openReceiver]
      split
      · exact ⟨rfl, rfl, rfl, rfl, rfl, rfl, [_], rfl, .inl ⟨rfl, rfl, rfl⟩⟩
      · exact ⟨rfl, rfl, rfl, rfl, rfl, rfl, [_, _], List.append_assoc _ _ _, .inr ⟨rfl, rfl, rfl, rfl, rfl, rfl⟩⟩
  | writeCmd =>
    have hn : s.txpayLen.toNat ≤ Config.maxPayload := by
      have : (s.session = .opened ∧ s.cfg.role = .sender) ∧ s.txpayLen.toNat ≤ Config.maxPayload := by simpa [legal] using hl
      exact this.2
    show Starts s (writeStart s)
    rw [writeStart_eq s hn]
    split
    · exact ⟨rfl, rfl, rfl, rfl, rfl, rfl, [_], rfl, .inr ⟨rfl, rfl, rfl, rfl, rfl, rfl⟩⟩
    · exact ⟨rfl, rfl, rfl, rfl, rfl, rfl, [_], rfl, .inl ⟨rfl, rfl, rfl⟩⟩
  | readCmd => exact ⟨rfl, rfl, rfl, rfl, rfl, rfl, [], (List.append_nil _).symm, .inl ⟨rfl, rfl, rfl⟩⟩
  | closeCmd =>
    show Starts s (closeByRole s)
    unfold closeByRole
    split
    · exact beginHandshake_starts _ _ _ rfl rfl rfl rfl rfl rfl rfl rfl ⟨[], by simp [acceptCommand], rfl⟩
    · exact ⟨rfl, rfl, rfl, rfl, rfl, rfl, [], (List.append_nil _).symm, .inl ⟨rfl, rfl, rfl⟩⟩

/-- A command in a state where BUSY = 0 starts, or is refused, which is a completion too (R237). -/
theorem command_starts {op : Op} {s : State} (hI : Inv s) (hb : s.busy = false) :
    Starts s (hostCommand (legal op s) (start op) s) := by
  cases hl : legal op s
  · rw [hc_bad hb, illegal_eq]
    obtain ⟨hp, ha⟩ := hI.ready hb
    exact ⟨rfl, rfl, rfl, rfl, rfl, rfl, [_], rfl, .inr ⟨rfl, hb, hp, ha, hI.alarm, rfl⟩⟩
  · rw [hc_run hb]; exact start_starts hl

/-- Everything an event does, told for the whole machine: a Reset; while BUSY = 1, the operation moves on or nothing but
the timer and the environment change; while BUSY = 0, a command, a host write, or a move of the environment. -/
theorem event_moves {i : Input} {s t : State} (he : Event i s t) (h : Inv s) :
    i = .reset ∨ (s.busy = true ∧ (Moved s t ∨ t = { s with env := t.env, timer := t.timer } ∧ t.env.outputs = s.env.outputs))
      ∨ (s.busy = false ∧ ((∃ op, i = .cmd op) ∧ Starts s t ∨ isCfgWrite i = true ∧ t = { s with cfg := t.cfg } ∧ (t.cfg ≠ s.cfg → s.session = .closed)
        ∨ (∃ k b, i = .putTxpay k b) ∧ t = { s with txpay := t.txpay } ∨ (∃ n, i = .putTxpayLen n) ∧ t = { s with txpayLen := t.txpayLen }
        ∨ t = { s with env := t.env } ∧ t.env.outputs = s.env.outputs ∧ t.env.inputs = s.env.inputs)) := by
  cases he with
  | reset => exact .inl rfl
  | cmd op =>
    right
    rcases Bool.eq_false_or_eq_true s.busy with hb | hb; rotate_left
    · exact .inr ⟨hb, .inl ⟨⟨op, rfl⟩, command_starts h hb⟩⟩
    · left
      rw [show hostCommand (legal op s) (start op) s = s from by simp [hostCommand, hb]]
      exact ⟨hb, .inr ⟨rfl, rfl⟩⟩
  | bytes bs => 
    right
    rcases Bool.eq_false_or_eq_true s.busy with hb | hb; rotate_left
    · obtain ⟨q, hq⟩ := deliver_ready hb bs
      rw [hq]
      exact .inr ⟨hb, .inr (.inr (.inr (.inr ⟨rfl, rfl, rfl⟩)))⟩
    · exact .inl ⟨hb, .inl (deliver_moves hb bs)⟩
  | poll => 
    right
    rcases Bool.eq_false_or_eq_true s.busy with hb | hb; rotate_left
    · rw [poll_ready hb]
      exact .inr ⟨hb, .inr (.inr (.inr (.inr ⟨rfl, rfl, rfl⟩)))⟩
    · exact .inl ⟨hb, .inl (poll_moves hb)⟩
  | tick hd => 
    right
    rcases Bool.eq_false_or_eq_true s.busy with hb | hb; rotate_left
    · have ha := (h.ready hb).2
      refine .inr ⟨hb, .inr (.inr (.inr (.inr ?_)))⟩
      simp [tickTimer, ha]
    · refine .inl ⟨hb, .inr ?_⟩
      unfold tickTimer; split <;> exact ⟨rfl, rfl⟩
  | timeout _ _ hi hd =>
    right
    have ha := h.armed ((timeoutDue_iff s).mp hd).1
    exact .inl ⟨ha.busy, .inl (timeout_moves ha.busy ha.op)⟩
  | notDue => 
    right
    rcases Bool.eq_false_or_eq_true s.busy with hb | hb; rotate_left
    · exact .inr ⟨hb, .inr (.inr (.inr (.inr ⟨rfl, rfl, rfl⟩)))⟩
    · exact .inl ⟨hb, .inr ⟨rfl, rfl⟩⟩
  | cfg _ c _ hi => 
    right
    unfold writeCfg
    rcases Bool.eq_false_or_eq_true s.busy with hb | hb; rotate_left
    · refine .inr ⟨hb, .inr (.inl ⟨hi, ?_⟩)⟩
      split
      · next hc => exact ⟨rfl, fun _ => hc.1⟩
      · exact ⟨rfl, by simp⟩
    · refine .inl ⟨hb, .inr ?_⟩
      rw [if_neg (by simp [hb])]; exact ⟨rfl, rfl⟩
  | txpay k b _ hk hb =>
    right; right; exact ⟨hb, .inr (.inr (.inl ⟨⟨k, b, rfl⟩, rfl⟩))⟩
  | txpayBusy _ _ _ hb => right; left; exact ⟨hb, .inr ⟨rfl, rfl⟩⟩
  | txpayLen n => 
    right
    unfold writeTxpayLen
    rcases Bool.eq_false_or_eq_true s.busy with hb | hb; rotate_left
    · rw [if_neg (by simp [hb])]; exact .inr ⟨hb, .inr (.inr (.inr (.inl ⟨⟨n, rfl⟩, rfl⟩)))⟩
    · rw [if_pos hb]; exact .inl ⟨hb, .inr ⟨rfl, rfl⟩⟩
  | env _ _ e ho hi => 
    right
    rcases Bool.eq_false_or_eq_true s.busy with hb | hb; rotate_left
    · exact .inr ⟨hb, .inr (.inr (.inr (.inr ⟨rfl, ho, hi⟩)))⟩
    · exact .inl ⟨hb, .inr ⟨rfl, ho⟩⟩

end Sys2Proof.Machine
end

