-- ==== Sys2Proof/Tests/Slice0.lean ====
section
/-! SUPPORT. The model's own tests: the WellFormed smoke test, words written out from the spec's encodings, one-step
vectors taken from spec/95_test_vectors.md, and for every statement with hypotheses a witness that meets them. -/

namespace Sys2Proof.Tests

open Sys2Proof Sys2Proof.Machine

/-! ### Small states -/

/-- What an outcome holds; the reset state where it holds none. -/
def nextOf (o : Host.Outcome State Fault Refusal) : State :=
  match o with
  | .next t => t
  | .fault _ => State.reset
  | .refused _ => State.reset

/-- The state after one instruction, and after one input. -/
def after (i : Instr) (s : State) : State := nextOf (exec i s)
def afterInput (i : Input) (s : State) : State := nextOf (step { s with env := { s.env with inputs := [i] } })

/-- A machine with a role, a retry budget and a session, its port open. -/
def machine (role : Role) (retries : BitVec 8) (session : Session) : State :=
  { State.reset with
    session := session
    cfg := { role := role, maxRetries := retries, timeout := 0#8, port := 0, baud := 0#32 }
    env := { Env.initial with portOpen := true } }

/-- The same with a payload in TXPAY. -/
def withPayload (p : List Byte) (s : State) : State :=
  { s with txpay := Memory.writeList [] 0 p, txpayLen := BitVec.ofNat 12 p.length }

def sender : State := machine .sender 3#8 .opened
def receiver : State := machine .receiver 3#8 .opened
def closedSender : State := machine .sender 3#8 .closed
def closedReceiver : State := machine .receiver 3#8 .closed
def writing : State := after .write (withPayload [0x11#8] sender)
def reading : State := after .read receiver
def openingS : State := after .openS closedSender
def openingR : State := after .openR closedReceiver
def closingS : State := after .closeS sender
def closingR : State := after .closeR receiver

/-- The registers a trace of 95_test_vectors.md shows: SESSION, NS, NR, BUSY, PHASE, RXS. -/
def shown (s : State) : Session × Bit × Bit × Bool × Phase × Rxs := (s.session, s.ns, s.nr, s.busy, s.phase, s.recog.rxs)

/-! ### WellFormed -/

theorem test_wf_empty_body : (Instr.info .tx 0#1 []).wf = false := by decide
theorem test_wf_plain_flag : (Instr.info .tx 0#1 [.plain 0x7E#8]).wf = false := by decide
theorem test_wf_plain_esc : (Instr.info .tx 0#1 [.plain 0x7D#8]).wf = false := by decide
theorem test_wf_escaped_flag : (Instr.info .tx 0#1 [.escaped 0x7E#8]).wf = false := by decide
theorem test_wf_too_long : (Instr.info .tx 0#1 (List.replicate 1002 (.plain 0x00#8))).wf = false := by
  have h : ¬ (List.replicate 1002 (BodyUnit.plain 0x00#8)).length ≤ Config.rxbufCap := by
    rw [List.length_replicate]; decide
  simp only [Instr.wf, bodyWf, h, decide_false, Bool.and_false, Bool.false_and]
theorem test_wf_longest : (Instr.info .tx 0#1 (List.replicate 1001 (.plain 0x00#8))).wf = true := by
  have h : (List.replicate 1001 (BodyUnit.plain 0x00#8)).length ≤ Config.rxbufCap := by
    rw [List.length_replicate]; decide
  have h2 : (List.replicate 1001 (BodyUnit.plain 0x00#8)).all BodyUnit.wf = true := by
    rw [List.all_replicate]; decide
  have h3 : (List.replicate 1001 (BodyUnit.plain 0x00#8)).isEmpty = false := by
    rw [List.isEmpty_replicate]; decide
  simp only [Instr.wf, bodyWf, h, h2, h3, decide_true, Bool.and_true, Bool.not_false]

/-! ### Decoding: words written out from R81, R82, R85, R91, R105 (V2.25 to V2.40) -/

theorem test_decode_set : decodeWire [0x7E#8, 0x03#8, 0x03#8, 0x00#8, 0x7E#8] = .ok (.set .tx) := by decide
theorem test_decode_ua : decodeWire [0x7E#8, 0x01#8, 0x07#8, 0x06#8, 0x7E#8] = .ok (.ua .rx) := by decide
theorem test_decode_disc : decodeWire [0x7E#8, 0x01#8, 0x0B#8, 0x0A#8, 0x7E#8] = .ok (.disc .rx) := by decide
theorem test_decode_rr : decodeWire [0x7E#8, 0x03#8, 0x85#8, 0x86#8, 0x7E#8] = .ok (.rr .tx 1#1) := by decide
theorem test_decode_rej : decodeWire [0x7E#8, 0x03#8, 0x01#8, 0x02#8, 0x7E#8] = .ok (.rej .tx 0#1) := by decide
theorem test_decode_info :
    decodeWire [0x7E#8, 0x03#8, 0x40#8, 0x43#8, 0x41#8, 0x7D#8, 0x5E#8, 0x00#8, 0x7E#8]
      = .ok (.info .tx 1#1 [.plain 0x41#8, .escaped 0x5E#8, .plain 0x00#8]) := by decide
theorem test_decode_pairs : decodeWire [0x7D#8, 0x5E#8] = .ok .escFlag ∧ decodeWire [0x7D#8, 0x5D#8] = .ok .escEsc := by
  decide
theorem test_decode_host :
    decodeHost 0b000#3 = .ok .openS ∧ decodeHost 0b001#3 = .ok .write ∧ decodeHost 0b011#3 = .ok .closeS
      ∧ decodeHost 0b100#3 = .ok .openR ∧ decodeHost 0b110#3 = .ok .read ∧ decodeHost 0b111#3 = .ok .closeR := by decide

/-! What is no instruction is rejected by name (R86, R98, R99; V2.56 to V2.60). -/

theorem test_reject_checksum1 : decodeWire [0x7E#8, 0x03#8, 0x00#8, 0x02#8, 0x41#8, 0x41#8, 0x7E#8] = .error .badChecksum1 := by
  decide
theorem test_reject_control : decodeWire [0x7E#8, 0x03#8, 0x20#8, 0x23#8, 0x41#8, 0x41#8, 0x7E#8] = .error .badControl := by
  decide
theorem test_reject_address : decodeWire [0x7E#8, 0x02#8, 0x03#8, 0x01#8, 0x7E#8] = .error .badAddress := by decide
theorem test_reject_unpaired : decodeWire [0x7E#8, 0x03#8, 0x00#8, 0x03#8, 0x41#8, 0x7D#8, 0x7E#8] = .error .unpairedEscape := by
  decide
theorem test_reject_empty : decodeWire [0x7E#8, 0x03#8, 0x00#8, 0x03#8, 0x7E#8] = .error .emptyBody := by decide

/-! The opcode table's words, as it numbers their bits. -/

theorem test_table_frames :
    decodeTableWord 24 0x030300 = some (.set .tx) ∧ decodeTableWord 24 0x010706 = some (.ua .rx)
      ∧ decodeTableWord 24 0x03 = some (.set .tx) ∧ decodeTableWord 24 0x80 = none := by decide
theorem test_table_pairs : decodeTableWord 16 0x7D5E = some .escFlag ∧ decodeTableWord 16 0x7D5D = some .escEsc := by decide
theorem test_table_host : decodeTableWord 8 0x1 = some .write ∧ decodeTableWord 8 0x6 = some .read := by decide
theorem test_fetch_runs : step (State.reset.withFetchWord 8 0x4) = exec .openR { State.reset with
    cfg := { State.reset.cfg with role := .receiver } } := rfl

/-! ### The codec (V2.8, V2.9, V2.16, V2.21, V2.22, V2.36, V2.52, V2.53, V2.59) -/

theorem test_bcc2 : bcc2 [0x7E#8, 0x01#8, 0x7D#8] = 0x02#8 ∧ bcc2 [0xFF#8, 0x81#8] = 0x7E#8 := by decide
theorem test_stuff : stuff [0x7E#8, 0x01#8, 0x7D#8] = [0x7D#8, 0x5E#8, 0x01#8, 0x7D#8, 0x5D#8] := by decide
theorem test_destuff : destuff [0x7D#8, 0x7D#8] = some [0x5D#8] ∧ destuff [0x7D#8, 0x41#8] = some [0x61#8] := by decide
/-- Where R115 defines no value the model gives none (log 26). -/
theorem test_destuff_none : destuff [0x7D#8] = none ∧ destuff [0x41#8, 0x7E#8] = none ∧ destuff [0x7D#8, 0x7E#8] = none := by
  decide
theorem test_infoFrame : infoFrame 0x03#8 0#1 [0x7E#8, 0x01#8, 0x7D#8] =
    [0x7E#8, 0x03#8, 0x00#8, 0x03#8, 0x7D#8, 0x5E#8, 0x01#8, 0x7D#8, 0x5D#8, 0x02#8, 0x7E#8] := by decide
theorem test_parse_good : parseInfo [0x7E#8, 0x03#8, 0x40#8, 0x43#8, 0x41#8, 0x42#8, 0x43#8, 0x40#8, 0x7E#8]
    = .frame 1#1 [0x41#8, 0x42#8, 0x43#8] true := by decide
theorem test_parse_bad : parseInfo [0x7E#8, 0x03#8, 0x00#8, 0x03#8, 0x48#8, 0x4B#8, 0x01#8, 0x7E#8]
    = .frame 0#1 [0x48#8, 0x4B#8] false := by decide
theorem test_parse_unpaired : parseInfo [0x7E#8, 0x03#8, 0x00#8, 0x03#8, 0x41#8, 0x7D#8, 0x7E#8] = .malformed := by decide

/-! ### The recognizer (V3.1, V3.14, V3.15, V3.16) -/

def idleUnder (conf : RecConfig) : Recognizer := State.reset.recog.restart conf

/-- RXS after each byte. -/
def trace (r : Recognizer) : List Byte → List Rxs
  | [] => []
  | b :: bs => (r.take b).rxs :: trace (r.take b) bs

theorem test_recognizer_set :
    trace (idleUnder cfgSet) [0x00#8, 0x7E#8, 0x7E#8, 0x03#8, 0x03#8, 0x00#8, 0x7E#8]
      = [.idle, .delimiterSeen, .delimiterSeen, .addressSeen, .controlSeen, .checksumVerified, .done] := by decide
theorem test_recognizer_empty_body :
    trace (idleUnder cfgInfo) [0x7E#8, 0x03#8, 0x00#8, 0x03#8, 0x7E#8, 0x03#8, 0x00#8, 0x03#8, 0x00#8, 0x7E#8]
      = [.delimiterSeen, .addressSeen, .controlSeen, .checksumVerified, .delimiterSeen, .addressSeen, .controlSeen,
        .checksumVerified, .checksumVerified, .done] := by decide
theorem test_recognizer_dangling :
    trace (idleUnder cfgInfo) [0x7E#8, 0x03#8, 0x00#8, 0x03#8, 0x41#8, 0x7D#8, 0x7E#8]
      = [.delimiterSeen, .addressSeen, .controlSeen, .checksumVerified, .checksumVerified, .checksumVerified,
        .delimiterSeen] := by decide
theorem test_recognizer_escape : receivedPayload ((idleUnder cfgInfo).takeAll
    [0x7E#8, 0x03#8, 0x00#8, 0x03#8, 0x7D#8, 0x41#8, 0x61#8, 0x7E#8]) = [0x61#8] := by decide

/-! ### Instructions, one step each -/

/-- V4.1. -/
theorem test_write : shown writing = (.opened, 0#1, 0#1, true, .awaitingResponse, .idle)
    ∧ writing.env.outputs = [.tx [0x7E#8, 0x03#8, 0x00#8, 0x03#8, 0x11#8, 0x11#8, 0x7E#8]] ∧ writing.retry = 3#8 := by decide
theorem test_write_status : writing.status = 0x1027#16 := by decide
/-- V4.8. -/
theorem test_write_no_budget :
    (after .write (withPayload [0x01#8] (machine .sender 0#8 .opened))).env.outputs = [.done .maxRetriesExceeded .none 0#12] := by
  decide
theorem test_rr : shown (after (.rr .tx 1#1) writing) = (.opened, 1#1, 0#1, false, .ready, .done)
    ∧ (after (.rr .tx 1#1) writing).result.bits = 0x0F8#17 := by decide
theorem test_rr_status : (after (.rr .tx 1#1) writing).status = 0x0685#16 := by decide
/-- V4.2: RR(NS) is ignored. -/
theorem test_rr_ignored : shown (after (.rr .tx 0#1) writing) = (.opened, 0#1, 0#1, true, .awaitingResponse, .delimiterSeen) := by
  decide
/-- V4.4. -/
theorem test_rej : (after (.rej .tx 1#1) writing).env.outputs =
    [.tx [0x7E#8, 0x03#8, 0x00#8, 0x03#8, 0x11#8, 0x11#8, 0x7E#8], .tx [0x7E#8, 0x03#8, 0x00#8, 0x03#8, 0x11#8, 0x11#8, 0x7E#8]]
    ∧ shown (after (.rej .tx 1#1) writing) = (.opened, 0#1, 0#1, true, .awaitingResponse, .idle) := by decide
/-- V4.6, the first Timeout. -/
theorem test_timeout : (afterInput .timeout writing).retry = 2#8
    ∧ (afterInput .timeout writing).env.outputs.length = 2 := by decide
/-- V4.7. -/
theorem test_timeout_last : (afterInput .timeout { writing with retry := 1#8 }).result.bits = 0x003#17 := by decide
/-- V5.1. -/
theorem test_info_new : (after (.info .tx 0#1 [.plain 0x48#8, .plain 0x49#8, .plain 0x01#8]) reading).env.outputs =
    [.tx [0x7E#8, 0x03#8, 0x85#8, 0x86#8, 0x7E#8], .done .ok .delivered 2#12]
    ∧ (after (.info .tx 0#1 [.plain 0x48#8, .plain 0x49#8, .plain 0x01#8]) reading).hostPayload = some [0x48#8, 0x49#8] := by decide
theorem test_info_status :
    (after (.info .tx 0#1 [.plain 0x48#8, .plain 0x49#8, .plain 0x01#8]) reading).status = 0x0A89#16 := by decide
/-- V5.2 and V5.4. -/
theorem test_info_bad : (after (.info .tx 0#1 [.plain 0x99#8, .plain 0x98#8]) reading).env.outputs =
    [.tx [0x7E#8, 0x03#8, 0x01#8, 0x02#8, 0x7E#8], .done .checksumMismatch .none 0#12] := by decide
theorem test_info_duplicate : (after (.info .tx 1#1 [.plain 0x99#8, .plain 0x98#8]) reading).env.outputs =
    [.tx [0x7E#8, 0x03#8, 0x05#8, 0x06#8, 0x7E#8], .done .ok .duplicate 0#12] := by decide
/-- S6 (scenario A). -/
theorem test_openS : openingS.env.outputs = [.chanOpen 0 0#32, .tx [0x7E#8, 0x03#8, 0x03#8, 0x00#8, 0x7E#8]]
    ∧ shown openingS = (.closed, 0#1, 0#1, true, .awaitingResponse, .idle) := by decide
theorem test_openR : openingR.env.outputs = [.chanOpen 0 0#32]
    ∧ shown openingR = (.closed, 0#1, 0#1, true, .awaitingCommand, .idle) := by decide
theorem test_set : (after (.set .tx) openingR).env.outputs =
    [.chanOpen 0 0#32, .tx [0x7E#8, 0x03#8, 0x07#8, 0x04#8, 0x7E#8], .done .ok .none 0#12]
    ∧ shown (after (.set .tx) openingR) = (.opened, 0#1, 0#1, false, .ready, .done) := by decide
theorem test_ua : shown (after (.ua .tx) openingS) = (.opened, 0#1, 0#1, false, .ready, .done)
    ∧ (after (.ua .tx) openingS).retry = 3#8 := by decide
/-- V3.6 and V3.8. -/
theorem test_disc_sender : (after (.disc .rx) closingS).env.outputs =
    [.tx [0x7E#8, 0x03#8, 0x0B#8, 0x08#8, 0x7E#8], .tx [0x7E#8, 0x01#8, 0x07#8, 0x06#8, 0x7E#8], .chanClose, .done .ok .none 0#12] := by
  decide
theorem test_disc_receiver : (after (.disc .tx) closingR).env.outputs =
    [.tx [0x7E#8, 0x01#8, 0x0B#8, 0x0A#8, 0x7E#8], .chanClose, .done .ok .none 0#12] := by decide
/-- R207, R211. -/
theorem test_closeS : shown closingS = (.opened, 0#1, 0#1, true, .awaitingResponse, .idle) := by decide
theorem test_closeR : shown closingR = (.opened, 0#1, 0#1, true, .awaitingCommand, .idle) ∧ closingR.env.outputs = [] := by decide
/-- R181. -/
theorem test_read : shown reading = (.opened, 0#1, 0#1, true, .awaitingCommand, .idle) ∧ reading.env.outputs = [] := by decide
/-- V4.11, V5.12: refused commands. -/
theorem test_illegal : (after .write closedSender).result.bits = 0x006#17 ∧ (after .read sender).result.bits = 0x006#17
    ∧ (after .openS sender).result.bits = 0x006#17 := by decide

/-- An LLC in a READ that has seen a good header (V3.16). -/
def inBody : State := { reading with recog := (idleUnder cfgInfo).takeAll [0x7E#8, 0x03#8, 0x00#8, 0x03#8] }
theorem test_escFlag : Memory.firstBytes (after .escFlag inBody).recog.rxbuf 1 = [0x7E#8] ∧ (after .escFlag inBody).recog.rxLen = 1#12 := by
  decide
theorem test_escEsc : Memory.firstBytes (after .escEsc inBody).recog.rxbuf 1 = [0x7D#8] ∧ (after .escEsc inBody).recog.rxLen = 1#12 := by
  decide

/-! ### Witnesses: for every statement with hypotheses, states and operands that meet them -/

theorem machine_inv (role : Role) (n : BitVec 8) (se : Session) : Inv (machine role n se) :=
  .ofReady rfl rfl rfl rfl (RecogOk.restart State.reset.recog.conf State.reset.recog) (by decide : (0#12 : Len).toNat ≤ Config.txbufCap) (fun _ => ⟨fun _ => rfl, fun _ => rfl⟩)

theorem withPayload_inv {s : State} (h : Inv s) (hb : s.busy = false) (p : List Byte) : Inv (withPayload p s) :=
  .ofReady hb (h.ready hb).1 (h.ready hb).2 h.alarm h.recog h.txLen h.roleBits

theorem sender_inv : Inv sender := machine_inv _ _ _
theorem receiver_inv : Inv receiver := machine_inv _ _ _
theorem writing_inv : Inv writing := (withPayload_inv sender_inv rfl _).start rfl .writeCmd rfl
theorem reading_inv : Inv reading := receiver_inv.start rfl .readCmd rfl
theorem openingS_inv : Inv openingS := (machine_inv .sender 3#8 .closed).start rfl .openCmd rfl
theorem openingR_inv : Inv openingR := (machine_inv .receiver 3#8 .closed).start rfl .openCmd rfl
theorem closingS_inv : Inv closingS := sender_inv.start rfl .closeCmd rfl
theorem closingR_inv : Inv closingR := receiver_inv.start rfl .closeCmd rfl

/-- The same LLC with inputs to come. -/
def given (is : List Input) (s : State) : State := { s with env := { s.env with inputs := is } }

theorem witness_waits_open_sender : WaitsFor .openCmd openingS ∧ openingS.cfg.role = .sender :=
  ⟨⟨openingS_inv, rfl, rfl, rfl, rfl, by decide⟩, rfl⟩
theorem witness_waits_open_receiver : WaitsFor .openCmd openingR ∧ openingR.cfg.role = .receiver :=
  ⟨⟨openingR_inv, rfl, rfl, rfl, rfl, by decide⟩, rfl⟩
theorem witness_waits_write : WaitsFor .writeCmd writing ∧ writing.cfg.role = .sender :=
  ⟨⟨writing_inv, rfl, rfl, rfl, rfl, by decide⟩, rfl⟩
theorem witness_waits_read : WaitsFor .readCmd reading ∧ reading.cfg.role = .receiver :=
  ⟨⟨reading_inv, rfl, rfl, rfl, rfl, by decide⟩, rfl⟩
theorem witness_waits_close_sender : WaitsFor .closeCmd closingS ∧ closingS.cfg.role = .sender :=
  ⟨⟨closingS_inv, rfl, rfl, rfl, rfl, by decide⟩, rfl⟩
theorem witness_waits_close_receiver : WaitsFor .closeCmd closingR ∧ closingR.cfg.role = .receiver :=
  ⟨⟨closingR_inv, rfl, rfl, rfl, rfl, by decide⟩, rfl⟩

theorem witness_DecodeUndoesEncode : (Instr.info .tx 1#1 [.escaped 0x41#8]).wf = true
    ∧ (Instr.info .tx 0#1 (List.replicate 1001 (.plain 0x00#8))).wf = true := ⟨by decide, test_wf_longest⟩

theorem witness_EncodeUndoesDecode : decode (.wire [0x7E#8, 0x03#8, 0x00#8, 0x03#8, 0x7D#8, 0x41#8, 0x7E#8])
    = .ok (.info .tx 0#1 [.escaped 0x41#8]) := by decide

theorem witness_BuildInfo : (List.replicate 1000 (0x7E#8 : Byte)).length ≤ Config.maxPayload ∧ ([] : List Byte).length ≤ Config.maxPayload := by
  rw [List.length_replicate]; decide

theorem witness_BufferReads : ([0x11#8, 0x22#8] : List Byte)[1]? = some 0x22#8 ∧ Memory.wf [(0, 0x33#8), (7, 0x44#8)]
    ∧ (4 < 5 ∨ 5 + [0x11#8, 0x22#8].length ≤ 4) ∧ (7 < 5 ∨ 5 + ([0x11#8, 0x22#8] : List Byte).length ≤ 7) := by decide

theorem witness_header_states : (idleUnder cfgInfo).rxs = .idle
    ∧ ((idleUnder cfgInfo).takeAll [0x7E#8]).rxs = .delimiterSeen
    ∧ ((idleUnder cfgInfo).takeAll [0x7E#8, 0x03#8]).rxs = .addressSeen
    ∧ ((idleUnder cfgInfo).takeAll [0x7E#8, 0x03#8, 0x40#8]).rxs = .controlSeen
    ∧ ((idleUnder cfgUa).takeAll [0x7E#8, 0x03#8, 0x07#8, 0x04#8]).rxs = .checksumVerified ∧ (idleUnder cfgUa).conf.kind = .sup := by
  decide

/-- A recognizer in a body with n bytes, for the clauses about bodies at their boundaries. -/
def bodyAt (n : Len) (esc : Bool) : Recognizer := { idleUnder cfgInfo with rxs := .checksumVerified, rxLen := n, escPend := esc }

theorem witness_BodyIsDestuffed : (bodyAt 1000#12 true).rxs = .checksumVerified ∧ (bodyAt 1000#12 true).conf.kind = .info
    ∧ (0x41#8 : Byte) ≠ Config.flag ∧ (bodyAt 1000#12 true).rxLen.toNat < Config.rxbufCap
    ∧ ((bodyAt 1001#12 false).rxLen.toNat = Config.rxbufCap ∧ (bodyAt 1001#12 false).escPend = false ∧ Config.esc ≠ Config.flag)
    ∧ Config.flag ∉ ([0x41#8, 0x7D#8, 0x5E#8] : List Byte)
    ∧ ((bodyAt 0#12 false).takeAll [0x41#8, 0x7D#8, 0x5E#8]).rxs = .checksumVerified
    ∧ ((bodyAt 0#12 false).takeAll [0x41#8, 0x7D#8, 0x5E#8]).escPend = false := by decide

theorem witness_BodyEnds : ((bodyAt 0#12 false).rxLen = 0#12 ∧ (bodyAt 0#12 false).escPend = false)
    ∧ (bodyAt 0#12 true).escPend = true
    ∧ ((bodyAt 1001#12 false).rxLen.toNat = Config.rxbufCap ∧ (0x41#8 : Byte) ≠ Config.flag ∧ (0x41#8 : Byte) ≠ Config.esc)
    ∧ ((bodyAt 1001#12 true).rxLen.toNat = Config.rxbufCap ∧ (bodyAt 1001#12 true).escPend = true)
    ∧ (1 ≤ (bodyAt 1#12 false).rxLen.toNat ∧ (bodyAt 1#12 false).escPend = false) := by decide

theorem headerState_idle {conf : RecConfig} (h : conf.expA = Config.aTx ∨ conf.expA = Config.aRx) : HeaderState (idleUnder conf) :=
  ⟨.inl rfl, h, fun e => by cases e⟩

theorem witness_Resynchronises : (HeaderState (idleUnder cfgUa) ∧ acceptsFrame cfgUa (.ua .tx) = true ∧ cfgUa.kind = .sup)
    ∧ (HeaderState (idleUnder cfgInfo) ∧ acceptsFrame cfgInfo (.info .tx 1#1 [.plain 0x00#8]) = true ∧ cfgInfo.kind = .info) :=
  ⟨⟨headerState_idle (.inl rfl), by decide, rfl⟩, headerState_idle (.inl rfl), by decide, rfl⟩

theorem witness_ParseInfo : HeaderState (idleUnder cfgInfo) ∧ (idleUnder cfgInfo).conf = cfgInfo
    ∧ Config.flag ∉ ([0x03#8, 0x00#8, 0x03#8, 0x48#8, 0x4B#8, 0x01#8] : List Byte)
    ∧ Config.flag ∉ ([0x03#8, 0x00#8, 0x03#8, 0x41#8, 0x7D#8] : List Byte) :=
  ⟨headerState_idle (.inl rfl), rfl, by decide, by decide⟩

theorem witness_OpenSender : (closedSender.busy = false ∧ closedSender.cfg.role = .sender ∧ closedSender.session = .closed
      ∧ closedSender.env.shimOk = true ∧ closedSender.cfg.maxRetries ≠ 0#8)
    ∧ (machine .sender 0#8 .closed).cfg.maxRetries = 0#8 ∧ sender.session = .opened := by decide
theorem witness_OpenReceiver : (closedReceiver.busy = false ∧ closedReceiver.cfg.role = .receiver ∧ closedReceiver.session = .closed
      ∧ closedReceiver.env.shimOk = true) ∧ receiver.session = .opened := by decide
theorem witness_ByRole : (closedReceiver.busy = false ∧ closedReceiver.cfg.role = .receiver ∧ closedReceiver.session = .closed
      ∧ closedReceiver.env.shimOk = true ∧ receiver.busy = false ∧ receiver.cfg.role = .receiver ∧ receiver.session = .opened)
    ∧ closedSender.busy = false ∧ closedSender.cfg.role = .sender ∧ closedSender.cfg.maxRetries ≠ 0#8
    ∧ closedSender.session = .closed ∧ closedSender.env.shimOk = true
    ∧ sender.busy = false ∧ sender.cfg.role = .sender ∧ sender.cfg.maxRetries ≠ 0#8 ∧ sender.session = .opened := by decide
theorem witness_OpenWithoutPort : ∃ s : State, s.busy = false ∧ s.session = .closed ∧ s.env.shimOk = false :=
  ⟨{ State.reset with env := { Env.initial with shimOk := false } }, rfl, rfl, rfl⟩
theorem witness_Write : (sender.busy = false ∧ sender.session = .opened ∧ sender.cfg.role = .sender ∧ sender.cfg.maxRetries ≠ 0#8)
    ∧ ({ sender with txpayLen := 1000#12 } : State).txpayLen.toNat ≤ Config.maxPayload
    ∧ (machine .sender 0#8 .opened).cfg.maxRetries = 0#8 := by decide
theorem witness_Read : receiver.busy = false ∧ receiver.session = .opened ∧ receiver.cfg.role = .receiver := by decide
theorem witness_CloseSender : (sender.busy = false ∧ sender.cfg.role = .sender ∧ sender.session = .opened ∧ sender.cfg.maxRetries ≠ 0#8)
    ∧ (machine .sender 0#8 .opened).cfg.maxRetries = 0#8 ∧ closedSender.session = .closed := by decide
theorem witness_CloseReceiver : receiver.busy = false ∧ receiver.cfg.role = .receiver ∧ receiver.session = .opened
    ∧ closedReceiver.session = .closed := by decide

theorem witness_Illegal : (given [.cmd .openCmd] sender).env.inputs = .cmd .openCmd :: [] ∧ sender.busy = false
    ∧ sender.session = .opened ∧ closedSender.session = .closed ∧ receiver.cfg.role = .receiver ∧ sender.cfg.role = .sender
    ∧ Config.maxPayload < ({ sender with txpayLen := 1001#12 } : State).txpayLen.toNat := by decide
theorem witness_CommandsWhileBusy : (given [.cmd .readCmd] writing).env.inputs = .cmd .readCmd :: []
    ∧ (given [.cmd .readCmd] writing).busy = true := by decide

theorem witness_frames_ignored : WaitsFor .writeCmd writing
    ∧ ¬ (Op.writeCmd = .openCmd ∧ writing.cfg.role = .receiver ∧ Addr.tx = .tx)
    ∧ ¬ (Op.writeCmd = .writeCmd ∧ Addr.tx = .tx ∧ (0#1 : Bit) = 1#1 - writing.ns)
    ∧ ¬ (Op.writeCmd = .writeCmd ∧ Addr.rx = .tx) ∧ WaitsFor .readCmd reading
    ∧ ¬ (Op.readCmd = .closeCmd ∧ reading.cfg.role = .receiver ∧ Addr.tx = .tx) :=
  ⟨witness_waits_write.1, by decide, by decide, by decide, witness_waits_read.1, by decide⟩

theorem witness_NewGood : bodyWf [.plain 0x48#8, .plain 0x49#8, .plain 0x01#8] = true
    ∧ bodyValues [.plain 0x48#8, .plain 0x49#8, .plain 0x01#8] = [0x48#8, 0x49#8] ++ [bcc2 [0x48#8, 0x49#8]]
    ∧ bodyWf [.plain 0x00#8] = true ∧ bodyValues [.plain 0x00#8] = [] ++ [bcc2 []] := by decide
theorem witness_NewBad : bodyWf [.plain 0x99#8, .plain 0x98#8] = true
    ∧ bodyValues [.plain 0x99#8, .plain 0x98#8] = [0x99#8] ++ [0x98#8] ∧ bcc2 [0x99#8] ≠ 0x98#8 := by decide
theorem witness_Unaccepted : WaitsFor .writeCmd writing ∧ (Instr.disc .tx).wf = true ∧ (Instr.disc .tx).header ≠ none
    ∧ acceptsFrame writing.recog.conf (.disc .tx) = false := ⟨witness_waits_write.1, by decide, by decide, by decide⟩
theorem witness_Malformed : WaitsFor .readCmd reading
    ∧ ([.plain Config.esc] : List BodyUnit) = [] ++ [.plain Config.esc] ∧ ([] : List BodyUnit).all BodyUnit.wf = true
    ∧ (List.replicate 1002 (BodyUnit.plain 0x00#8)).all BodyUnit.wf = true
    ∧ Config.rxbufCap < (List.replicate 1002 (BodyUnit.plain 0x00#8)).length := by
  refine ⟨witness_waits_read.1, rfl, rfl, ?_, ?_⟩
  · rw [List.all_replicate]; decide
  · rw [List.length_replicate]; decide
theorem witness_Escape : (polling inBody = true ∧ inBody.env.portOpen = true ∧ inBody.env.rxQueue = []
      ∧ inBody.recog.rxs = .checksumVerified ∧ inBody.recog.conf.kind = .info ∧ inBody.recog.escPend = false
      ∧ inBody.recog.rxLen.toNat < Config.rxbufCap)
    ∧ polling reading = true ∧ HeaderState reading.recog :=
  ⟨by decide, by decide, witness_waits_read.1.headerState⟩
theorem witness_Queued : (sender.env.portOpen = true ∧ polling sender = false)
    ∧ (∃ s : State, s.env.portOpen = true ∧ polling s = true ∧ s.env.rxQueue = 0x7E#8 :: []
      ∧ (rxByte 0x7E#8 s).env.portOpen = true)
    ∧ State.reset.env.portOpen = false :=
  ⟨by decide, ⟨{ reading with env := { reading.env with rxQueue := [0x7E#8] } }, by decide, by decide, by decide, by decide⟩, by decide⟩
theorem witness_Queued_poll : (given [.poll] reading).env.inputs = .poll :: [] ∧ polling (given [.poll] reading) = true
    ∧ (given [.poll] reading).env.rxQueue = [] ∧ polling (given [.poll] sender) = false
    ∧ step (given [.poll] { reading with env := { reading.env with rxQueue := [0x7E#8, 0x03#8] } })
        = .next { reading with
            recog := { reading.recog with rxs := .delimiterSeen }, env := { reading.env with rxQueue := [0x03#8] } } :=
  ⟨rfl, rfl, rfl, rfl, rfl⟩
/-- A closed port, an open one, and bytes on the line. -/
theorem witness_LineAndShim : (given [.lineDeliver] sender).env.inputs = .lineDeliver :: [] ∧ sender.env.lineIn = []
    ∧ sender.env.portOpen = true ∧ State.reset.env.portOpen = false
    ∧ step (given [.lineAlter 0x7F#8] { sender with env := { sender.env with lineIn := [0x7E#8, 0x03#8] } })
        = .next { sender with env := { sender.env with lineIn := [0x03#8], rxQueue := [0x7F#8] } }
    ∧ step (given [.lineTaken] { sender with env := { sender.env with lineOut := [0x7E#8, 0x03#8] } })
        = .next { sender with env := { sender.env with lineOut := [0x03#8] } } :=
  ⟨rfl, rfl, rfl, rfl, rfl, rfl⟩

/-- writing with a timeout of one second, so that TIMER is F_TICK, above 0. -/
def writingSlowly : State := after .write { sender with cfg := { sender.cfg with timeout := 1#8 } }

theorem witness_Timer : ((given [.tick] writingSlowly).env.inputs = .tick :: [] ∧ writingSlowly.timer.armed = true
      ∧ 0 < writingSlowly.timer.count)
    ∧ (sender.timer.armed = false ∧ (given [.timeout] sender).env.inputs = .timeout :: [])
    ∧ Inv writing ∧ timeoutDue writing = true := by
  refine ⟨⟨rfl, rfl, ?_⟩, ⟨rfl, rfl⟩, writing_inv, rfl⟩
  show 0 < Config.fTick * 1
  simp [Config.fTick]
theorem witness_TimeoutInWrite : (given [.timeout] writing).env.inputs = .timeout :: [] ∧ writing.op = .writeCmd
    ∧ writing.timer.armed = true ∧ writing.timer.count = 0 ∧ 1 < writing.retry.toNat
    ∧ ({ writing with retry := 1#8 } : State).retry.toNat = 1 := ⟨rfl, rfl, rfl, rfl, by decide, by decide⟩
theorem witness_TimeoutInHandshake : (openingS.op = .openCmd ∧ openingS.timer.armed = true ∧ openingS.timer.count = 0
      ∧ 1 < openingS.retry.toNat)
    ∧ closingS.op = .closeCmd ∧ closingS.timer.armed = true ∧ closingS.timer.count = 0
    ∧ ({ closingS with retry := 1#8 } : State).retry.toNat = 1 :=
  ⟨⟨rfl, rfl, rfl, by decide⟩, rfl, rfl, rfl, by decide⟩

theorem witness_StepRuns : (given [.wire [0x7D#8, 0x5E#8]] inBody).env.inputs = .wire [0x7D#8, 0x5E#8] :: []
    ∧ decode (.wire [0x7D#8, 0x5E#8]) = .ok .escFlag
    ∧ (given [.cmd .readCmd] receiver).env.inputs = .cmd .readCmd :: []
    ∧ decode (.host (hostWord receiver.cfg.role .readCmd)) = .ok .read ∧ decode (.host 4#3) = .ok .openR := by decide
theorem witness_ResetEvent : (given [.reset] writing).env.inputs = .reset :: [] := rfl

theorem given_inv {s : State} (h : Inv s) (is : List Input) : Inv (given is s) := h.setEnv _

/-- Steps of the invariant statements: an RR that completes a WRITE, a Timeout that sends again, a SET that opens. -/
theorem witness_Steps : (Inv (given [.wire (supFrame 0x03#8 0x85#8)] writing)
      ∧ step (given [.wire (supFrame 0x03#8 0x85#8)] writing) = exec (.rr .tx 1#1) writing
      ∧ exec (.rr .tx 1#1) writing = .next (after (.rr .tx 1#1) writing)
      ∧ (after (.rr .tx 1#1) writing).ns = 1#1 - writing.ns)
    ∧ (Inv (given [.timeout] writing) ∧ step (given [.timeout] writing) = .next (timeoutEvent writing))
    ∧ (Inv (given [.cmd .readCmd] receiver) ∧ step (given [.cmd .readCmd] receiver) = .next reading) := by
  refine ⟨⟨given_inv writing_inv _, rfl, rfl, by decide⟩, ⟨given_inv writing_inv _, ?_⟩, given_inv receiver_inv _, rfl⟩
  exact step_timeout rfl rfl
theorem witness_SequenceBits_read : Inv reading
    ∧ (after (.info .tx 0#1 [.plain 0x00#8]) reading).nr = 1#1 - reading.nr
    ∧ (after (.info .tx 0#1 [.plain 0x00#8]) reading).result.kind = .delivered := ⟨reading_inv, by decide, by decide⟩
theorem witness_Buffers : BuffersOk (given [.putTxpay 3 0x44#8] sender)
    ∧ step (given [.putTxpay 3 0x44#8] sender) = .next { sender with txpay := [(3, 0x44#8)] } :=
  ⟨⟨Memory.nil_wf, Memory.nil_wf, Memory.nil_wf⟩, rfl⟩
theorem witness_Configuration : (given [.putMaxRetries 5#8] closedSender).env.inputs = .putMaxRetries 5#8 :: []
    ∧ step (given [.putMaxRetries 5#8] closedSender) = .next (machine .sender 5#8 .closed)
    ∧ (machine .sender 5#8 .closed).cfg ≠ closedSender.cfg
    ∧ (given [.putTimeout 5#8] sender).env.inputs = .putTimeout 5#8 :: []
    ∧ (given [.putRole .receiver] sender).env.inputs = .putRole .receiver :: []
    ∧ (given [.putPort 1] sender).env.inputs = .putPort 1 :: []
    ∧ (given [.putBaud 9600#32] sender).env.inputs = .putBaud 9600#32 :: [] := ⟨rfl, rfl, by decide, rfl, rfl, rfl, rfl⟩
theorem witness_PayloadBuffer : (given [.putTxpay 999 0x44#8] sender).env.inputs = .putTxpay 999 0x44#8 :: [] ∧ 999 < Config.maxPayload
    ∧ sender.busy = false ∧ writing.busy = true ∧ (given [.putTxpayLen 7#12] sender).env.inputs = .putTxpayLen 7#12 :: [] := by decide
theorem witness_Quiescent : Inv (given [.lineInsert 0x7E#8] sender) ∧ sender.busy = false
    ∧ step (given [.lineInsert 0x7E#8] sender) = .next { sender with env := { sender.env with rxQueue := [0x7E#8] } } :=
  ⟨given_inv sender_inv _, rfl, rfl⟩
theorem witness_Retransmissions : Inv (given [.timeout] writing) ∧ (given [.timeout] writing).busy = true
    ∧ (given [.timeout] writing).op = .writeCmd ∧ ¬ (∃ rest, (given [.timeout] writing).env.inputs = .reset :: rest) :=
  ⟨given_inv writing_inv _, rfl, rfl, by simp [given]⟩
theorem witness_WrittenPayload : Inv (withPayload [0x7E#8, 0x01#8, 0x7D#8] sender) ∧ Inv receiver
    ∧ (withPayload [0x7E#8, 0x01#8, 0x7D#8] sender).txpayLen.toNat ≤ Config.maxPayload ∧ sender.env.portOpen = true
    ∧ sender.env.rxQueue = [] ∧ receiver.env.portOpen = true ∧ receiver.env.rxQueue = [] ∧ sender.ns = receiver.nr :=
  ⟨withPayload_inv sender_inv rfl _, receiver_inv, by decide, rfl, rfl, rfl, rfl, rfl⟩
theorem witness_Handshakes : (Inv closedSender ∧ Inv closedReceiver ∧ closedSender.session = .closed ∧ closedReceiver.session = .closed
      ∧ closedSender.env.shimOk = true ∧ closedReceiver.env.shimOk = true ∧ closedSender.cfg.maxRetries ≠ 0#8)
    ∧ Inv sender ∧ Inv receiver ∧ sender.env.portOpen = true ∧ receiver.env.portOpen = true :=
  ⟨⟨machine_inv _ _ _, machine_inv _ _ _, rfl, rfl, rfl, rfl, by decide⟩, sender_inv, receiver_inv, rfl, rfl⟩
/-- A link on which the left instance has sent a SET. -/
def link : Link := { left := openingS, right := openingR }
theorem witness_Channel : linkStep .carryRight link = .next
      { left := { openingS with env := { openingS.env with lineOut := [0x03#8, 0x03#8, 0x00#8, 0x7E#8] } }
        right := { openingR with env := { openingR.env with lineIn := [0x7E#8] } } }
    ∧ linkStep .carryLeft link = .next link ∧ linkStep .stepLeft link = .next link ∧ linkStep .stepRight link = .next link :=
  ⟨rfl, rfl, rfl, rfl⟩

end Sys2Proof.Tests
end

section
/-! SUPPORT. The host's windows STATUS and RESULT and the values after reset (spec/10_state.md): each field of a packed
register is the lowest one left once the fields under it are dropped. -/

namespace Sys2Proof.Machine

/-- A flag as one bit of a register. -/
theorem ofBool_eq_ite (b : Bool) : BitVec.ofBool b = if b = true then 1#1 else 0#1 := by
  cases b <;> rfl

/-- SESSION as one bit of STATUS (R38). -/
theorem Session.bits_eq_ite (x : Session) : x.bits = if x = .opened then 1#1 else 0#1 := by
  cases x <;> rfl

/-- Bits 9:0 of STATUS: the fields of several bits and the two flags under them (R38). -/
theorem State.status_low_fields (s : State) :
    s.status.extractLsb' 0 1 = s.session.bits ∧ s.status.extractLsb' 1 1 = BitVec.ofBool s.busy
      ∧ s.status.extractLsb' 2 2 = s.op.bits ∧ s.status.extractLsb' 4 3 = s.phase.bits
      ∧ s.status.extractLsb' 7 3 = s.recog.rxs.bits := by
  unfold State.status
  refine ⟨field_low _ _, ?_, ?_, ?_, ?_⟩
  all_goals simp only [BitVec.extractLsb'_append_eq_of_le, Nat.reduceLeDiff, Nat.reduceSub, field_low]

/-- Bits 15:10 of STATUS, one bit each (R38). -/
theorem State.status_high_fields (s : State) :
    s.status.extractLsb' 10 1 = s.ns ∧ s.status.extractLsb' 11 1 = s.nr
      ∧ s.status.extractLsb' 12 1 = BitVec.ofBool s.timer.armed ∧ s.status.extractLsb' 13 1 = BitVec.ofBool s.timer.alarm
      ∧ s.status.extractLsb' 14 1 = BitVec.ofBool s.recog.escPend ∧ s.status.extractLsb' 15 1 = 0#1 := by
  unfold State.status
  refine ⟨?_, ?_, ?_, ?_, ?_, ?_⟩
  all_goals simp only [BitVec.extractLsb'_append_eq_of_le, Nat.reduceLeDiff, Nat.reduceSub, field_low, field_all]

/-- The three fields of RESULT (R39). -/
theorem Result.bits_fields (r : Result) :
    r.bits.extractLsb' 0 3 = r.code.bits ∧ r.bits.extractLsb' 3 2 = r.kind.bits ∧ r.bits.extractLsb' 5 12 = r.len := by
  unfold Result.bits
  refine ⟨field_low _ _, ?_, ?_⟩
  · rw [field_above _ _ 0 rfl, field_low]
  · rw [field_above _ _ 2 rfl, field_above _ _ 0 rfl, field_all]

end Sys2Proof.Machine

open Sys2Proof Sys2Proof.Machine

/-- Settles O53: the fields taken out of the packed registers, then the values of their names, which are the tables of the
encodings. -/
theorem statusAndResultLayouts : Obligations.StatusAndResultLayouts := by
  refine ⟨fun s => ?_, Result.bits_fields, rfl, rfl, rfl, rfl, rfl⟩
  obtain ⟨hsession, hbusy, hop, hphase, hrxs⟩ := s.status_low_fields
  obtain ⟨hns, hnr, harmed, halarm, hesc, htop⟩ := s.status_high_fields
  simp only [← ofBool_eq_ite, ← Session.bits_eq_ite]
  exact ⟨hsession, hbusy, hop, hphase, hrxs, hns, hnr, harmed, halarm, hesc, htop⟩

/-- Settles O45: the reset state is written out field by field, each at the value of R47. -/
theorem resetValues : Obligations.ResetValues :=
  ⟨rfl, rfl, rfl, rfl, rfl, rfl, rfl, rfl, rfl, rfl, rfl, rfl, rfl, rfl, rfl, rfl⟩

end

section
/-! SUPPORT. What a WRITE in progress sends (spec/20_memory.md, R76): TXBUF stays as it was built, and each frame that goes
out is a copy of it. -/

namespace Sys2Proof.Machine

/-- From s to t TXBUF and TXLEN stay, and every frame sent on the way is TXBUF[0 .. TXLEN - 1] (R76). -/
def SendsItsTxbuf (s t : State) : Prop :=
  t.txbuf = s.txbuf ∧ t.txLen = s.txLen
    ∧ ∃ new : List Output, t.env.outputs = s.env.outputs ++ new ∧ ∀ f ∈ framesSent new, f = wireOperand s

/-- A move that leaves TXBUF, TXLEN and the outputs alone sends nothing. -/
theorem SendsItsTxbuf.silent {s t : State} (hb : t.txbuf = s.txbuf) (hl : t.txLen = s.txLen)
    (ho : t.env.outputs = s.env.outputs) : SendsItsTxbuf s t :=
  ⟨hb, hl, [], by simp [ho], by simp [framesSent]⟩

/-- An operation that goes on waiting sends only its TXBUF (R167, R168). -/
theorem Waits.sendsItsTxbuf {s t : State} (h : Waits s t) : SendsItsTxbuf s t := by
  obtain ⟨pre, hpre, -, hframes⟩ := h.outputs
  exact ⟨h.txbuf, h.txLen, pre, hpre, hframes⟩

/-- A WRITE that completes sends only its TXBUF: the Done it ends with is no frame (R166, R167). -/
theorem Completes.sendsItsTxbuf {s t : State} (h : Completes s t) (hop : s.op = .writeCmd) : SendsItsTxbuf s t := by
  obtain ⟨pre, hpre, -, hframes⟩ := h.outputs
  obtain ⟨htxbuf, htxLen⟩ := h.txbuf hop
  refine ⟨htxbuf, htxLen, _, hpre, ?_⟩
  rw [framesSent_append]
  simpa [framesSent] using hframes hop

/-- Every event but Reset, while a WRITE is in progress: host commands and host writes to TXPAY included, for they are
ignored while BUSY = 1. -/
theorem Event.sendsItsTxbuf {i : Input} {s t : State} (he : Event i s t) (hinv : Inv s) (hbusy : s.busy = true)
    (hop : s.op = .writeCmd) (hreset : i ≠ .reset) : SendsItsTxbuf s t := by
  obtain hr | ⟨-, (hwaits | hcompletes) | ⟨hrest, houtputs⟩⟩ | ⟨hidle, -⟩ := event_moves he hinv
  · exact absurd hr hreset
  · exact hwaits.sendsItsTxbuf
  · exact hcompletes.sendsItsTxbuf hop
  · exact .silent (by rw [hrest]) (by rw [hrest]) houtputs
  · simp [hbusy] at hidle

/-- A step of a WRITE in progress that takes no Reset. -/
theorem step_sendsItsTxbuf {s t : State} (hstep : step s = .next t) (hinv : Inv s) (hbusy : s.busy = true)
    (hop : s.op = .writeCmd) (hreset : ¬ ∃ rest, s.env.inputs = .reset :: rest) : SendsItsTxbuf s t := by
  obtain ⟨-, rfl⟩ | ⟨rest, -, hdue, rfl⟩ | ⟨i, rest, hinputs, he⟩ := step_cases hstep
  · exact .silent rfl rfl rfl
  · exact (Event.timeout .tick s (.inl rfl) hdue).sendsItsTxbuf hinv hbusy hop (by simp)
  · have hi : i ≠ .reset := fun hr => hreset ⟨rest, hr ▸ hinputs⟩
    exact he.sendsItsTxbuf (hinv.setEnv _) hbusy hop hi

end Sys2Proof.Machine

open Sys2Proof Sys2Proof.Machine

/-- Settles O56: a step without Reset is an event of a WRITE in progress, which goes on waiting, completes, or is silent;
TXBUF[0 .. TXLEN - 1] is the operand of each Tx. -/
theorem retransmissionsSendTheSameBytes : Obligations.RetransmissionsSendTheSameBytes :=
  fun _ _ hinv hbusy hop hreset hstep => step_sendsItsTxbuf hstep hinv hbusy hop hreset

end

section
/-! SUPPORT. Frames and escape pairs that complete nothing (spec/30_encoding.md): frames the configuration does not accept
(R97), bodies dropped after a good header (R99), and ESC inside and outside a body (R92). -/

namespace Sys2Proof.Machine

/-! ### Frames the configuration does not accept -/

/-- A frame is supervisory, with one of the control bytes of R86, or an information frame (R81, R82). -/
theorem frame_cases {i : Instr} (h : i.header ≠ none) :
    (∃ (a : Addr) (c : Byte), (accBit c).isSome = true ∧ i.header = some (a.byte, c)
        ∧ encode i = .wire (supFrame a.byte c))
      ∨ ∃ a sb body, i = .info a sb body := by
  cases i with
  | set a => exact .inl ⟨a, _, by rw [accBit_cSet]; rfl, rfl, rfl⟩
  | ua a => exact .inl ⟨a, _, by rw [accBit_cUa]; rfl, rfl, rfl⟩
  | disc a => exact .inl ⟨a, _, by rw [accBit_cDisc]; rfl, rfl, rfl⟩
  | rr a n => exact .inl ⟨a, _, by rw [accBit_cRr]; rfl, rfl, rfl⟩
  | rej a n => exact .inl ⟨a, _, by rw [accBit_cRej]; rfl, rfl, rfl⟩
  | info a sb body => exact .inr ⟨a, sb, body, rfl⟩
  | escFlag | escEsc | openS | openR | write | read | closeS | closeR => exact absurd rfl h

/-- Whether a frame is accepted is decided by the two bytes of its header (R95, R97). -/
theorem acceptsFrame_eq_false {conf : RecConfig} {i : Instr} {a c : Byte} (hh : i.header = some (a, c)) :
    acceptsFrame conf i = false ↔ ¬ (a = conf.expA ∧ accepts conf.acc c = true) := by
  simp [acceptsFrame, hh]

/-- A well-formed frame the awaited configuration does not accept leaves only a FLAG seen (R97). -/
theorem WaitsFor.ignores_frame {op : Op} {i : Instr} {s : State} (h : WaitsFor op s) (hwf : i.wf = true)
    (hframe : i.header ≠ none) (hn : acceptsFrame s.recog.conf i = false) :
    exec i s = .next { s with recog := s.recog.goTo .delimiterSeen } := by
  obtain ⟨a, c, hc, hheader, hbytes⟩ | ⟨a, sb, body, rfl⟩ := frame_cases hframe
  · rw [exec_wire hbytes, h.ignores_sup (addr_byte_cases a) hc ((acceptsFrame_eq_false hheader).mp hn)]
  · have hflag : Config.flag ∉ bodyBytes body := flag_notMem_bodyBytes (bodyWf_spec hwf).2.2
    rw [exec_wire rfl, h.ignores_info (addr_byte_cases a) hflag ((acceptsFrame_eq_false rfl).mp hn)]

/-! ### Bodies that are dropped -/

/-- The recognizer right after the good checksum-1 of an information frame (R138). -/
structure AtBodyStart (r : Recognizer) : Prop where
  rxs : r.rxs = .checksumVerified
  kind : r.conf.kind = .info
  escPend : r.escPend = false
  rxLen : r.rxLen = 0#12

/-- The bytes w are dropped: no frame is recognised, and what is left of them is a FLAG seen and whatever RXBUF holds
(R99, U2). -/
structure Drops (w : List Byte) (r : Recognizer) : Prop where
  never : NeverDone w r
  left : ∃ m : Memory, r.takeAll w = { r with rxs := .delimiterSeen, escPend := false, rxLen := 0#12, rxbuf := m }

/-- A good header of an information frame opens an empty body (R138). -/
theorem headerDone_info {r : Recognizer} (hk : r.conf.kind = .info) :
    r.headerDone = { r with rxs := .checksumVerified, rxLen := 0#12, escPend := false } := by
  simp [Recognizer.headerDone, hk]

/-- R99 (a): the end delimiter comes at once (R141). -/
theorem AtBodyStart.drops_empty {r : Recognizer} (h : AtBodyStart r) : Drops [Config.flag] r := by
  have htake : r.take Config.flag = r.goTo .delimiterSeen := by
    simp [Recognizer.take, h.rxs, h.kind, Recognizer.takeBody, h.escPend, h.rxLen]
  refine ⟨⟨by simp [h.rxs], by rw [htake]; simp [NeverDone, Recognizer.goTo]⟩, r.rxbuf, ?_⟩
  rw [Recognizer.takeAll_cons, htake, Recognizer.takeAll_nil, Recognizer.goTo, ← h.escPend, ← h.rxLen]

/-- R99 (c): past RXBUF_CAP the rest, up to the end delimiter, is skipped in Idle (R143). -/
theorem AtBodyStart.drops_overflow {r : Recognizer} (h : AtBodyStart r) {us : List BodyUnit}
    (hu : us.all BodyUnit.wf = true) (hl : Config.rxbufCap < us.length) {rest : List Byte} (hrest : Config.flag ∉ rest) :
    Drops (bodyBytes us ++ rest ++ [Config.flag]) r := by
  obtain ⟨hidle, hesc, hlen, hnever⟩ := Recognizer.takeAll_overflow hu h.rxs h.kind h.escPend
    (by simp [h.rxLen]) (by simpa [h.rxLen] using hl)
  have hlatch := body_latch hu h.rxs h.kind h.escPend
  have hconf := conf_takeAll (bodyBytes us) r
  generalize hq : r.takeAll (bodyBytes us) = q at *
  obtain ⟨hskip, hskips⟩ := Recognizer.takeAll_idle hidle hrest
  have hflag : q.take Config.flag = q.goTo .delimiterSeen := by simp [Recognizer.take, hidle]
  constructor
  · refine (hnever.append (hq ▸ hskips)).append ?_
    rw [Recognizer.takeAll_append, hq, hskip]
    exact ⟨by simp [hidle], by rw [hflag]; simp [NeverDone, Recognizer.goTo]⟩
  · refine ⟨q.rxbuf, ?_⟩
    rw [Recognizer.takeAll_append, Recognizer.takeAll_append, hq, hskip, Recognizer.takeAll_cons, hflag,
      Recognizer.takeAll_nil, Recognizer.goTo, ← hesc, ← hlen, ← hlatch, ← hconf]

/-- R99 (b): FLAG comes after an unpaired ESC (R142), if the body has not overflowed before. -/
theorem AtBodyStart.drops_unpaired {r : Recognizer} (h : AtBodyStart r) {us : List BodyUnit}
    (hu : us.all BodyUnit.wf = true) : Drops (bodyBytes us ++ [Config.esc] ++ [Config.flag]) r := by
  by_cases hl : Config.rxbufCap < us.length
  · exact h.drops_overflow hu hl (by decide)
  · obtain ⟨hbody, hnever⟩ := Recognizer.takeAll_body hu h.rxs h.kind h.escPend (by simpa [h.rxLen] using hl)
    generalize hq : r.takeAll (bodyBytes us) = q at *
    have hesc : q.take Config.esc = { q with escPend := true } := by
      simp [hbody, Recognizer.take, h.rxs, h.kind, Recognizer.takeBody, esc_ne_flag, h.escPend]
    have hflag : Recognizer.take Config.flag { q with escPend := true }
        = { q with escPend := false, rxLen := 0#12, rxs := .delimiterSeen } := by
      simp [hbody, Recognizer.take, h.rxs, h.kind, Recognizer.takeBody]
    rw [List.append_assoc, List.singleton_append]
    constructor
    · refine hnever.append ?_
      simp only [hq, NeverDone, hesc, hflag]
      simp [hbody, h.rxs]
    · refine ⟨q.rxbuf, ?_⟩
      rw [Recognizer.takeAll_append, hq, Recognizer.takeAll_cons, hesc, Recognizer.takeAll_cons, hflag,
        Recognizer.takeAll_nil, hbody]

/-- A frame with a good header and a dropped body moves only the recognizer (R99). -/
theorem WaitsFor.drops_info {op : Op} {s : State} (h : WaitsFor op s) (hk : s.recog.conf.kind = .info) {sb : Bit}
    (hc : accepts s.recog.conf.acc (cInfo sb) = true) {w : List Byte}
    (hw : ∀ r, AtBodyStart r → Drops (w ++ [Config.flag]) r) :
    ∃ m : Memory, deliver (infoWire s.recog.conf.expA sb w) s = { s with recog := { s.recog with
      rxs := .delimiterSeen, cLatch := cInfo sb, escPend := false, rxLen := 0#12, rxbuf := m } } := by
  have hheader := (Recognizer.takeAll_header h.headerState hc).1
  rw [headerDone_info (r := { s.recog with cLatch := cInfo sb }) hk] at hheader
  obtain ⟨hnever, m, hleft⟩ := hw { s.recog with
    cLatch := cInfo sb, rxs := .checksumVerified, rxLen := 0#12, escPend := false } ⟨rfl, hk, rfl, rfl⟩
  rw [← hheader] at hnever hleft
  refine ⟨m, ?_⟩
  rw [infoWire, List.append_assoc, deliver_quiet h.port h.queue h.polling ((header_never h.headerState hc).append hnever),
    Recognizer.takeAll_append, hleft, hheader]

/-- In READ every I header with address A_TX is good (R132). -/
theorem WaitsFor.drops_read {s : State} (h : WaitsFor .readCmd s) (sb : Bit) {body : List BodyUnit}
    (hw : ∀ r, AtBodyStart r → Drops (bodyBytes body ++ [Config.flag]) r) :
    ∃ m : Memory, exec (.info .tx sb body) s = .next { s with recog := { s.recog with
      rxs := .delimiterSeen, cLatch := cInfo sb, escPend := false, rxLen := 0#12, rxbuf := m } } := by
  have hconf : s.recog.conf = cfgInfo := h.conf
  have hacc : accepts s.recog.conf.acc (cInfo sb) = true := by
    rw [hconf, cfgInfo_accepts]
    rcases bit_cases sb with rfl | rfl <;> simp
  have hexpA : s.recog.conf.expA = Addr.tx.byte := by rw [hconf]; rfl
  obtain ⟨m, hm⟩ := h.drops_info (by rw [hconf]; rfl) hacc hw
  exact ⟨m, by rw [exec_wire rfl, ← hexpA, hm]⟩

/-! ### ESC inside and outside a body -/

/-- A body byte with room for it is stored at RXLEN (R140). -/
theorem append_of_room {r : Recognizer} (h : r.rxLen.toNat < Config.rxbufCap) (v : Byte) :
    r.append v = { r with rxbuf := Memory.write r.rxbuf r.rxLen.toNat v, rxLen := r.rxLen + 1#12 } := by
  simp [Recognizer.append, h]

/-- ESC and any byte but FLAG, inside a body with room (R92). -/
theorem deliver_escaped {s : State} (hp : polling s = true) (ho : s.env.portOpen = true) (hq : s.env.rxQueue = [])
    (hx : s.recog.rxs = .checksumVerified) (hk : s.recog.conf.kind = .info) (he : s.recog.escPend = false)
    (hl : s.recog.rxLen.toNat < Config.rxbufCap) {x : Byte} (hxf : x ≠ Config.flag) :
    deliver [Config.esc, x] s = { s with recog := { s.recog with
      rxbuf := Memory.write s.recog.rxbuf s.recog.rxLen.toNat (x ^^^ Config.xmask), rxLen := s.recog.rxLen + 1#12 } } := by
  have hu : (BodyUnit.escaped x).wf = true := by simp [BodyUnit.wf, hxf]
  have htake : s.recog.takeAll [Config.esc, x] = s.recog.append (x ^^^ Config.xmask) :=
    Recognizer.takeAll_unit hx hk he hu
  have hnever : NeverDone [Config.esc, x] s.recog := Recognizer.neverDone_unit hx hk he hu
  rw [deliver_quiet ho hq hp hnever, htake, append_of_room hl]

theorem accepts_esc (acc : BitVec 9) : accepts acc Config.esc = false := by
  have : accBit Config.esc = none := by decide
  simp [accepts, this]

/-- No checksum-1 of a control byte under either address is ESC (R10). -/
theorem bcc1_ne_esc {a c : Byte} (ha : a = Config.aTx ∨ a = Config.aRx) (hc : (accBit c).isSome = true) :
    bcc1 a c ≠ Config.esc := by
  rcases ha with rfl | rfl <;> revert c <;> decide

/-- Outside a body ESC is an unexpected byte: it leads to Idle, or leaves it there (R92, R134). -/
theorem take_esc_outside {r : Recognizer}
    (h : HeaderState r ∨ (r.rxs = .checksumVerified ∧ r.conf.kind = .sup)) : r.take Config.esc = r.goTo .idle := by
  rcases h with h | ⟨hr, hk⟩
  · rcases h.rxs with hr | hr | hr | hr
    · rw [Recognizer.take_idle_skip hr esc_ne_flag, Recognizer.goTo, ← hr]
    · have hne : Config.esc ≠ r.conf.expA := by
        rcases h.expA with e | e <;> rw [e] <;> decide
      simp [Recognizer.take, hr, Recognizer.expect, hne, esc_ne_flag]
    · simp [Recognizer.take, hr, Recognizer.expect, accepts_esc, esc_ne_flag]
    · have hne := bcc1_ne_esc h.expA (accepts_control (h.latched hr))
      simp [Recognizer.take, hr, Recognizer.expect, hne.symm, esc_ne_flag]
  · simp [Recognizer.take, hr, hk, esc_ne_flag]

/-- ESC and any byte but FLAG, outside a body (R92). -/
theorem deliver_escaped_outside {s : State} (hp : polling s = true) (ho : s.env.portOpen = true)
    (hq : s.env.rxQueue = []) (h : HeaderState s.recog ∨ (s.recog.rxs = .checksumVerified ∧ s.recog.conf.kind = .sup))
    {x : Byte} (hxf : x ≠ Config.flag) :
    deliver [Config.esc, x] s = { s with recog := s.recog.goTo .idle } := by
  have hesc := take_esc_outside h
  have hskip : (s.recog.goTo .idle).take x = s.recog.goTo .idle := Recognizer.take_idle_skip rfl hxf
  have hstart : s.recog.rxs ≠ .done := by
    rcases h with h | ⟨hr, -⟩
    · rcases h.rxs with e | e | e | e <;> simp [e]
    · simp [hr]
  have hnever : NeverDone [Config.esc, x] s.recog := by
    simp only [NeverDone, hesc, hskip]
    exact ⟨hstart, by simp [Recognizer.goTo], by simp [Recognizer.goTo]⟩
  rw [deliver_quiet ho hq hp hnever, Recognizer.takeAll_cons, hesc, Recognizer.takeAll_cons, hskip,
    Recognizer.takeAll_nil]

end Sys2Proof.Machine

open Sys2Proof Sys2Proof.Machine

/-- Settles O36: whatever its kind, a refused frame takes the recognizer through Idle to its end delimiter. -/
theorem unacceptedFramesLeaveNoTrace : Obligations.UnacceptedFramesLeaveNoTrace :=
  fun _ _ _ hwaits hwf hframe hn => hwaits.ignores_frame hwf hframe hn

/-- Settles O37: after a good header each of the three bodies is dropped by the recognizer, so no engine rule runs. -/
theorem malformedBodiesAreDropped : Obligations.MalformedBodiesAreDropped := by
  intro s sb body hwaits hbody
  have hdrops : ∀ r, AtBodyStart r → Drops (bodyBytes body ++ [Config.flag]) r := by
    intro r hr
    rcases hbody with rfl | ⟨us, rfl, hus⟩ | ⟨hall, hlong⟩
    · exact hr.drops_empty
    · rw [bodyBytes_append]
      exact hr.drops_unpaired hus
    · simpa using hr.drops_overflow hall hlong (rest := []) (by simp)
  obtain ⟨m, hm⟩ := hwaits.drops_read sb hdrops
  exact ⟨_, hm, rfl⟩

/-- Settles O38: inside a body both pairs are ESC and a byte but FLAG; outside one ESC leads to Idle, which the second byte
does not leave. -/
theorem escapePrefixesTheNextBodyByte : Obligations.EscapePrefixesTheNextBodyByte := by
  intro s hp ho hq
  constructor
  · intro hx hk he hl
    have hpair := fun x : Byte => deliver_escaped hp ho hq hx hk he hl (x := x)
    refine ⟨?_, ?_, fun x hxf => ?_⟩
    · rw [exec_wire rfl, hpair _ (by decide)]; rfl
    · rw [exec_wire rfl, hpair _ (by decide)]; rfl
    · rw [present_wire, hpair x hxf]; rfl
  · rintro i (rfl | rfl) hout
    · rw [exec_wire rfl, deliver_escaped_outside hp ho hq hout (by decide)]; rfl
    · rw [exec_wire rfl, deliver_escaped_outside hp ho hq hout (by decide)]; rfl

end

section
/-! SUPPORT. Stuffing and destuffing (spec/40_codec.md, R113 to R116): what STUFF_BYTE gives for a byte, and canonical wire
bytes read from the front, which are exactly the results of STUFF. -/

namespace Sys2Proof.Machine

/-! ### One byte -/

theorem stuffByte_of_special {b : Byte} (h : b = Config.flag ∨ b = Config.esc) :
    stuffByte b = [Config.esc, b ^^^ Config.xmask] := by
  rw [stuffByte, if_pos h]

theorem stuffByte_of_plain {b : Byte} (hf : b ≠ Config.flag) (he : b ≠ Config.esc) : stuffByte b = [b] := by
  rw [stuffByte, if_neg (not_or.mpr ⟨hf, he⟩)]

/-- The two special bytes take one wire byte more than the others (R114). -/
theorem stuffByte_length (b : Byte) :
    (stuffByte b).length = 1 + if (b == Config.flag || b == Config.esc) = true then 1 else 0 := by
  by_cases h : b = Config.flag ∨ b = Config.esc
  · simp [stuffByte_of_special h, h]
  · obtain ⟨hf, he⟩ := not_or.mp h
    simp [stuffByte_of_plain hf he, hf, he]

/-! ### Canonical wire bytes, from the front -/

theorem canonical_nil : Canonical [] := by simp [Canonical]

/-- The first byte is not FLAG, and if it is ESC the next one is 0x5E or 0x5D. -/
theorem canonical_cons {b : Byte} {w : List Byte} :
    Canonical (b :: w)
      ↔ b ≠ Config.flag ∧ (b = Config.esc → w.head? = some 0x5E#8 ∨ w.head? = some 0x5D#8) ∧ Canonical w := by
  have hpairs : (∀ k, (b :: w)[k]? = some Config.esc → (b :: w)[k + 1]? = some 0x5E#8 ∨ (b :: w)[k + 1]? = some 0x5D#8)
      ↔ (b = Config.esc → w.head? = some 0x5E#8 ∨ w.head? = some 0x5D#8)
        ∧ ∀ k, w[k]? = some Config.esc → w[k + 1]? = some 0x5E#8 ∨ w[k + 1]? = some 0x5D#8 := by
    rw [← Nat.and_forall_add_one]
    simp [List.head?_eq_getElem?]
  rw [Canonical, hpairs, List.mem_cons, not_or, ne_comm, Canonical]
  tauto

/-- A plain byte in front changes nothing. -/
theorem canonical_plain_cons {b : Byte} {w : List Byte} (hf : b ≠ Config.flag) (he : b ≠ Config.esc) :
    Canonical (b :: w) ↔ Canonical w := by
  simp [canonical_cons, hf, he]

/-- ESC in front is the image of FLAG or of ESC. -/
theorem canonical_esc_cons {x : Byte} {w : List Byte} :
    Canonical (Config.esc :: x :: w) ↔ (x = 0x5E#8 ∨ x = 0x5D#8) ∧ Canonical w := by
  have hplain (h : x = 0x5E#8 ∨ x = 0x5D#8) : x ≠ Config.flag ∧ x ≠ Config.esc := by
    rcases h with rfl | rfl <;> decide
  rw [canonical_cons]
  constructor
  · rintro ⟨-, hx, hw⟩
    have hx' : x = 0x5E#8 ∨ x = 0x5D#8 := by simpa using hx rfl
    exact ⟨hx', (canonical_plain_cons (hplain hx').1 (hplain hx').2).mp hw⟩
  · rintro ⟨hx, hw⟩
    exact ⟨esc_ne_flag, fun _ => by simpa using hx, (canonical_plain_cons (hplain hx).1 (hplain hx).2).mpr hw⟩

/-- What STUFF_BYTE puts in front changes nothing. -/
theorem canonical_stuffByte_append (b : Byte) (w : List Byte) : Canonical (stuffByte b ++ w) ↔ Canonical w := by
  by_cases h : b = Config.flag ∨ b = Config.esc
  · have hx : b ^^^ Config.xmask = 0x5E#8 ∨ b ^^^ Config.xmask = 0x5D#8 := by
      rcases h with rfl | rfl <;> decide
    simp [stuffByte_of_special h, canonical_esc_cons, hx]
  · obtain ⟨hf, he⟩ := not_or.mp h
    simp [stuffByte_of_plain hf he, canonical_plain_cons hf he]

/-! ### Byte sequences -/

theorem stuff_nil : stuff [] = [] := rfl

theorem stuff_cons (b : Byte) (s : List Byte) : stuff (b :: s) = stuffByte b ++ stuff s := rfl

theorem stuff_length (s : List Byte) :
    (stuff s).length = s.length + s.countP (fun b => b == Config.flag || b == Config.esc) := by
  induction s with
  | nil => rfl
  | cons b s ih =>
    rw [stuff_cons, List.length_append, stuffByte_length, ih, List.length_cons, List.countP_cons]
    omega

theorem canonical_stuff (s : List Byte) : Canonical (stuff s) := by
  induction s with
  | nil => exact canonical_nil
  | cons b s ih => exact (canonical_stuffByte_append b (stuff s)).mpr ih

/-- STUFF sends body units, whose wire bytes destuff to their values. -/
theorem destuff_stuff (s : List Byte) : destuff (stuff s) = some s := by
  simpa using destuff_bodyBytes (stuffUnits_wf s)

/-- Canonical wire bytes are the stuffing of some sequence, read off along DESTUFF's own recursion. -/
theorem Canonical.exists_stuff {w : List Byte} (h : Canonical w) : ∃ s, stuff s = w := by
  induction w using destuff.induct with
  | case1 => exact ⟨[], rfl⟩
  | case2 b hb =>
    rcases hb with rfl | rfl
    · exact absurd rfl (canonical_cons.mp h).1
    · simpa using (canonical_cons.mp h).2.1 rfl
  | case3 b hb =>
    obtain ⟨hf, he⟩ := not_or.mp hb
    exact ⟨[b], by rw [stuff_cons, stuffByte_of_plain hf he, stuff_nil, List.append_nil]⟩
  | case4 x w => exact absurd rfl (canonical_cons.mp h).1
  | case5 w => exact absurd (canonical_esc_cons.mp h).1 (by decide)
  | case6 x w hne hx ih =>
    obtain ⟨hpair, hw⟩ := canonical_esc_cons.mp h
    obtain ⟨s, rfl⟩ := ih hw
    rcases hpair with rfl | rfl
    · exact ⟨Config.flag :: s, rfl⟩
    · exact ⟨Config.esc :: s, rfl⟩
  | case7 b x w hf hb ih =>
    obtain ⟨s, hs⟩ := ih ((canonical_plain_cons hf hb).mp h)
    refine ⟨b :: s, ?_⟩
    rw [stuff_cons, hs, stuffByte_of_plain hf hb, List.singleton_append]

end Sys2Proof.Machine

open Sys2Proof Sys2Proof.Machine

/-- Settles O7: the length counts the special bytes one by one, and each STUFF_BYTE keeps canonical what follows it. -/
theorem stuffMapsEveryByte : Obligations.StuffMapsEveryByte :=
  ⟨stuff_nil, stuff_cons, fun s => ⟨stuff_length s, stuff_length_ge s, stuff_length_le s, canonical_stuff s⟩⟩

/-- Settles O8: stuffed bytes are canonical, and canonical bytes are stuffed ones, so the round trip serves both ways. -/
theorem destuffUndoesStuff : Obligations.DestuffUndoesStuff := by
  refine ⟨destuff_stuff, fun w => ⟨?_, fun hw => ?_⟩, by decide, by decide⟩
  · rintro ⟨v, -, rfl⟩
    exact canonical_stuff v
  · obtain ⟨v, rfl⟩ := hw.exists_stuff
    exact ⟨v, destuff_stuff v, rfl⟩

/-- Settles O6: by the two cases of STUFF_BYTE; its result is canonical, so it holds no FLAG. -/
theorem stuffByteEscapesFlagAndEsc : Obligations.StuffByteEscapesFlagAndEsc := by
  refine ⟨rfl, rfl, fun b => ⟨stuffByte_of_special, stuffByte_of_plain, ?_, ?_⟩⟩
  · rw [stuffByte_length]
    split <;> simp
  · have hcanonical : Canonical (stuffByte b ++ []) := (canonical_stuffByte_append b []).mpr canonical_nil
    simpa using hcanonical.1

end

section
/-! SUPPORT. The byte recognizer and the supervisory frames it recognises (spec/41_recognizer.md): its states byte by byte
(R135 to R144), what the configurations of R132 accept, and what a whole supervisory frame does (R148 to R152). -/

namespace Sys2Proof.Machine

/-! ### One byte -/

/-- A good header of a supervisory frame waits for its end delimiter (R138). -/
theorem headerDone_sup {r : Recognizer} (hk : r.conf.kind = .sup) : r.headerDone = { r with rxs := .checksumVerified } := by
  simp [Recognizer.headerDone, hk, Recognizer.goTo]

/-- ChecksumVerified of an information configuration is the body (R140 to R144). -/
theorem take_body {r : Recognizer} (hx : r.rxs = .checksumVerified) (hk : r.conf.kind = .info) (b : Byte) :
    r.take b = r.takeBody b := by
  simp only [Recognizer.take, hx, hk]

/-- A body byte without room for it drops the frame (R143). -/
theorem append_of_full {r : Recognizer} (h : r.rxLen.toNat = Config.rxbufCap) (v : Byte) :
    r.append v = { r with escPend := false, rxLen := 0#12, rxs := .idle } := by
  simp [Recognizer.append, h]

/-! ### What each configuration accepts (R132) -/

theorem cfgUa_accepts (c : Byte) : accepts cfgUa.acc c = true ↔ c = Config.cUa := by revert c; decide

theorem cfgSet_accepts (c : Byte) : accepts cfgSet.acc c = true ↔ c = Config.cSet := by revert c; decide

theorem cfgAck_accepts (ns : Bit) (c : Byte) :
    accepts (cfgAck ns).acc c = true ↔ c = cRr (flipBit ns) ∨ c = cRej 0#1 ∨ c = cRej 1#1 := by
  revert ns c; decide

/-- The two configurations of CLOSE differ in their address alone, so this holds of both. -/
theorem cfgDiscReply_accepts (c : Byte) : accepts cfgDiscReply.acc c = true ↔ c = Config.cDisc := by
  revert c; decide

/-! ### What each operation waits for: the table of R132 read by operation and role -/

/-- The address of the frame an operation waits for. -/
def awaitedAddr : Op → Role → Addr
  | .closeCmd, .sender => .rx
  | _, _ => .tx

theorem awaitedConfig_expA_eq (op : Op) (role : Role) (ns : Bit) :
    (awaitedConfig op role ns).expA = (awaitedAddr op role).byte := by
  cases op <;> cases role <;> rfl

theorem addr_byte_inj {a b : Addr} : a.byte = b.byte ↔ a = b := by
  cases a <;> cases b <;> decide

section
variable {op : Op} {role : Role} {ns : Bit}

theorem awaits_cSet : accepts (awaitedConfig op role ns).acc Config.cSet = true ↔ op = .openCmd ∧ role = .receiver := by
  revert ns; cases op <;> cases role <;> decide

theorem awaits_cUa : accepts (awaitedConfig op role ns).acc Config.cUa = true ↔ op = .openCmd ∧ role = .sender := by
  revert ns; cases op <;> cases role <;> decide

theorem awaits_cDisc : accepts (awaitedConfig op role ns).acc Config.cDisc = true ↔ op = .closeCmd := by
  revert ns; cases op <;> cases role <;> decide

theorem awaits_cRr {n : Bit} :
    accepts (awaitedConfig op role ns).acc (cRr n) = true ↔ op = .writeCmd ∧ n = flipBit ns := by
  revert ns n; cases op <;> cases role <;> decide

theorem awaits_cRej {n : Bit} : accepts (awaitedConfig op role ns).acc (cRej n) = true ↔ op = .writeCmd := by
  revert ns n; cases op <;> cases role <;> decide

end

/-! ### Whole supervisory frames -/

/-- Any other address or control byte leaves only a FLAG seen (R97). -/
theorem WaitsFor.exec_ignored {op : Op} {s : State} (h : WaitsFor op s) {i : Instr} {a : Addr} {c : Byte}
    (hbytes : encode i = .wire (supFrame a.byte c)) (hc : (accBit c).isSome = true)
    (hn : accepts (awaitedConfig op s.cfg.role s.ns).acc c = true → a ≠ awaitedAddr op s.cfg.role) :
    exec i s = .next { s with recog := { s.recog with rxs := .delimiterSeen } } := by
  have hheader : ¬ (a.byte = (awaitedConfig op s.cfg.role s.ns).expA
      ∧ accepts (awaitedConfig op s.cfg.role s.ns).acc c = true) := by
    rw [awaitedConfig_expA_eq, addr_byte_inj]
    exact fun ⟨ha, hacc⟩ => hn hacc ha
  rw [exec_wire hbytes, ignores_by h a c hc hheader]

/-- The awaited address and an awaited control byte run the rule of the operation, which leads to t (R145). -/
theorem WaitsFor.exec_recognised {op : Op} {s t : State} (h : WaitsFor op s) (hop : op ≠ .readCmd) {i : Instr} {a : Addr}
    {c : Byte} (hbytes : encode i = .wire (supFrame a.byte c)) (ha : a = awaitedAddr op s.cfg.role)
    (hc : accepts (awaitedConfig op s.cfg.role s.ns).acc c = true)
    (hrule : frameRecognised { s with recog := { s.recog with cLatch := c, rxs := .done } } = t) : exec i s = .next t := by
  have hexpA : a.byte = s.recog.conf.expA := by rw [h.conf, awaitedConfig_expA_eq, ha]
  rw [← h.conf] at hc
  rw [exec_wire hbytes, h.takes_sup (conf_sup h hop) hexpA hc, hrule]

/-! ### The answers to a WRITE (R165) -/

theorem writeAnswered_rr {s : State} (h : s.recog.cLatch = cRr (flipBit s.ns)) :
    writeAnswered s = writeAccepted (setPhase .accepted s) := by
  rw [writeAnswered, if_pos h]

theorem cRej_ne_cRr (n m : Bit) : cRej n ≠ cRr m := by revert n m; decide

theorem writeAnswered_rej {s : State} {n : Bit} (h : s.recog.cLatch = cRej n) :
    writeAnswered s = writeRejected (setPhase .rejected s) := by
  have hrej : s.recog.cLatch = cRej 0#1 ∨ s.recog.cLatch = cRej 1#1 := by
    rcases bit_cases n with rfl | rfl
    · exact .inl h
    · exact .inr h
  rw [writeAnswered, if_neg (h ▸ cRej_ne_cRr n _), if_pos hrej]

end Sys2Proof.Machine

open Sys2Proof Sys2Proof.Machine

/-- Settles O12: one state at a time; in ControlSeen a good checksum-1 does what REC_KIND says. -/
theorem headerStatesFollowTheTable : Obligations.HeaderStatesFollowTheTable := by
  intro r b
  refine ⟨fun hr => ?_, fun hr => ?_, fun hr => ?_, fun hr => ?_, fun hr hk => ?_⟩
  · simp only [Recognizer.take, hr, Recognizer.goTo]
  · simp [Recognizer.take, hr, Recognizer.expect, Recognizer.goTo]
  · simp [Recognizer.take, hr, Recognizer.expect, Recognizer.goTo]
  · cases hk : r.conf.kind with
    | sup => simp [Recognizer.take, hr, Recognizer.expect, Recognizer.goTo, bcc1, headerDone_sup hk]
    | info => simp [Recognizer.take, hr, Recognizer.expect, Recognizer.goTo, bcc1, headerDone_info hk]
  · simp only [Recognizer.take, hr, hk, Recognizer.goTo]

/-- Settles O14: the branches of the body's rule; one byte too many is dropped whether or not an ESC pends. -/
theorem bodyEndsAsTheRulesSay : Obligations.BodyEndsAsTheRulesSay := by
  intro r hx hk
  refine ⟨fun hl he => ?_, fun he => ?_, fun b hb hl hp => ?_, fun hl he => ?_⟩
  · simp [take_body hx hk, Recognizer.takeBody, he, hl, Recognizer.goTo]
  · simp [take_body hx hk, Recognizer.takeBody, he]
  · cases he : r.escPend with
    | true => simp [take_body hx hk, Recognizer.takeBody, hb, he, append_of_full, hl]
    | false =>
      have hesc : b ≠ Config.esc := by simpa [he] using hp
      simp [take_body hx hk, Recognizer.takeBody, hb, he, hesc, append_of_full, hl]
  · have hne : r.rxLen ≠ 0#12 := by
      intro h0
      simp [h0] at hl
    have hdone : r.take Config.flag = { r with rxs := .done } := by
      simp [take_body hx hk, Recognizer.takeBody, he, hne, Recognizer.goTo]
    rw [hdone]
    exact ⟨rfl, rfl, rfl⟩

/-- Settles O28: SET is awaited in the Receiver's OPEN alone. -/
theorem setOpensTheReceiver : Obligations.SetOpensTheReceiver := by
  refine ⟨fun s h hr => ?_, fun op a s h hn => ?_⟩
  · rw [h.exec_recognised (by simp) rfl rfl (awaits_cSet.mpr ⟨rfl, hr⟩) (recognised_openReceiver h.op hr),
      openReceiverDone_eq]
    simp
  · refine h.exec_ignored rfl (by decide) fun hacc ha => ?_
    obtain ⟨rfl, hr⟩ := awaits_cSet.mp hacc
    exact hn ⟨rfl, hr, ha⟩

/-- Settles O29: UA is awaited in the Sender's OPEN alone. -/
theorem uaOpensTheSender : Obligations.UaOpensTheSender := by
  refine ⟨fun s h hr => ?_, fun op a s h hn => ?_⟩
  · exact h.exec_recognised (by simp) rfl rfl (awaits_cUa.mpr ⟨rfl, hr⟩) (recognised_openSender h.op hr)
  · refine h.exec_ignored rfl (by decide) fun hacc ha => ?_
    obtain ⟨rfl, hr⟩ := awaits_cUa.mp hacc
    exact hn ⟨rfl, hr, ha⟩

/-- Settles O30: DISC is awaited in CLOSE alone, from the address the role gives. -/
theorem discClosesTheSession : Obligations.DiscClosesTheSession := by
  refine ⟨fun s h hr => ?_, fun s h hr => ?_, fun op a s h hreceiver hsender => ?_⟩
  · rw [h.exec_recognised (by simp) rfl (by rw [hr]; rfl) (awaits_cDisc.mpr rfl) (recognised_closeReceiver h.op hr),
      closeReceiverDone_eq]
    simp
  · rw [h.exec_recognised (by simp) rfl (by rw [hr]; rfl) (awaits_cDisc.mpr rfl) (recognised_closeSender h.op hr),
      closeSenderDone_eq]
    simp
  · refine h.exec_ignored rfl (by decide) fun hacc ha => ?_
    obtain rfl := awaits_cDisc.mp hacc
    cases hr : s.cfg.role with
    | sender => exact hsender ⟨rfl, hr, by rw [ha, hr]; rfl⟩
    | receiver => exact hreceiver ⟨rfl, hr, by rw [ha, hr]; rfl⟩

/-- Settles O31: of the two RR only RR(1 - NS) is awaited, and in WRITE alone. -/
theorem expectedRrCompletesTheWrite : Obligations.ExpectedRrCompletesTheWrite := by
  refine ⟨fun s h => ?_, fun op a n s h hn => ?_⟩
  · rw [h.exec_recognised (by simp) rfl rfl (awaits_cRr.mpr ⟨rfl, rfl⟩) (recognised_write h.op), writeAnswered_rr rfl]
    rfl
  · refine h.exec_ignored rfl (by simp [accBit_cRr]) fun hacc ha => ?_
    obtain ⟨rfl, hns⟩ := awaits_cRr.mp hacc
    exact hn ⟨rfl, ha, hns⟩

/-- Settles O32: both REJ are awaited in WRITE alone, and TXBUF goes out again as it stands. -/
theorem rejRetransmitsWithAFullBudget : Obligations.RejRetransmitsWithAFullBudget := by
  refine ⟨fun n s h => ?_, fun op a n s h hn => ?_⟩
  · rw [h.exec_recognised (by simp) rfl rfl (awaits_cRej.mpr rfl) (recognised_write h.op), writeAnswered_rej rfl]
    rfl
  · refine h.exec_ignored rfl (by simp [accBit_cRej]) fun hacc ha => ?_
    obtain rfl := awaits_cRej.mp hacc
    exact hn ⟨rfl, ha⟩

/-- Settles O17: the acceptance set of each configuration, decided byte by byte, and the table of who waits under which. -/
theorem sixConfigurationsAccept : Obligations.SixConfigurationsAccept := by
  refine ⟨⟨rfl, rfl, cfgUa_accepts⟩, ⟨rfl, rfl, cfgSet_accepts⟩, ⟨rfl, rfl, cfgAck_accepts 0#1⟩,
    ⟨rfl, rfl, cfgAck_accepts 1#1⟩, ⟨rfl, rfl, cfgInfo_accepts⟩, ⟨rfl, rfl, cfgDiscReply_accepts⟩,
    ⟨rfl, rfl, cfgDiscReply_accepts⟩, fun ns role => ⟨rfl, rfl, rfl, rfl, rfl, rfl⟩⟩

end

section
/-! SUPPORT. The Sender's retransmission engine (spec/42_sender_engine.md): the start of a WRITE and its Timeout, read off
the states that `writeStart_eq` and `timeoutEvent_write` write out. -/

namespace Sys2Proof.Machine

/-- A legal WRITE runs the start of the command (R160, R237). -/
theorem exec_write_of_legal {s : State} (hb : s.busy = false) (hs : s.session = .opened) (hr : s.cfg.role = .sender)
    (hl : s.txpayLen.toNat ≤ Config.maxPayload) : exec .write s = .next (writeStart s) := by
  have hlegal : legal .writeCmd s = true := by simp [legal, hs, hr, hl]
  have hexec : exec .write s = .next (hostCommand (legal .writeCmd s) writeStart s) := rfl
  rw [hexec, hlegal, hc_run hb]

end Sys2Proof.Machine

open Sys2Proof Sys2Proof.Machine

/-- Settles O21: the frame of at most 2007 bytes fits TXLEN, so what is sent is what was built; CFG_MAX_RETRIES decides
between the first attempt and the failure. -/
theorem writeSendsTheFrame : Obligations.WriteSendsTheFrame := by
  intro s hb hs hr hl p bs
  rw [exec_write_of_legal hb hs hr hl, writeStart_eq s hl]
  refine ⟨fun hbudget => ?_, fun hbudget => ?_⟩
  · rw [if_neg hbudget]
    rfl
  · rw [if_pos hbudget, hbudget]
    rfl

/-- Settles O41: the budget left after one unit is spent decides between another attempt and the failure. -/
theorem timeoutInWriteRetransmitsOrFails : Obligations.TimeoutInWriteRetransmitsOrFails := by
  intro rest s hin hop harmed hcount
  have hdue : timeoutDue s = true := (timeoutDue_iff s).mpr ⟨harmed, hcount⟩
  rw [step_timeout hin hdue, timeoutEvent_write (s := withInputs rest s) hop]
  refine ⟨fun hleft => ?_, fun hlast => ?_⟩
  · obtain ⟨hspend, hne⟩ := spendRetry_left hleft
    have hneTaken : spendRetry (withInputs rest s).retry ≠ 0#8 := hne
    rw [if_neg hneTaken, ← hspend]
    rfl
  · have hspend : spendRetry (withInputs rest s).retry = 0#8 := spendRetry_last hlast
    rw [if_pos hspend, hspend]
    rfl

end

section
/-! SUPPORT. The Receiver's READ (spec/43_receiver_read.md): its start, and what the arrival of an information frame does
in the three cases of R183, read off the states that `readAccepts_eq`, `readDuplicate_eq` and `readRejects_eq` write out. -/

namespace Sys2Proof.Machine

/-- A legal READ runs the start of the command (R180, R237). -/
theorem exec_read_of_legal {s : State} (hb : s.busy = false) (hs : s.session = .opened) (hr : s.cfg.role = .receiver) :
    exec .read s = .next (readStart s) := by
  have hlegal : legal .readCmd s = true := by simp [legal, hs, hr]
  have hexec : exec .read s = .next (hostCommand (legal .readCmd s) readStart s) := rfl
  rw [hexec, hlegal, hc_run hb]

/-! ### The frame in RXBUF, and the rule it runs (R144, R183) -/

/-- The state of a READ at the last byte of an information frame: the body in RXBUF, no rule run yet (R144). -/
def State.withFrame (sb : Bit) (body : List Byte) (s : State) : State :=
  { s with recog := s.recog.withFrame sb body }

@[simp] theorem State.withFrame_nr {sb : Bit} {body : List Byte} {s : State} : (s.withFrame sb body).nr = s.nr := rfl
@[simp] theorem State.withFrame_infoBit {sb : Bit} {body : List Byte} {s : State} :
    infoBit (s.withFrame sb body).recog.cLatch = sb := infoBit_cInfo sb

/-- In READ a well-formed information frame with address A_TX runs the rule of READ (R153). -/
theorem WaitsFor.exec_info {s : State} (h : WaitsFor .readCmd s) (sb : Bit) {body : List BodyUnit}
    (hb : bodyWf body = true) :
    exec (.info .tx sb body) s = .next (readRecognised (s.withFrame sb (bodyValues body))) := by
  rw [exec_wire rfl]
  exact congrArg Host.Outcome.next (takes_read h sb hb)

/-- Of a new frame the checksum-2 decides (R184, R186). -/
theorem readRecognised_new (s : State) {p : List Byte} {x : Byte} (hlen : p.length < Config.rxbufCap) :
    readRecognised (s.withFrame s.nr (p ++ [x]))
      = if bcc2 p = x then readAccepts (s.withFrame s.nr (p ++ [x])) else readRejects (s.withFrame s.nr (p ++ [x])) := by
  have hverdict : receivedGood (s.withFrame s.nr (p ++ [x])).recog = decide (bcc2 p = x) := good_of hlen
  rw [readRecognised, if_pos (by simp)]
  simp only [hverdict, decide_eq_true_eq]

theorem flipBit_ne (n : Bit) : flipBit n ≠ n := by revert n; decide

/-- Of a duplicate nothing decides: that test comes first, so its checksum-2 is not looked at (R185, R243). -/
theorem readRecognised_duplicate (s : State) (body : List Byte) :
    readRecognised (s.withFrame (flipBit s.nr) body) = readDuplicate (s.withFrame (flipBit s.nr) body) := by
  rw [readRecognised, if_neg (by simp [flipBit_ne])]

/-! ### What the host may read of RXBUF (R63, R71) -/

/-- RESULT.LEN = RXLEN - 1 shows the host the payload without its checksum-2 (R184, R190). -/
theorem readAccepts_hostPayload {s : State} (h : s.recog.rxLen ≠ 0#12) :
    (readAccepts s).hostPayload = some (receivedPayload s.recog) := by
  have hlen : (s.recog.rxLen - 1#12).toNat = s.recog.rxLen.toNat - 1 := by bv_omega
  rw [readAccepts_eq, State.hostPayload, if_pos ⟨rfl, rfl⟩, receivedPayload, hlen]

theorem hostPayload_of_not_delivered {s : State} (hk : s.result.kind ≠ .delivered) : s.hostPayload = none := by
  simp [State.hostPayload, hk]

end Sys2Proof.Machine

open Sys2Proof Sys2Proof.Machine

/-- Settles O22: with the session open READ is legal for a Receiver, and its start is the passive wait under CFG_INFO. -/
theorem readWaitsForAFrame : Obligations.ReadWaitsForAFrame := by
  intro s hb hs hr
  rw [exec_read_of_legal hb hs hr, readStart_eq]

/-- Settles O33: RXLEN counts the payload and its checksum-2, so RXLEN - 1 is the length of what is delivered. -/
theorem newGoodFrameIsDelivered : Obligations.NewGoodFrameIsDelivered := by
  intro s body p h hb hv
  have hlen : p.length < Config.rxbufCap := len_body hb hv
  have hrxLen : (s.withFrame s.nr (p ++ [bcc2 p])).recog.rxLen = BitVec.ofNat 12 (p.length + 1) := by
    simp [State.withFrame, Recognizer.withFrame]
  have hne : (s.withFrame s.nr (p ++ [bcc2 p])).recog.rxLen ≠ 0#12 := by
    have hcap : Config.rxbufCap = 1001 := rfl
    rw [hrxLen]
    bv_omega
  refine ⟨readAccepts (s.withFrame s.nr (p ++ [bcc2 p])), ?_, ?_, ?_⟩
  · rw [h.exec_info s.nr hb, hv, readRecognised_new s hlen, if_pos rfl]
  · rw [readAccepts_hostPayload hne]
    exact congrArg some (received_withFrame s.recog s.nr p (bcc2 p) hlen).1
  · rw [readAccepts_eq, hrxLen, len_pred hlen]
    simp [State.withFrame, Recognizer.withFrame, flipBit, cInfo]

/-- Settles O34: the sequence bit 1 - NR alone makes the frame a duplicate. -/
theorem duplicateFrameIsAcknowledgedAgain : Obligations.DuplicateFrameIsAcknowledgedAgain := by
  intro s body h hb
  refine ⟨readDuplicate (s.withFrame (flipBit s.nr) (bodyValues body)), ?_, ?_, ?_⟩
  · rw [← readRecognised_duplicate]
    exact h.exec_info (flipBit s.nr) hb
  · exact hostPayload_of_not_delivered (by simp [readDuplicate_eq])
  · rw [readDuplicate_eq]
    simp [State.withFrame, Recognizer.withFrame, flipBit, cInfo]

/-- Settles O35: the sequence bit is NR, so the checksum-2 decides, and it does not fit. -/
theorem newBadFrameIsRejected : Obligations.NewBadFrameIsRejected := by
  intro s body p x h hb hv hbad
  refine ⟨readRejects (s.withFrame s.nr (p ++ [x])), ?_, ?_, ?_⟩
  · rw [h.exec_info s.nr hb, hv, readRecognised_new s (len_body hb hv), if_neg hbad]
  · exact hostPayload_of_not_delivered (by simp [readRejects_eq])
  · rw [readRejects_eq]
    simp [State.withFrame, Recognizer.withFrame, cInfo]

end

section
/-! SUPPORT. The handshakes (spec/44_handshake.md): which of its forms an OPEN or CLOSE runs, and the start each one makes
once the shim has answered. What the first attempt, the failure and the Timeout leave is read off `beginHandshake_eq`,
`failHandshake_eq` and `timeoutEvent_handshake`. -/

namespace Sys2Proof.Machine

/-! ### Legal and refused (R237): the role is no part of the opcode (R101) -/

variable {i : Instr} {s : State}

theorem exec_open (hi : i = .openS ∨ i = .openR) :
    exec i s = .next (hostCommand (s.session == .closed) openByRole s) := by
  rcases hi with rfl | rfl <;> rfl

theorem exec_close (hi : i = .closeS ∨ i = .closeR) :
    exec i s = .next (hostCommand (s.session == .opened) closeByRole s) := by
  rcases hi with rfl | rfl <;> rfl

theorem exec_open_of_closed (hi : i = .openS ∨ i = .openR) (hb : s.busy = false) (hs : s.session = .closed) :
    exec i s = .next (openByRole s) := by
  rw [exec_open hi, hs]
  exact congrArg Host.Outcome.next (hc_run hb)

theorem exec_open_of_opened (hi : i = .openS ∨ i = .openR) (hb : s.busy = false) (hs : s.session = .opened) :
    exec i s = .next (illegalCommand s) := by
  rw [exec_open hi, hs]
  exact congrArg Host.Outcome.next (hc_bad hb)

theorem exec_close_of_opened (hi : i = .closeS ∨ i = .closeR) (hb : s.busy = false) (hs : s.session = .opened) :
    exec i s = .next (closeByRole s) := by
  rw [exec_close hi, hs]
  exact congrArg Host.Outcome.next (hc_run hb)

theorem exec_close_of_closed (hi : i = .closeS ∨ i = .closeR) (hb : s.busy = false) (hs : s.session = .closed) :
    exec i s = .next (illegalCommand s) := by
  rw [exec_close hi, hs]
  exact congrArg Host.Outcome.next (hc_bad hb)

/-! ### The start by role, and the shim's answer (R201, R204, R206) -/

theorem openByRole_sender (hr : s.cfg.role = .sender) (hok : s.env.shimOk = true) :
    openByRole s = beginHandshake cfgUa (buildSup Config.aTx Config.cSet (chanOpen (acceptCommand .openCmd s))) := by
  rw [openByRole, hr]
  exact if_pos hok

theorem openByRole_receiver (hr : s.cfg.role = .receiver) (hok : s.env.shimOk = true) :
    openByRole s = awaitCommand cfgSet (chanOpen (acceptCommand .openCmd s)) := by
  rw [openByRole, hr]
  exact if_pos hok

/-- Without a port the role makes no difference. -/
theorem openByRole_noPort (hok : s.env.shimOk = false) :
    openByRole s = transportUnavailable (chanOpen (acceptCommand .openCmd s)) := by
  have hport : ¬(chanOpen (acceptCommand .openCmd s)).env.portOpen = true := by simp [hok]
  unfold openByRole
  split
  · exact if_neg hport
  · exact if_neg hport

theorem closeByRole_sender (hr : s.cfg.role = .sender) :
    closeByRole s =
      beginHandshake cfgDiscReply (buildSup Config.aTx Config.cDisc (acceptCommand .closeCmd s)) := by
  rw [closeByRole, hr]
  rfl

theorem closeByRole_receiver (hr : s.cfg.role = .receiver) : closeByRole s = closeReceiver s := by
  rw [closeByRole, hr]

end Sys2Proof.Machine

open Sys2Proof Sys2Proof.Machine

/-- Settles O18: once the port is open CFG_MAX_RETRIES decides between the first SET and the failure. -/
theorem openSenderSendsSet : Obligations.OpenSenderSendsSet := by
  intro s hb hr
  refine ⟨fun hs hok hbudget => ?_, fun hs hok hbudget => ?_, fun hs => ?_⟩
  · rw [exec_open_of_closed (.inl rfl) hb hs, openByRole_sender hr hok, beginHandshake_eq, chanOpen_cfg, acceptCommand_cfg,
      if_neg hbudget]
    simp [timerLoad, hok]
  · rw [exec_open_of_closed (.inl rfl) hb hs, openByRole_sender hr hok, beginHandshake_eq, chanOpen_cfg, acceptCommand_cfg,
      if_pos hbudget]
    simp [hbudget, hs]
  · rw [exec_open_of_opened (.inl rfl) hb hs, illegal_eq]

/-- Settles O19: once the port is open the Receiver's OPEN is the passive wait under CFG_SET. -/
theorem openReceiverWaitsForSet : Obligations.OpenReceiverWaitsForSet := by
  intro s hb hr
  refine ⟨fun hs hok => ?_, fun hs => ?_⟩
  · rw [exec_open_of_closed (.inr rfl) hb hs, openByRole_receiver hr hok, awaitCommand_eq]
    simp [hok]
  · rw [exec_open_of_opened (.inr rfl) hb hs, illegal_eq]

/-- Settles O20: the shim's answer is tested before anything is built or waited for, in either role. -/
theorem openWithoutPortFails : Obligations.OpenWithoutPortFails := by
  intro i s hi hb hs hok
  rw [exec_open_of_closed hi hb hs, openByRole_noPort hok, transportUnavailable, raise, complete_eq]
  simp [hs, hok]

/-- Settles O23: CFG_MAX_RETRIES decides between the first DISC and the failure. -/
theorem closeSenderSendsDisc : Obligations.CloseSenderSendsDisc := by
  intro s hb hr
  refine ⟨fun hs hbudget => ?_, fun hs hbudget => ?_, fun hs => ?_⟩
  · rw [exec_close_of_opened (.inl rfl) hb hs, closeByRole_sender hr, beginHandshake_eq, acceptCommand_cfg, if_neg hbudget]
    rfl
  · rw [exec_close_of_opened (.inl rfl) hb hs, closeByRole_sender hr, beginHandshake_eq, acceptCommand_cfg, if_pos hbudget]
    simp [hbudget]
  · rw [exec_close_of_closed (.inl rfl) hb hs, illegal_eq]

/-- Settles O24: the Receiver's CLOSE is the passive wait under CFG_DISC_CMD. -/
theorem closeReceiverWaitsForDisc : Obligations.CloseReceiverWaitsForDisc := by
  intro s hb hr
  refine ⟨fun hs => ?_, fun hs => ?_⟩
  · rw [exec_close_of_opened (.inr rfl) hb hs, closeByRole_receiver hr, closeReceiver_eq]
  · rw [exec_close_of_closed (.inr rfl) hb hs, illegal_eq]

/-- Settles O42: the budget left after one unit is spent decides between another attempt and the failure. -/
theorem timeoutInHandshakeRetransmitsOrFails : Obligations.TimeoutInHandshakeRetransmitsOrFails := by
  intro rest s hin hop harmed hcount
  have hdue : timeoutDue s = true := (timeoutDue_iff s).mpr ⟨harmed, hcount⟩
  rw [step_timeout hin hdue, timeoutEvent_handshake (s := withInputs rest s) hop]
  refine ⟨fun hleft => ?_, fun hlast => ?_⟩
  · obtain ⟨hspend, hne⟩ := spendRetry_left hleft
    have hneTaken : spendRetry (withInputs rest s).retry ≠ 0#8 := hne
    rw [if_neg hneTaken, ← hspend]
    rfl
  · have hspend : spendRetry (withInputs rest s).retry = 0#8 := spendRetry_last hlast
    rw [if_pos hspend, hspend]
    simp [withInputs]

end

section
/-! SUPPORT. The encoder and the decoder undo each other (spec/30_encoding.md): a supervisory frame by its control byte, an
information frame by its body, a host word by its value. -/

namespace Sys2Proof.Machine

/-- A supervisory frame decodes to what its control byte stands for (R81, R85). -/
theorem decode_supFrame {i : Instr} {a : Addr} {c : Byte} (h : decodeControl a c [Config.flag] = .ok i) :
    decode (.wire (supFrame a.byte c)) = .ok i :=
  (decodeWire_frame a c [Config.flag]).trans h

/-- An information frame decodes to its sequence bit and body (R82, R92). -/
theorem decode_infoWire (a : Addr) (sb : Bit) {body : List BodyUnit} (h : bodyWf body = true) :
    decode (.wire (infoWire a.byte sb (bodyBytes body))) = .ok (.info a sb body) := by
  have hframe := decodeWire_frame a (cInfo sb) (bodyBytes body ++ [Config.flag])
  rw [decodeControl_cInfo, decodeInfo_bodyBytes a sb h] at hframe
  exact hframe

/-- The eight host words: six rows of the table, each with its own instruction (R105). -/
theorem decodeHost_ok {w : BitVec 3} {i : Instr} (h : decodeHost w = .ok i) : i.wf = true ∧ encode i = .host w := by
  have hrows : ∀ w : BitVec 3, ∀ i ∈ (decodeHost w).toOption, i.wf = true ∧ encode i = .host w := by decide
  exact hrows w i (by rw [h]; rfl)

end Sys2Proof.Machine

open Sys2Proof Sys2Proof.Machine

/-- Settles O1: a frame by its header, the information frame's body unit for unit; pairs and host words are literals. -/
theorem decodeUndoesEncode : Obligations.DecodeUndoesEncode := by
  intro i hwf
  cases i with
  | set a | ua a | disc a => exact decode_supFrame rfl
  | rr a n => exact decode_supFrame (decodeControl_cRr a n)
  | rej a n => exact decode_supFrame (decodeControl_cRej a n)
  | info a sb body => exact decode_infoWire a sb hwf
  | escFlag | escEsc | openS | openR | write | read | closeS | closeR => rfl

/-- Settles O2: what the decoder read, wire bytes or one of the six host words, is what the encoder writes. -/
theorem encodeUndoesDecode : Obligations.EncodeUndoesDecode := by
  intro u i h
  cases u with
  | wire bs => exact decodeWire_ok h
  | host w => exact decodeHost_ok h

/-- Settles O3: each word is evaluated by the decoder. -/
theorem writtenWordsDecode : Obligations.WrittenWordsDecode := by
  unfold Obligations.WrittenWordsDecode
  decide

end

section
/-! SUPPORT. Whole frames at the byte recognizer (spec/41_recognizer.md): from every header state the next acceptable frame
is recognised (R147), and one delimited run of bytes gives what PARSE_INFO gives (R120). -/

namespace Sys2Proof.Machine

/-! ### The next acceptable frame (R147) -/

/-- The run bs is recognised at its last byte and not earlier. -/
def RecognisedAtEnd (bs : List Byte) (r : Recognizer) : Prop :=
  (r.takeAll bs).rxs = .done ∧ ∀ n, n < bs.length → (r.takeAll (bs.take n)).rxs ≠ .done

/-- Whether a frame is accepted is decided by the two bytes of its header (R95, R97). -/
theorem acceptsFrame_eq_true {conf : RecConfig} {i : Instr} {a c : Byte} (hh : i.header = some (a, c)) :
    acceptsFrame conf i = true ↔ a = conf.expA ∧ accepts conf.acc c = true := by
  simp [acceptsFrame, hh]

section
variable {r : Recognizer} (h : HeaderState r)
include h

theorem HeaderState.recognises_sup (hk : r.conf.kind ≠ .info) {i : Instr} {a : Addr} {c : Byte}
    (hheader : i.header = some (a.byte, c)) (hacc : acceptsFrame r.conf i = true) :
    RecognisedAtEnd (supFrame a.byte c) r := by
  obtain ⟨ha, hc⟩ := (acceptsFrame_eq_true hheader).mp hacc
  have hsup : r.conf.kind = .sup := by
    cases hkind : r.conf.kind with
    | sup => rfl
    | info => exact absurd hkind hk
  obtain ⟨hall, hnever⟩ := Recognizer.takeAll_supFrame h hsup hc
  rw [ha]
  exact ⟨by rw [hall], neverDone_prefix hnever⟩

theorem HeaderState.recognises_info (hk : r.conf.kind = .info) {a : Addr} {sb : Bit} {body : List BodyUnit}
    (hb : bodyWf body = true) (hacc : acceptsFrame r.conf (.info a sb body) = true) :
    RecognisedAtEnd (infoWire a.byte sb (bodyBytes body)) r := by
  obtain ⟨ha, hc⟩ := (acceptsFrame_eq_true rfl).mp hacc
  obtain ⟨hall, hnever⟩ := Recognizer.takeAll_infoWire h hk hc hb
  rw [ha]
  exact ⟨by rw [hall]; rfl, neverDone_prefix hnever⟩

end

/-! ### What PARSE_INFO answers (R120) -/

/-- The bytes w after a good header are no body: the recognizer drops them at the end delimiter, and what DESTUFF makes of
them, if anything, is malformed (R99, R120). -/
structure NoBody (w : List Byte) : Prop where
  drops : ∀ r, AtBodyStart r → Drops (w ++ [Config.flag]) r
  malformed : ∀ v, destuff w = some v → ∀ sb, parseBody sb v = .malformed

/-- FLAG-free bytes are a well-formed body or no body: empty, over-long, or with an ESC left over. -/
theorem noBody_or_bodyWf {w : List Byte} (hw : Config.flag ∉ w) :
    NoBody w ∨ ∃ us, bodyWf us = true ∧ w = bodyBytes us := by
  obtain ⟨us, hus, rfl | rfl⟩ := units_of_bytes w hw
  · by_cases hempty : us = []
    · subst hempty
      exact .inl ⟨fun r hr => hr.drops_empty, by simp [destuff, parseBody]⟩
    by_cases hlong : Config.rxbufCap < us.length
    · refine .inl ⟨fun r hr => by simpa using hr.drops_overflow hus hlong (rest := []) (by simp), fun v hv sb => ?_⟩
      obtain rfl : bodyValues us = v := by simpa [destuff_bodyBytes hus] using hv
      simp [parseBody, hlong]
    · exact .inr ⟨us, by simp [bodyWf, hus, hempty, not_lt.mp hlong], rfl⟩
  · exact .inl ⟨fun r hr => hr.drops_unpaired hus, by simp [destuff_dangling hus]⟩

theorem parseInfo_badHeader {a c x : Byte} (rest : List Byte)
    (h : ¬ (a = Config.aTx ∧ accepts cfgInfo.acc c = true ∧ x = bcc1 a c)) :
    parseInfo ([Config.flag] ++ (a :: c :: x :: rest) ++ [Config.flag]) = .malformed := by
  by_cases hrest : rest = []
  · exact parse_short _ (by simp [hrest])
  · rw [cfgInfo_accepts] at h
    rw [parse_long a c x rest hrest, if_pos (by tauto)]

theorem NoBody.parseInfo {rest : List Byte} (h : NoBody rest) (a c x : Byte) :
    parseInfo ([Config.flag] ++ (a :: c :: x :: rest) ++ [Config.flag]) = .malformed := by
  by_cases hrest : rest = []
  · exact parse_short _ (by simp [hrest])
  · rw [parse_long a c x rest hrest]
    split
    · rfl
    · split
      · rfl
      · next v hv => exact h.malformed v hv _

theorem parseBody_snoc (sb : Bit) {p : List Byte} (x : Byte) (h : p.length < Config.rxbufCap) :
    parseBody sb (p ++ [x]) = .frame sb p (decide (bcc2 p = x)) := by
  have hlen : ¬ Config.rxbufCap < p.length + 1 := by omega
  simp [parseBody, hlen]

/-- A frame whose body unstuffs to p and checksum-2 x is read as such. -/
theorem parseInfo_infoWire (sb : Bit) {us : List BodyUnit} (hu : bodyWf us = true) {p : List Byte} {x : Byte}
    (hv : bodyValues us = p ++ [x]) :
    parseInfo (infoWire Config.aTx sb (bodyBytes us)) = .frame sb p (decide (bcc2 p = x)) := by
  have hdestuff := destuff_bodyBytes (bodyWf_spec hu).2.2
  have hne : bodyBytes us ≠ [] := by
    intro hnil
    rw [hnil, hv] at hdestuff
    simp [destuff] at hdestuff
  have hsb : cInfo sb = cInfo 0#1 ∨ cInfo sb = cInfo 1#1 := by
    rcases bit_cases sb with rfl | rfl <;> simp
  refine (parse_long Config.aTx (cInfo sb) (bcc1 Config.aTx (cInfo sb)) (bodyBytes us) hne).trans ?_
  rw [if_neg (by tauto), hdestuff, hv, infoBit_cInfo]
  exact parseBody_snoc sb x (len_body hu hv)

/-! ### The recognizer on one delimited run (R120) -/

/-- The recognizer after the run w holds what the parser answers, a malformed run leaving a FLAG seen. -/
def AgreesWith (w : List Byte) (r : Recognizer) : Parsed → Prop
  | .malformed => (r.takeAll w).rxs = .delimiterSeen
  | .frame sb p good =>
    (r.takeAll w).rxs = .done ∧ infoBit (r.takeAll w).cLatch = sb ∧ receivedPayload (r.takeAll w) = p
      ∧ receivedGood (r.takeAll w) = good

/-- No Done before the last byte of w, and at it what the parser answers. -/
def ReadsLike (w : List Byte) (r : Recognizer) (answer : Parsed) : Prop :=
  (∀ n, n < w.length → (r.takeAll (w.take n)).rxs ≠ .done) ∧ AgreesWith w r answer

/-- Bytes that lead back to a header state are no frame: the end delimiter opens the next one (R134). -/
theorem readsLike_malformed {w : List Byte} {r : Recognizer} (hn : NeverDone w r) (h : HeaderState (r.takeAll w)) :
    ReadsLike (w ++ [Config.flag]) r .malformed := by
  refine ⟨neverDone_prefix hn, ?_⟩
  rw [AgreesWith, Recognizer.takeAll_append, Recognizer.takeAll_cons, Recognizer.take_flag h]
  rfl

section
variable {r : Recognizer} (h : HeaderState r)
include h

/-- After a header other than the one expected the rest of the run is skipped in Idle (R135). -/
theorem HeaderState.readsLike_badHeader {a c x : Byte} {rest : List Byte} (hf : Config.flag ∉ a :: c :: x :: rest)
    (hbad : ¬ (a = r.conf.expA ∧ accepts r.conf.acc c = true ∧ x = bcc1 a c)) :
    ReadsLike ([Config.flag] ++ (a :: c :: x :: rest) ++ [Config.flag]) r .malformed := by
  simp only [List.mem_cons, not_or] at hf
  obtain ⟨ha, hc, hx, hrest⟩ := hf
  obtain ⟨hidle, hnever⟩ := bad_header r h a c x (Ne.symm ha) (Ne.symm hc) (Ne.symm hx) hbad
  obtain ⟨hskip, hskips⟩ := Recognizer.takeAll_idle hidle hrest
  have hsplit : [Config.flag] ++ (a :: c :: x :: rest) = [Config.flag, a, c, x] ++ rest := rfl
  rw [hsplit]
  refine readsLike_malformed (hnever.append hskips) ?_
  rw [Recognizer.takeAll_append, hskip]
  exact ⟨.inl hidle, by rw [conf_takeAll]; exact h.expA, fun hseen => by rw [hidle] at hseen; cases hseen⟩

/-- After a good header bytes that are no body are dropped (R99). -/
theorem HeaderState.readsLike_noBody (hk : r.conf.kind = .info) {c : Byte} (hc : accepts r.conf.acc c = true)
    {rest : List Byte} (hn : NoBody rest) :
    ReadsLike ([Config.flag, r.conf.expA, c, bcc1 r.conf.expA c] ++ (rest ++ [Config.flag])) r .malformed := by
  have hheader := (Recognizer.takeAll_header h hc).1
  rw [headerDone_info (r := { r with cLatch := c }) hk] at hheader
  have hstart : AtBodyStart (r.takeAll [Config.flag, r.conf.expA, c, bcc1 r.conf.expA c]) := by
    rw [hheader]
    exact ⟨rfl, hk, rfl, rfl⟩
  obtain ⟨hnever, m, hleft⟩ := hn.drops _ hstart
  refine ⟨fun n hlt => ((header_never h hc).append hnever).at n hlt.le, ?_⟩
  rw [AgreesWith, Recognizer.takeAll_append, hleft]

/-- A well-formed body is read into RXBUF, whatever its checksum-2 (R144). -/
theorem HeaderState.readsLike_infoWire (hk : r.conf.kind = .info) {sb : Bit}
    (hc : accepts r.conf.acc (cInfo sb) = true) {us : List BodyUnit} (hu : bodyWf us = true) {p : List Byte} {x : Byte}
    (hv : bodyValues us = p ++ [x]) :
    ReadsLike (infoWire r.conf.expA sb (bodyBytes us)) r (.frame sb p (decide (bcc2 p = x))) := by
  obtain ⟨hall, hnever⟩ := Recognizer.takeAll_infoWire h hk hc hu
  have hlen : p.length < Config.rxbufCap := len_body hu hv
  refine ⟨neverDone_prefix hnever, ?_⟩
  rw [hv] at hall
  rw [AgreesWith, hall]
  exact ⟨rfl, infoBit_cInfo sb, (received_withFrame r sb p x hlen).1, good_of hlen⟩

end

/-- Under CFG_INFO the recognizer reads a delimited run as the parser does: too short, with another header, with no body,
or a frame. -/
theorem HeaderState.readsLike_parseInfo {r : Recognizer} (h : HeaderState r) (hconf : r.conf = cfgInfo)
    {inner : List Byte} (hf : Config.flag ∉ inner) :
    ReadsLike ([Config.flag] ++ inner ++ [Config.flag]) r (parseInfo ([Config.flag] ++ inner ++ [Config.flag])) := by
  by_cases hshort : inner.length < 3
  · obtain ⟨hnever, hheader⟩ := short_inner r h inner hf hshort
    rw [parse_short inner (by omega)]
    exact readsLike_malformed hnever hheader
  obtain ⟨a, c, x, rest, rfl⟩ : ∃ a c x rest, inner = a :: c :: x :: rest := by
    match inner with
    | [] | [_] | [_, _] => simp at hshort
    | a :: c :: x :: rest => exact ⟨a, c, x, rest, rfl⟩
  have hexpA : r.conf.expA = Config.aTx := by rw [hconf]; rfl
  have hkind : r.conf.kind = .info := by rw [hconf]; rfl
  by_cases hgood : a = Config.aTx ∧ accepts cfgInfo.acc c = true ∧ x = bcc1 a c
  · obtain ⟨rfl, hacc, rfl⟩ := hgood
    rw [← hconf] at hacc
    have hrest : Config.flag ∉ rest := fun hm => hf (by simp [hm])
    obtain hno | ⟨us, hu, rfl⟩ := noBody_or_bodyWf hrest
    · rw [hno.parseInfo, List.append_assoc]
      have hdrop := h.readsLike_noBody hkind hacc hno
      rw [hexpA] at hdrop
      exact hdrop
    · obtain ⟨sb, rfl⟩ : ∃ sb, c = cInfo sb := by
        rw [hconf, cfgInfo_accepts] at hacc
        rcases hacc with rfl | rfl
        · exact ⟨_, rfl⟩
        · exact ⟨_, rfl⟩
      obtain ⟨p, y, hv, -⟩ := body_split hu
      have hread := h.readsLike_infoWire hkind hacc hu hv
      rw [hexpA, ← parseInfo_infoWire sb hu hv] at hread
      exact hread
  · rw [parseInfo_badHeader rest hgood]
    refine h.readsLike_badHeader hf ?_
    rw [hconf]
    exact hgood

end Sys2Proof.Machine

open Sys2Proof Sys2Proof.Machine

/-- Settles O15: an accepted frame is supervisory or an information frame, as the configuration expects. -/
theorem resynchronisesOnTheNextFrame : Obligations.ResynchronisesOnTheNextFrame := by
  refine ⟨fun r i bs h hwf hbytes hacc hkind => ?_, fun r hx hk => by simp [Recognizer.take, hx, hk, Recognizer.goTo]⟩
  cases i with
  | set | ua | disc | rr | rej =>
    cases hbytes
    exact h.recognises_sup (by simp [hkind]) rfl hacc
  | info a sb body =>
    cases hbytes
    exact h.recognises_info (hkind.mpr ⟨a, sb, body, rfl⟩) hwf hacc
  | escFlag | escEsc | openS | openR | write | read | closeS | closeR => cases hacc

/-- Settles O16: the recognizer reads every delimited run as the parser does. -/
theorem recognizerAgreesWithParseInfo : Obligations.RecognizerAgreesWithParseInfo :=
  fun _ _ h hconf hf => h.readsLike_parseInfo hconf hf

end

section
/-! SUPPORT. What every step keeps (spec/10_state.md, spec/20_memory.md): the invariant of R46 and the canonical form of the
buffers, event by event. -/

namespace Sys2Proof.Machine

/-- A command is no event while BUSY = 1 (log 7). -/
theorem hostCommand_of_busy {ok : Bool} {run : State → State} {s : State} (hb : s.busy = true) :
    hostCommand ok run s = s := by
  simp [hostCommand, hb]

/-- A command does nothing, is refused, or starts. -/
theorem command_cases (op : Op) (s : State) :
    (s.busy = true ∧ hostCommand (legal op s) (start op) s = s)
      ∨ (s.busy = false ∧ legal op s = false ∧ hostCommand (legal op s) (start op) s = illegalCommand s)
      ∨ (s.busy = false ∧ legal op s = true ∧ hostCommand (legal op s) (start op) s = start op s) := by
  cases hb : s.busy with
  | true => exact .inl ⟨rfl, hostCommand_of_busy hb⟩
  | false =>
    cases hl : legal op s with
    | false => exact .inr (.inl ⟨rfl, rfl, hc_bad hb⟩)
    | true => exact .inr (.inr ⟨rfl, rfl, hc_run hb⟩)

/-! ### The invariant of R46 -/

theorem RecogOk.reset : RecogOk State.reset.recog :=
  RecogOk.restart State.reset.recog.conf State.reset.recog

/-- The Reset event leaves a Ready machine with no session (R260). -/
theorem inv_resetEvent (s : State) : Inv (resetEvent s) :=
  .ofReady rfl rfl rfl rfl RecogOk.reset (Nat.zero_le _) (by simp [resetEvent, State.reset])

/-- Of a Ready machine the invariant says nothing about RESULT, TXPAY and the environment. -/
theorem Inv.whileReady {s t : State} (h : Inv s) (hb : s.busy = false)
    (ht : t = { s with result := t.result, txpay := t.txpay, txpayLen := t.txpayLen, env := t.env }) : Inv t := by
  obtain ⟨hready, hdisarmed⟩ := h.ready hb
  rw [ht]
  exact .ofReady hb hready hdisarmed h.alarm h.recog h.txLen h.roleBits

theorem Inv.command {s : State} (h : Inv s) (op : Op) : Inv (hostCommand (legal op s) (Machine.start op) s) := by
  obtain ⟨-, he⟩ | ⟨hb, -, he⟩ | ⟨hb, hl, he⟩ := command_cases op s <;> rw [he]
  · exact h
  · exact h.whileReady hb rfl
  · exact h.start hb op hl

/-- TIMER only falls, so it stays within what arm() loaded (R24, R246). -/
theorem Inv.tick {s : State} (h : Inv s) : Inv (tickTimer s) := by
  unfold tickTimer
  split
  · exact { h with
      armed := fun ha => { h.armed ha with count := le_trans (Nat.sub_le _ _) (h.armed ha).count }
      busy := fun hb => { h.busy hb with } }
  · exact h

/-- Configuration registers change only while SESSION = Closed and BUSY = 0 (R32), where the invariant reads none. -/
theorem Inv.writeCfg {s : State} (h : Inv s) (c : Cfg) : Inv (writeCfg c s) := by
  unfold Machine.writeCfg
  split
  · next hc =>
    obtain ⟨hclosed, hb⟩ := hc
    obtain ⟨hready, hdisarmed⟩ := h.ready hb
    exact .ofReady hb hready hdisarmed h.alarm h.recog h.txLen (by simp [hclosed])
  · exact h

theorem Inv.writeTxpayLen {s : State} (h : Inv s) (n : Len) : Inv (writeTxpayLen n s) := by
  unfold Machine.writeTxpayLen
  split
  · exact h
  · next hb => exact h.whileReady (by simpa using hb) rfl

theorem Event.keepsInv {i : Input} {s t : State} (he : Event i s t) (h : Inv s) : Inv t := by
  cases he with
  | reset => exact inv_resetEvent s
  | cmd op => exact h.command op
  | bytes bs => exact deliver_keeps (fun _ _ hs => hs.setEnv _) (fun _ b hs hp => hs.byte hp b) bs s h
  | poll => exact pollOnce_keeps (fun _ _ hs => hs.setEnv _) (fun _ b hs hp => hs.byte hp b) s h
  | tick _ => exact h.tick
  | timeout _ _ _ hd => exact h.timeout hd
  | notDue _ => exact h
  | cfg _ c _ _ => exact h.writeCfg c
  | txpay k b _ _ hb => exact h.whileReady hb rfl
  | txpayBusy => exact h
  | txpayLen n => exact h.writeTxpayLen n
  | env _ _ e _ _ => exact h.setEnv e

/-! ### The canonical form of the buffers -/

/-- A state whose TXPAY and RXBUF are those of s and whose TXBUF is that of s or has been loaded with a frame. -/
structure LoadsTxbuf (s t : State) : Prop where
  txpay : t.txpay = s.txpay
  rxbuf : t.recog.rxbuf = s.recog.rxbuf
  txbuf : t.txbuf = s.txbuf ∨ ∃ bs, t.txbuf = Memory.writeList s.txbuf 0 bs

theorem LoadsTxbuf.buffersOk {s t : State} (hl : LoadsTxbuf s t) (h : BuffersOk s) : BuffersOk t := by
  refine ⟨hl.txpay ▸ h.txpay, ?_, hl.rxbuf ▸ h.rxbuf⟩
  rcases hl.txbuf with e | ⟨bs, e⟩ <;> rw [e]
  · exact h.txbuf
  · exact Memory.writeList_wf 0 bs h.txbuf

theorem beginHandshake_loads (conf : RecConfig) (a c : Byte) (s : State) :
    LoadsTxbuf s (beginHandshake conf (buildSup a c s)) := by
  rw [beginHandshake_eq]
  split <;> exact ⟨rfl, rfl, .inr ⟨_, rfl⟩⟩

theorem start_loads {op : Op} {s : State} (hl : legal op s = true) : LoadsTxbuf s (start op s) := by
  cases op with
  | openCmd =>
    show LoadsTxbuf s (openByRole s)
    cases hr : s.cfg.role with
    | sender =>
      cases hok : s.env.shimOk with
      | true =>
        rw [openByRole_sender hr hok]
        exact { beginHandshake_loads cfgUa Config.aTx Config.cSet (chanOpen (acceptCommand .openCmd s)) with }
      | false => rw [openByRole_noPort hok]; exact ⟨rfl, rfl, .inl rfl⟩
    | receiver =>
      cases hok : s.env.shimOk with
      | true => rw [openByRole_receiver hr hok]; exact ⟨rfl, rfl, .inl rfl⟩
      | false => rw [openByRole_noPort hok]; exact ⟨rfl, rfl, .inl rfl⟩
  | writeCmd =>
    have hlen : s.txpayLen.toNat ≤ Config.maxPayload := by
      simp only [legal, Bool.and_eq_true, decide_eq_true_eq] at hl
      exact hl.2
    show LoadsTxbuf s (writeStart s)
    rw [writeStart_eq s hlen]
    split <;> exact ⟨rfl, rfl, .inr ⟨_, rfl⟩⟩
  | readCmd => exact ⟨rfl, rfl, .inl rfl⟩
  | closeCmd =>
    show LoadsTxbuf s (closeByRole s)
    cases hr : s.cfg.role with
    | sender =>
      rw [closeByRole_sender hr]
      exact { beginHandshake_loads cfgDiscReply Config.aTx Config.cDisc (acceptCommand .closeCmd s) with }
    | receiver => rw [closeByRole_receiver hr]; exact ⟨rfl, rfl, .inl rfl⟩

/-- An engine rule may build a reply (R145). -/
theorem recognised_loads (s : State) : LoadsTxbuf s (frameRecognised s) := by
  cases hop : s.op with
  | openCmd =>
    cases hr : s.cfg.role with
    | sender => rw [recognised_openSender hop hr]; exact ⟨rfl, rfl, .inl rfl⟩
    | receiver => rw [recognised_openReceiver hop hr, openReceiverDone_eq]; exact ⟨rfl, rfl, .inr ⟨_, rfl⟩⟩
  | writeCmd =>
    rw [recognised_write hop, writeAnswered]
    split
    · exact ⟨rfl, rfl, .inl rfl⟩
    · split <;> exact ⟨rfl, rfl, .inl rfl⟩
  | readCmd =>
    rw [recognised_read hop, readRecognised, readAccepts_eq, readRejects_eq, readDuplicate_eq]
    split
    · split <;> exact ⟨rfl, rfl, .inr ⟨_, rfl⟩⟩
    · exact ⟨rfl, rfl, .inr ⟨_, rfl⟩⟩
  | closeCmd =>
    cases hr : s.cfg.role with
    | sender => rw [recognised_closeSender hop hr, closeSenderDone_eq]; exact ⟨rfl, rfl, .inr ⟨_, rfl⟩⟩
    | receiver => rw [recognised_closeReceiver hop hr, closeReceiverDone_eq]; exact ⟨rfl, rfl, .inr ⟨_, rfl⟩⟩

/-- A Timeout sends TXBUF as it stands (R167, R202). -/
theorem timeout_loads (s : State) : LoadsTxbuf s (timeoutEvent s) := by
  cases hop : s.op with
  | writeCmd =>
    rw [timeoutEvent_write hop]
    split <;> exact ⟨rfl, rfl, .inl rfl⟩
  | readCmd =>
    rw [timeoutEvent, hop]
    exact ⟨rfl, rfl, .inl rfl⟩
  | openCmd | closeCmd =>
    rw [timeoutEvent_handshake (by simp [hop])]
    split <;> exact ⟨rfl, rfl, .inl rfl⟩

theorem BuffersOk.byte {s : State} (h : BuffersOk s) (b : Byte) : BuffersOk (rxByte b s) := by
  have htaken : BuffersOk { s with recog := s.recog.take b } :=
    ⟨h.txpay, h.txbuf, Recognizer.take_rxbuf_wf h.rxbuf b⟩
  unfold rxByte
  dsimp only
  split
  · exact (recognised_loads _).buffersOk htaken
  · exact htaken

theorem BuffersOk.command {s : State} (h : BuffersOk s) (op : Op) :
    BuffersOk (hostCommand (legal op s) (start op) s) := by
  obtain ⟨-, he⟩ | ⟨-, -, he⟩ | ⟨-, hl, he⟩ := command_cases op s <;> rw [he]
  · exact h
  · exact { h with }
  · exact (start_loads hl).buffersOk h

theorem Event.keepsBuffersOk {i : Input} {s t : State} (he : Event i s t) (h : BuffersOk s) : BuffersOk t := by
  cases he with
  | reset => exact ⟨Memory.nil_wf, Memory.nil_wf, Memory.nil_wf⟩
  | cmd op => exact h.command op
  | bytes bs => exact deliver_keeps (fun _ _ hs => { hs with }) (fun _ b hs _ => hs.byte b) bs s h
  | poll => exact pollOnce_keeps (fun _ _ hs => { hs with }) (fun _ b hs _ => hs.byte b) s h
  | tick _ => unfold tickTimer; split <;> exact { h with }
  | timeout _ _ _ _ => exact (timeout_loads s).buffersOk h
  | notDue _ => exact h
  | cfg _ c _ _ => unfold writeCfg; split <;> exact { h with }
  | txpay k b _ _ _ => exact { h with txpay := Memory.write_wf k b h.txpay }
  | txpayBusy => exact h
  | txpayLen n => unfold writeTxpayLen; split <;> exact { h with }
  | env _ _ e _ _ => exact { h with }

end Sys2Proof.Machine

open Sys2Proof Sys2Proof.Machine

/-- Settles O47: each event keeps the invariant, so a step does. -/
theorem everyStepKeepsTheInvariant : Obligations.EveryStepKeepsTheInvariant :=
  fun _ _ h hstep => step_keeps (fun _ _ hs => hs.setEnv _) (fun _ _ _ he hs => he.keepsInv hs) hstep h

/-- Settles O48: the only writes are of a frame into TXBUF, of a byte into RXBUF or TXPAY, and of nothing at a Reset. -/
theorem everyStepKeepsTheBuffersCanonical : Obligations.EveryStepKeepsTheBuffersCanonical :=
  fun _ _ h hstep => step_keeps (fun _ _ hs => { hs with }) (fun _ _ _ he hs => he.keepsBuffersOk hs) hstep h

/-- Settles O49: nothing is in progress, and no byte is listed in any buffer. -/
theorem resetMeetsTheInvariants : Obligations.ResetMeetsTheInvariants :=
  ⟨inv_resetEvent State.reset, Memory.nil_wf, Memory.nil_wf, Memory.nil_wf⟩

end

section
/-! SUPPORT. What a step can change (spec/10_state.md, spec/60_exceptions.md): completions and RESULT, the sequence bits, and
the registers that belong to the host, each read off what one event can do. -/

namespace Sys2Proof.Machine

/-- A step is one event, from the state with its input taken or, for a Tick that waits, still there. -/
theorem step_event {s t : State} (h : step s = .next t) :
    (s.env.inputs = [] ∧ t = s) ∨ ∃ i rest is, s.env.inputs = i :: rest ∧ Event i (withInputs is s) t := by
  obtain hnone | ⟨rest, hin, hdue, rfl⟩ | ⟨i, rest, hin, he⟩ := step_cases h
  · exact .inl hnone
  · exact .inr ⟨_, rest, s.env.inputs, hin, .timeout .tick s (.inl rfl) hdue⟩
  · exact .inr ⟨i, rest, rest, hin, he⟩

/-- From s to t nothing has moved but the timer, the host's registers and the environment, and nothing was output. -/
def Silent (s t : State) : Prop :=
  t = { s with timer := t.timer, cfg := t.cfg, txpay := t.txpay, txpayLen := t.txpayLen, env := t.env }
    ∧ t.env.outputs = s.env.outputs

/-- An event other than Reset moves the operation in progress on, starts a command, or is silent. -/
theorem Event.moves {i : Input} {s t : State} (he : Event i s t) (hinv : Inv s) (hi : i ≠ .reset) :
    (s.busy = true ∧ Moved s t) ∨ Starts s t ∨ Silent s t := by
  obtain hr | ⟨hb, hmoved | ⟨ht, ho⟩⟩ | ⟨-, ⟨-, hstarts⟩ | ⟨-, ht, -⟩ | ⟨-, ht⟩ | ⟨-, ht⟩ | ⟨ht, ho, -⟩⟩ :=
    event_moves he hinv
  · exact absurd hr hi
  · exact .inl ⟨hb, hmoved⟩
  · exact .inr (.inr ⟨by rw [ht], ho⟩)
  · exact .inr (.inl hstarts)
  · exact .inr (.inr ⟨by rw [ht], by rw [ht]⟩)
  · exact .inr (.inr ⟨by rw [ht], by rw [ht]⟩)
  · exact .inr (.inr ⟨by rw [ht], by rw [ht]⟩)
  · exact .inr (.inr ⟨by rw [ht], ho⟩)

/-! ### Completions (R236) -/

/-- From s to t: no Done, RESULT as it was and an operation in progress still in progress; or one Done, the last output,
that says what RESULT holds, in a Ready machine. -/
def ReportsOnce (s t : State) : Prop :=
  ∃ new : List Output, t.env.outputs = s.env.outputs ++ new
    ∧ ((doneCount new = 0 ∧ t.result = s.result ∧ (s.busy = true → t.busy = true))
      ∨ (doneCount new = 1 ∧ t.busy = false ∧ t.phase = .ready ∧ t.timer.armed = false ∧ t.timer.alarm = false
        ∧ new.getLast? = some (.done t.result.code t.result.kind t.result.len)))

theorem Silent.reportsOnce {s t : State} (h : Silent s t) : ReportsOnce s t := by
  obtain ⟨ht, ho⟩ := h
  exact ⟨[], by simp [ho], .inl ⟨rfl, by rw [ht], fun hb => by rw [ht]; exact hb⟩⟩

theorem Waits.reportsOnce {s t : State} (h : Waits s t) : ReportsOnce s t := by
  obtain ⟨pre, hpre, hcount, -⟩ := h.outputs
  exact ⟨pre, hpre, .inl ⟨hcount, h.result, fun _ => h.busy⟩⟩

theorem Completes.reportsOnce {s t : State} (h : Completes s t) : ReportsOnce s t := by
  obtain ⟨pre, hpre, hcount, -⟩ := h.outputs
  refine ⟨_, hpre, .inr ⟨?_, h.busy, h.phase, h.armed, h.alarm, by simp⟩⟩
  rw [doneCount_append, hcount]
  rfl

theorem Starts.reportsOnce {s t : State} (h : Starts s t) : ReportsOnce s t := by
  obtain ⟨new, hnew, ⟨hcount, hresult, hbusy⟩ | hdone⟩ := h.outputs
  · exact ⟨new, hnew, .inl ⟨hcount, hresult, fun _ => hbusy⟩⟩
  · exact ⟨new, hnew, .inr hdone⟩

theorem Event.reportsOnce {i : Input} {s t : State} (he : Event i s t) (hinv : Inv s) (hi : i ≠ .reset) :
    ReportsOnce s t := by
  obtain ⟨-, hwaits | hcompletes⟩ | hstarts | hsilent := he.moves hinv hi
  · exact hwaits.reportsOnce
  · exact hcompletes.reportsOnce
  · exact hstarts.reportsOnce
  · exact hsilent.reportsOnce

/-! ### The sequence bits (R46 i) -/

/-- From s to t NS stays, is cleared by a successful OPEN, or flips at a WRITE that completes with Ok (R21). -/
def NsMoves (s t : State) : Prop :=
  t.ns = s.ns ∨ (t.ns = 0#1 ∧ s.op = .openCmd ∧ s.session = .closed ∧ t.session = .opened)
    ∨ (t.ns = 1#1 - s.ns ∧ s.op = .writeCmd ∧ s.busy = true ∧ t.busy = false
      ∧ t.result = { code := .ok, kind := .written, len := s.txLen })

/-- From s to t NR stays, is cleared by a successful OPEN, or flips at a READ that delivers (R22). -/
def NrMoves (s t : State) : Prop :=
  t.nr = s.nr ∨ (t.nr = 0#1 ∧ s.op = .openCmd ∧ s.session = .closed ∧ t.session = .opened)
    ∨ (t.nr = 1#1 - s.nr ∧ s.op = .readCmd ∧ s.busy = true ∧ t.busy = false
      ∧ t.result.code = .ok ∧ t.result.kind = .delivered)

/-- An operation that completes moves the bits as R46 says: OPEN runs without a session. -/
theorem Completes.bitsMove {s t : State} (h : Completes s t) (hinv : Inv s) (hb : s.busy = true) :
    NsMoves s t ∧ NrMoves s t := by
  have hclosed := (hinv.busy hb).opening
  constructor
  · obtain hns | ⟨h0, hop, hopened⟩ | ⟨hflip, hop, hresult⟩ := h.ns
    · exact .inl hns
    · exact .inr (.inl ⟨h0, hop, hclosed hop, hopened⟩)
    · exact .inr (.inr ⟨hflip, hop, hb, h.busy, hresult⟩)
  · obtain hnr | ⟨h0, hop, hopened⟩ | ⟨hflip, hop, hcode, hkind⟩ := h.nr
    · exact .inl hnr
    · exact .inr (.inl ⟨h0, hop, hclosed hop, hopened⟩)
    · exact .inr (.inr ⟨hflip, hop, hb, h.busy, hcode, hkind⟩)

theorem Event.bitsMove {i : Input} {s t : State} (he : Event i s t) (hinv : Inv s) (hi : i ≠ .reset) :
    NsMoves s t ∧ NrMoves s t := by
  obtain ⟨hb, hwaits | hcompletes⟩ | hstarts | ⟨ht, -⟩ := he.moves hinv hi
  · exact ⟨.inl hwaits.ns, .inl hwaits.nr⟩
  · exact hcompletes.bitsMove hinv hb
  · exact ⟨.inl hstarts.ns, .inl hstarts.nr⟩
  · exact ⟨.inl (by rw [ht]), .inl (by rw [ht])⟩

/-! ### The registers the host writes (R32, R61, R71) -/

theorem isCfgWrite_cases {i : Input} (h : isCfgWrite i = true) :
    (∃ n, i = .putMaxRetries n) ∨ (∃ n, i = .putTimeout n) ∨ (∃ r, i = .putRole r) ∨ (∃ p, i = .putPort p)
      ∨ ∃ b, i = .putBaud b := by
  cases i <;> simp_all [isCfgWrite]

/-- From s to t no register of the host has changed. -/
structure KeepsHostRegs (s t : State) : Prop where
  cfg : t.cfg = s.cfg
  txpay : t.txpay = s.txpay
  txpayLen : t.txpayLen = s.txpayLen

theorem KeepsHostRegs.byte {s t : State} (h : KeepsHostRegs s t) (b : Byte) (hp : polling t = true) :
    KeepsHostRegs s (rxByte b t) := by
  obtain hw | hc := byte_moves (polling_spec hp).1 b
  · exact ⟨hw.cfg.trans h.cfg, hw.txpay.trans h.txpay, hw.txpayLen.trans h.txpayLen⟩
  · exact ⟨hc.cfg.trans h.cfg, hc.txpay.trans h.txpay, hc.txpayLen.trans h.txpayLen⟩

theorem keepsHostRegs_timeout (s : State) : KeepsHostRegs s (timeoutEvent s) := by
  cases hop : s.op with
  | writeCmd => rw [timeoutEvent_write hop]; split <;> exact ⟨rfl, rfl, rfl⟩
  | readCmd => rw [timeoutEvent, hop]; exact ⟨rfl, rfl, rfl⟩
  | openCmd | closeCmd => rw [timeoutEvent_handshake (by simp [hop])]; split <;> exact ⟨rfl, rfl, rfl⟩

theorem keepsHostRegs_command (op : Op) (s : State) :
    KeepsHostRegs s (hostCommand (legal op s) (start op) s) := by
  obtain ⟨-, he⟩ | ⟨-, -, he⟩ | ⟨-, hl, he⟩ := command_cases op s <;> rw [he]
  · exact ⟨rfl, rfl, rfl⟩
  · exact ⟨rfl, rfl, rfl⟩
  · have hstarts := start_starts hl
    exact ⟨hstarts.cfg, hstarts.txpay, hstarts.txpayLen⟩

/-- An event other than Reset keeps the registers of the host, or is a host write while BUSY = 0: to a configuration
register without a session, or to TXPAY or TXPAY_LEN. -/
theorem Event.hostRegs {i : Input} {s t : State} (he : Event i s t) (hi : i ≠ .reset) :
    KeepsHostRegs s t
      ∨ (s.busy = false ∧ s.session = .closed ∧ isCfgWrite i = true ∧ t.txpay = s.txpay ∧ t.txpayLen = s.txpayLen)
      ∨ (s.busy = false ∧ ((∃ k b, i = .putTxpay k b) ∨ ∃ n, i = .putTxpayLen n) ∧ t.cfg = s.cfg) := by
  cases he with
  | reset => exact absurd rfl hi
  | cmd op => exact .inl (keepsHostRegs_command op s)
  | bytes bs =>
    exact .inl (deliver_keeps (P := KeepsHostRegs s) (fun _ _ h => ⟨h.cfg, h.txpay, h.txpayLen⟩)
      (fun _ b h hp => h.byte b hp) bs s ⟨rfl, rfl, rfl⟩)
  | poll =>
    exact .inl (pollOnce_keeps (P := KeepsHostRegs s) (fun _ _ h => ⟨h.cfg, h.txpay, h.txpayLen⟩)
      (fun _ b h hp => h.byte b hp) s ⟨rfl, rfl, rfl⟩)
  | tick _ => exact .inl (by unfold tickTimer; split <;> exact ⟨rfl, rfl, rfl⟩)
  | timeout => exact .inl (keepsHostRegs_timeout s)
  | notDue | txpayBusy | env => exact .inl ⟨rfl, rfl, rfl⟩
  | cfg _ c _ hw =>
    unfold writeCfg
    split
    · next hc => exact .inr (.inl ⟨hc.2, hc.1, hw, rfl, rfl⟩)
    · exact .inl ⟨rfl, rfl, rfl⟩
  | txpay k b _ _ hb => exact .inr (.inr ⟨hb, .inl ⟨k, b, rfl⟩, rfl⟩)
  | txpayLen n =>
    unfold writeTxpayLen
    split
    · exact .inl ⟨rfl, rfl, rfl⟩
    · next hb => exact .inr (.inr ⟨by simpa using hb, .inr ⟨n, rfl⟩, rfl⟩)

theorem writeCfg_eq (c : Cfg) (s : State) :
    writeCfg c s = { s with cfg := if s.session = .closed ∧ s.busy = false then c else s.cfg } := by
  unfold writeCfg
  split <;> rfl

/-- A host write to a configuration register, as a step (R32). -/
theorem step_writeCfg {i : Input} {c : Cfg} {rest : List Input} {s : State} (h : s.env.inputs = i :: rest)
    (hi : i ≠ .tick) (ht : takeInput i (withInputs rest s) = .next (writeCfg c (withInputs rest s))) :
    step s = .next { s with
      cfg := if s.session = .closed ∧ s.busy = false then c else s.cfg
      env := { s.env with inputs := rest } } := by
  rw [step_of h hi, ht, writeCfg_eq]
  rfl

/-- A host write to TXPAY within its space, as a step (R61, R71). -/
theorem step_putTxpay {k : Nat} {b : Byte} {rest : List Input} {s : State} (h : s.env.inputs = .putTxpay k b :: rest)
    (hk : k < Config.maxPayload) :
    step s = .next { s with
      txpay := if s.busy = true then s.txpay else Memory.write s.txpay k b
      env := { s.env with inputs := rest } } := by
  rw [step_of h (by simp), takeInput, writeTxpay, if_neg (not_le.mpr hk)]
  cases hb : s.busy <;> simp [withInputs, hb]

/-- A host write to TXPAY_LEN, as a step (R71). -/
theorem step_putTxpayLen {n : Len} {rest : List Input} {s : State} (h : s.env.inputs = .putTxpayLen n :: rest) :
    step s = .next { s with
      txpayLen := if s.busy = true then s.txpayLen else n
      env := { s.env with inputs := rest } } := by
  rw [step_of h (by simp), takeInput, writeTxpayLen]
  cases hb : s.busy <;> simp [withInputs, hb]

end Sys2Proof.Machine

open Sys2Proof Sys2Proof.Machine

/-- Settles O55: a Reset emits nothing; every other event waits, completes, starts a command, or is silent. -/
theorem completionsComeOnceAndWriteResult : Obligations.CompletionsComeOnceAndWriteResult := by
  intro s t hinv hstep
  by_cases hreset : ∃ rest, s.env.inputs = .reset :: rest
  · obtain ⟨rest, hin⟩ := hreset
    rw [step_of hin (by simp)] at hstep
    cases hstep
    exact ⟨[], by simp [resetEvent], by simp [doneCount], by simp [doneCount], fun _ hn => absurd ⟨rest, hin⟩ hn,
      fun _ hn => absurd ⟨rest, hin⟩ hn⟩
  · have hreports : ReportsOnce s t := by
      obtain ⟨-, rfl⟩ | ⟨i, rest, is, hin, he⟩ := step_event hstep
      · exact Silent.reportsOnce ⟨rfl, rfl⟩
      · exact he.reportsOnce (hinv.setEnv _) fun hi => hreset ⟨rest, hi ▸ hin⟩
    obtain ⟨new, hnew, ⟨hcount, hresult, hbusy⟩ | ⟨hcount, hdone⟩⟩ := hreports
    · exact ⟨new, hnew, by simp [hcount], by simp [hcount], fun _ _ => hresult, fun _ _ => hbusy⟩
    · exact ⟨new, hnew, by simp [hcount], fun _ => hdone, by simp [hcount], by simp [hcount]⟩

/-- Settles O50: a Reset clears both bits; every other event moves them as R21 and R22 say. -/
theorem sequenceBitsChangeOnlyOnSuccess : Obligations.SequenceBitsChangeOnlyOnSuccess := by
  intro s t hinv hstep
  by_cases hreset : ∃ rest, s.env.inputs = .reset :: rest
  · obtain ⟨rest, hin⟩ := hreset
    rw [step_of hin (by simp)] at hstep
    cases hstep
    exact ⟨.inr (.inl ⟨rfl, .inl ⟨rest, hin⟩⟩), .inr (.inl ⟨rfl, .inl ⟨rest, hin⟩⟩)⟩
  · have hmoves : NsMoves s t ∧ NrMoves s t := by
      obtain ⟨-, rfl⟩ | ⟨i, rest, is, hin, he⟩ := step_event hstep
      · exact ⟨.inl rfl, .inl rfl⟩
      · exact he.bitsMove (hinv.setEnv _) fun hi => hreset ⟨rest, hi ▸ hin⟩
    obtain ⟨hns, hnr⟩ := hmoves
    exact ⟨hns.imp_right (.imp_left fun ⟨h0, hopen⟩ => ⟨h0, .inr hopen⟩),
      hnr.imp_right (.imp_left fun ⟨h0, hopen⟩ => ⟨h0, .inr hopen⟩)⟩

/-- Settles O51: each write is taken under its condition, and no other event but Reset changes CFG. -/
theorem configurationChangesOnlyWhileClosed : Obligations.ConfigurationChangesOnlyWhileClosed := by
  refine ⟨fun _ _ _ h => step_writeCfg h (by simp) rfl, fun _ _ _ h => step_writeCfg h (by simp) rfl,
    fun _ _ _ h => step_writeCfg h (by simp) rfl, fun _ _ _ h => step_writeCfg h (by simp) rfl,
    fun _ _ _ h => step_writeCfg h (by simp) rfl, fun s t hstep hne => ?_⟩
  obtain ⟨-, rfl⟩ | ⟨i, rest, is, hin, he⟩ := step_event hstep
  · exact absurd rfl hne
  by_cases hi : i = .reset
  · exact .inl ⟨rest, hi ▸ hin⟩
  obtain hkeeps | ⟨hb, hclosed, hwrite, -⟩ | ⟨-, -, hcfg⟩ := he.hostRegs hi
  · exact absurd hkeeps.cfg hne
  · exact .inr ⟨hclosed, hb, i, rest, hin, isCfgWrite_cases hwrite⟩
  · exact absurd hcfg hne

/-- Settles O52: each write is taken while BUSY = 0, and no other event but Reset changes TXPAY or TXPAY_LEN. -/
theorem payloadBufferBelongsToTheHost : Obligations.PayloadBufferBelongsToTheHost := by
  refine ⟨fun rest s k b h hk => ⟨_, step_putTxpay h hk, rfl, fun hb => if_pos hb, fun hb j => ?_⟩,
    fun _ _ _ h => step_putTxpayLen h, fun s t hstep hne => ?_⟩
  · simp only [hb, Bool.false_eq_true, if_false]
    split
    · next hj => rw [hj, Memory.read_write_self]
    · next hj => exact Memory.read_write_other _ _ hj
  · obtain ⟨-, rfl⟩ | ⟨i, rest, is, hin, he⟩ := step_event hstep
    · simp at hne
    by_cases hi : i = .reset
    · exact .inl ⟨rest, hi ▸ hin⟩
    obtain hkeeps | ⟨-, -, -, hpay, hlen⟩ | ⟨hb, ⟨k, b, rfl⟩ | ⟨n, rfl⟩, -⟩ := he.hostRegs hi
    · exact absurd hne (by simp [hkeeps.txpay, hkeeps.txpayLen])
    · exact absurd hne (by simp [hpay, hlen])
    · exact .inr ⟨hb, .inl ⟨k, b, rest, hin⟩⟩
    · exact .inr ⟨hb, .inr ⟨n, rest, hin⟩⟩

/-- Settles O54: while BUSY = 0 an event that is no command, Reset or host write moves the environment alone. -/
theorem quiescentBetweenCommands : Obligations.QuiescentBetweenCommands := by
  intro i rest s t hinv hb hin hreset hcmd hrole hretries htimeout hport hbaud htxpay htxpayLen hstep
  have hdisarmed := (hinv.ready hb).2
  obtain ⟨hnone, -⟩ | ⟨_, -, hdue, -⟩ | ⟨j, rest', hin', he⟩ := step_cases hstep
  · simp [hnone] at hin
  · simp [timeoutDue, hdisarmed] at hdue
  obtain ⟨rfl, rfl⟩ : i = j ∧ rest = rest' := by simpa [hin] using hin'
  have hidle : ¬ (withInputs rest s).busy = true := by simp [hb]
  obtain hr | ⟨hbusy, -⟩ | ⟨-, hready⟩ := event_moves he (hinv.setEnv _)
  · exact absurd hr hreset
  · exact absurd hbusy hidle
  obtain ⟨⟨op, hi⟩, -⟩ | ⟨hi, -⟩ | ⟨⟨k, b, hi⟩, -⟩ | ⟨⟨n, hi⟩, -⟩ | ⟨ht, ho, hinputs⟩ := hready
  · exact absurd hi (hcmd op)
  · obtain ⟨n, hi⟩ | ⟨n, hi⟩ | ⟨r, hi⟩ | ⟨p, hi⟩ | ⟨b, hi⟩ := isCfgWrite_cases hi
    · exact absurd hi (hretries n)
    · exact absurd hi (htimeout n)
    · exact absurd hi (hrole r)
    · exact absurd hi (hport p)
    · exact absurd hi (hbaud b)
  · exact absurd hi (htxpay k b)
  · exact absurd hi (htxpayLen n)
  · exact ⟨ht, ho, hinputs⟩

end


section
/-! SUPPORT. The laws of the checksums and of frame building (spec/40_codec.md), the constants they rest on (R10), and the
body of an information frame byte by byte (R140). -/

namespace Sys2Proof.Machine

/-! ### The checksums (R110 to R112) -/

/-- BCC2 does not depend on the order of the bytes, XOR being commutative and associative. -/
theorem bcc2_perm {p q : List Byte} (h : p.Perm q) : bcc2 p = bcc2 q := by
  induction h with
  | nil => rfl
  | cons x _ ih => rw [bcc2_cons, bcc2_cons, ih]
  | swap x y p => simp only [bcc2_cons, ← BitVec.xor_assoc, BitVec.xor_comm x y]
  | trans _ _ ih₁ ih₂ => exact ih₁.trans ih₂

theorem bcc2_snoc (p : List Byte) (x : Byte) : bcc2 (p ++ [x]) = bcc2 p ^^^ x := by
  simp [bcc2_append, bcc2_cons]

theorem bcc2_snoc_eq_zero (p : List Byte) (x : Byte) : bcc2 (p ++ [x]) = 0x00#8 ↔ bcc2 p = x := by
  rw [bcc2_snoc, xor_eq_zero]

/-- One changed byte is seen. -/
theorem bcc2_middle_inj {p q : List Byte} {x y : Byte} (h : bcc2 (p ++ x :: q) = bcc2 (p ++ y :: q)) : x = y := by
  simpa [bcc2_append, bcc2_cons] using h

/-- The same bits changed in two bytes cancel. -/
theorem bcc2_two_changed (p q r : List Byte) (x y e : Byte) :
    bcc2 (p ++ (x ^^^ e) :: q ++ (y ^^^ e) :: r) = bcc2 (p ++ x :: q ++ y :: r) := by
  have hmoved : bcc2 (p ++ (x ^^^ e) :: q ++ (y ^^^ e) :: r) = e ^^^ (e ^^^ bcc2 (p ++ x :: q ++ y :: r)) := by
    simp only [bcc2_append, bcc2_cons]
    ac_rfl
  rw [hmoved, ← BitVec.xor_assoc, BitVec.xor_self, BitVec.zero_xor]

/-! ### The body byte by byte (R140) -/

/-- FLAG-free body bytes are whole units, or end in an ESC, which then pends; too many units end in Idle (R140, R143). -/
theorem destuff_takeAll {r : Recognizer} (h : AtBodyStart r) {w : List Byte} (hw : Config.flag ∉ w)
    (hx : (r.takeAll w).rxs = .checksumVerified) (he : (r.takeAll w).escPend = false) :
    destuff w = some (Memory.firstBytes (r.takeAll w).rxbuf (r.takeAll w).rxLen.toNat) := by
  obtain ⟨us, hus, hbytes⟩ := units_of_bytes w hw
  by_cases hlong : Config.rxbufCap < us.length
  · obtain ⟨hidle, -⟩ := Recognizer.takeAll_overflow hus h.rxs h.kind h.escPend (by simp [h.rxLen])
      (by simpa [h.rxLen] using hlong)
    rcases hbytes with rfl | rfl
    · rw [hidle] at hx
      cases hx
    · rw [Recognizer.takeAll_append, (Recognizer.takeAll_idle hidle (by decide)).1, hidle] at hx
      cases hx
  · obtain ⟨hbody, -⟩ := Recognizer.takeAll_body hus h.rxs h.kind h.escPend (by simpa [h.rxLen] using hlong)
    rcases hbytes with rfl | rfl
    · have hlen : (BitVec.ofNat 12 us.length).toNat = (bodyValues us).length := by
        have hcap : Config.rxbufCap = 1001 := rfl
        rw [bodyValues_length, BitVec.toNat_ofNat]
        omega
      have hread := Memory.firstBytes_writeList r.rxbuf (bodyValues us)
      simp only [destuff_bodyBytes hus, hbody, h.rxLen, BitVec.zero_add, hlen, BitVec.toNat_zero, hread]
    · rw [Recognizer.takeAll_append, hbody] at he
      simp [Recognizer.take, h.rxs, h.kind, h.escPend, Recognizer.takeBody, esc_ne_flag] at he

/-! ### Frames in TXBUF (R117, R118) -/

theorem txLen_loadTxbuf {bs : List Byte} (s : State) (h : bs.length < 4096) :
    (loadTxbuf bs s).txLen.toNat = bs.length := by
  simpa using h

/-- Past the frame TXBUF keeps what it held (log 27). -/
theorem read_loadTxbuf_beyond (bs : List Byte) (s : State) {k : Nat} (h : bs.length ≤ k) :
    Memory.read (loadTxbuf bs s).txbuf k = Memory.read s.txbuf k := by
  rw [loadTxbuf_txbuf, Memory.read_writeList, if_neg (by omega)]

end Sys2Proof.Machine

open Sys2Proof Sys2Proof.Machine

/-- Settles O4: a control byte is one of nine, each checked; F_TICK is a successor. -/
theorem constantsMeetTheirConstraints : Obligations.ConstantsMeetTheirConstraints := by
  refine ⟨by decide, by decide, fun a => by cases a <;> decide, fun b hb => ⟨control_ne_flag hb, ?_, fun a =>
    ⟨bcc1_ne_flag (addr_byte_cases a) hb, bcc1_ne_esc (addr_byte_cases a) hb⟩⟩, by decide, by decide, by decide,
    Nat.succ_pos _⟩
  rintro rfl
  exact absurd hb (by decide)

/-- Settles O5: XOR is associative, commutative and its own inverse. -/
theorem checksumLaws : Obligations.ChecksumLaws := by
  refine ⟨bcc2_append, fun _ _ => bcc2_perm, fun p => (bcc2_snoc_eq_zero p _).mpr rfl, bcc2_snoc_eq_zero, fun a c => ?_,
    fun _ _ _ _ hne h => hne (bcc2_middle_inj h), bcc2_two_changed⟩
  rw [bcc1, BitVec.xor_comm a c, BitVec.xor_assoc, BitVec.xor_self, BitVec.xor_zero]

/-- Settles O9: five bytes are loaded into TXBUF. -/
theorem buildSupWritesFiveBytes : Obligations.BuildSupWritesFiveBytes :=
  fun _ _ s => ⟨rfl, wireOperand_loadTxbuf (by simp), fun _ hk => read_loadTxbuf_beyond _ s hk⟩

/-- Settles O10: stuffing at most doubles the payload and its checksum-2, so the length fits TXLEN. -/
theorem buildInfoWritesTheStuffedFrame : Obligations.BuildInfoWritesTheStuffedFrame := by
  intro sb p s hp c t
  have hlt := infoFrame_length_lt Config.aTx sb hp
  have hlen : t.txLen.toNat = (infoFrame Config.aTx sb p).length := txLen_loadTxbuf s hlt
  refine ⟨rfl, wireOperand_loadTxbuf hlt, ?_, ?_, fun k hk => ?_⟩
  · rw [hlen, infoFrame_length]
  · rw [hlen]
    exact infoFrame_length_le Config.aTx sb p hp
  · exact read_loadTxbuf_beyond _ s (hlen ▸ hk)

/-- Settles O13: the branches of the body's rule that have room for the byte or need none, and the body unit by unit. -/
theorem bodyIsDestuffedIncrementally : Obligations.BodyIsDestuffedIncrementally := by
  refine ⟨fun r b hx hk hb hroom => ?_, fun r w hx hk he hl hw => destuff_takeAll ⟨hx, hk, he, hl⟩ hw⟩
  rw [take_body hx hk, Recognizer.takeBody, if_neg hb]
  split
  · next he =>
    have hlt : r.rxLen.toNat < Config.rxbufCap := by simpa [he] using hroom
    exact append_of_room (r := { r with escPend := false }) hlt _
  · next he =>
    split
    · rfl
    · next hesc =>
      have hlt : r.rxLen.toNat < Config.rxbufCap := by simpa [hesc] using hroom
      exact append_of_room hlt _

/-- Settles O11: inside the run the byte written, outside it the byte before. -/
theorem bufferReadsFollowWrites : Obligations.BufferReadsFollowWrites := by
  refine fun m i bs => ⟨fun k b hk => ?_, fun j hj => ?_, Memory.writeList_wf i bs⟩
  · obtain ⟨hlt, -⟩ := List.getElem?_eq_some_iff.mp hk
    rw [Memory.read_writeList, if_pos (by omega), Nat.add_sub_cancel_left, List.getD_eq_getElem?_getD, hk]
    rfl
  · rw [Memory.read_writeList, if_neg (by omega)]

end

section
/-! SUPPORT. Single steps of the machine (spec/60_exceptions.md, spec/70_reset_and_hazards.md, spec/20_memory.md): commands
refused, ignored or run by role; decoded instructions; polls, ticks and Timeouts; Reset; the moves of the line and of the
channel between two machines. -/

namespace Sys2Proof.Machine

/-! ### Commands (R101, R237) -/

/-- The five conditions of R237 under which a command has no meaning. -/
theorem legal_eq_false {op : Op} {s : State}
    (h : (op = .openCmd ∧ s.session = .opened) ∨ (op ≠ .openCmd ∧ s.session = .closed)
      ∨ (op = .writeCmd ∧ s.cfg.role = .receiver) ∨ (op = .readCmd ∧ s.cfg.role = .sender)
      ∨ (op = .writeCmd ∧ Config.maxPayload < s.txpayLen.toNat)) : legal op s = false := by
  obtain ⟨rfl, hs⟩ | ⟨hop, hs⟩ | ⟨rfl, hr⟩ | ⟨rfl, hr⟩ | ⟨rfl, hlong⟩ := h
  · simp [legal, hs]
  · cases op with
    | openCmd => exact absurd rfl hop
    | writeCmd | readCmd | closeCmd => simp [legal, hs]
  · simp [legal, hr]
  · simp [legal, hr]
  · simp [legal, hlong]

/-! ### Decoded instructions (log 17) -/

/-- What is presented runs as the instruction it decodes to. -/
theorem present_of_decode {u : Fetched} {i : Instr} (h : decode u = .ok i) (s : State) : present u s = exec i s := by
  simp only [present, h]

/-- The opcode of a host word, its bits 1:0 (R101, R105). -/
def wordOp (w : BitVec 3) : Op :=
  if w.extractLsb' 0 2 = 0#2 then .openCmd
  else if w.extractLsb' 0 2 = 1#2 then .writeCmd
  else if w.extractLsb' 0 2 = 2#2 then .readCmd
  else .closeCmd

/-- The role of a host word, its bit 2 (R105). -/
def wordRole (w : BitVec 3) : Role := if w.getLsbD 2 then .receiver else .sender

theorem hostWord_of_word (w : BitVec 3) : hostWord (wordRole w) (wordOp w) = w := by
  revert w; decide

theorem stored_host (w : BitVec 3) (s : State) :
    stored (.host w) s = { s with
      cfg := { s.cfg with role := wordRole w }
      env := { s.env with inputs := .cmd (wordOp w) :: s.env.inputs } } := rfl

/-- A host word that has been stored is presented by the next step. -/
theorem step_stored_host (w : BitVec 3) (s : State) :
    step (stored (.host w) s) = present (.host w) { s with cfg := { s.cfg with role := wordRole w } } := by
  rw [stored_host, step_of (rest := s.env.inputs) rfl (by simp)]
  show present (.host (hostWord (wordRole w) (wordOp w))) _ = _
  rw [hostWord_of_word]
  rfl

/-! ### Every instruction answers a next state -/

theorem exec_next (i : Instr) (s : State) : ∃ t, exec i s = .next t := by
  cases i <;> exact ⟨_, rfl⟩

theorem present_next (u : Fetched) (s : State) : ∃ t, present u s = .next t := by
  unfold present
  split
  · exact exec_next _ s
  · split <;> exact ⟨_, rfl⟩

/-- Of all inputs only a host write beyond TXPAY stops the machine (log 15). -/
theorem takeInput_next_or_fault (i : Input) (s : State) :
    (∃ t, takeInput i s = .next t)
      ∨ (takeInput i s = .fault .noSuchIndex ∧ ∃ k b, i = .putTxpay k b ∧ Config.maxPayload ≤ k) := by
  cases i with
  | cmd op => exact .inl (present_next _ s)
  | wire bs => exact .inl (present_next _ s)
  | putTxpay k b =>
    by_cases hk : Config.maxPayload ≤ k
    · exact .inr ⟨if_pos hk, k, b, rfl, hk⟩
    · exact .inl ⟨_, if_neg hk⟩
  | reset | poll | tick | timeout | putRole | putMaxRetries | putTimeout | putPort | putBaud | putTxpayLen | shimAnswer
  | peerSends | lineDeliver | lineAlter | lineDrop | lineInsert | lineTaken | shimReset => exact .inl ⟨_, rfl⟩

/-! ### Polls and runs of bytes (R65, R66) -/

theorem polling_iff (s : State) :
    polling s = true ↔ s.busy = true ∧ (s.phase = .awaitingResponse ∨ s.phase = .awaitingCommand) := by
  simp [polling]

/-- A run of bytes behind a queued byte is a run behind the rest of the queue, after that byte has been taken. -/
theorem deliver_cons {s : State} {b : Byte} {q bs : List Byte} (ho : s.env.portOpen = true) (hp : polling s = true)
    (hq : s.env.rxQueue = b :: q) (hopen : (rxByte b s).env.portOpen = true) :
    deliver bs s = deliver bs (rxByte b { s with env := { s.env with rxQueue := q } }) := by
  have hrest : deliver bs { rxByte b s with env := { (rxByte b s).env with rxQueue := q } }
      = drain (q ++ bs) { rxByte b s with env := { (rxByte b s).env with rxQueue := q } } := if_pos hopen
  rw [rxByte_setq, hrest, drain_setq, deliver, if_pos ho, hq, List.cons_append, drain, if_pos hp]

/-! ### The timer (R244 to R246) -/

theorem timeoutEvent_inputs {s : State} (hinv : Inv s) (hd : timeoutDue s = true) :
    (timeoutEvent s).env.inputs = s.env.inputs := by
  have harmed := hinv.armed ((timeoutDue_iff s).mp hd).1
  obtain hw | hc := timeout_moves harmed.busy harmed.op
  · exact hw.inputs
  · exact hc.inputs

/-! ### The line and the channel (R66, R67) -/

/-- A move of the environment, as a step. -/
theorem step_moveEnv {i : Input} {f : Env → Env} {rest : List Input} {s : State} (h : s.env.inputs = i :: rest)
    (hi : i ≠ .tick) (ht : takeInput i (withInputs rest s) = .next (moveEnv f (withInputs rest s))) :
    step s = .next { s with env := f { s.env with inputs := rest } } := by
  rw [step_of h hi, ht]
  rfl

/-- A byte carried leaves the order of the bytes in flight as it was, and both machines' registers (R67). -/
theorem carryByte_keeps (src dst : State) :
    (carryByte src dst).2.env.lineIn ++ (carryByte src dst).1.env.lineOut = dst.env.lineIn ++ src.env.lineOut
      ∧ (carryByte src dst).1 = { src with env := (carryByte src dst).1.env }
      ∧ (carryByte src dst).2 = { dst with env := (carryByte src dst).2.env } := by
  unfold carryByte
  split
  · exact ⟨rfl, rfl, rfl⟩
  · next b bs hout => exact ⟨by simp [hout], rfl, rfl⟩

end Sys2Proof.Machine

open Sys2Proof Sys2Proof.Machine

/-- Settles O25: under each of the five conditions the command is not legal. -/
theorem illegalCommandsAreRefused : Obligations.IllegalCommandsAreRefused := by
  intro op rest s hin hb hill
  have hlegal : legal op (withInputs rest s) = false := legal_eq_false hill
  rw [step_cmd hin, hlegal, hc_bad (s := withInputs rest s) hb, illegal_eq]
  rfl

/-- Settles O26: BUSY is tested before anything else. -/
theorem commandsWhileBusyAreIgnored : Obligations.CommandsWhileBusyAreIgnored := by
  intro op rest s hin hb
  rw [step_cmd hin, hostCommand_of_busy (s := withInputs rest s) hb]
  rfl

/-- Settles O27: the two constructors of a command are one meaning, so each crossed form is the form its role has. -/
theorem openAndCloseActByRole : Obligations.OpenAndCloseActByRole := by
  refine ⟨fun s => ⟨rfl, rfl⟩, fun s hb hr => ⟨?_, ?_⟩, fun s hb hr hbudget => ⟨fun hs hok => ?_, fun hs => ?_⟩⟩
  · exact (openReceiverWaitsForSet s hb hr).1
  · exact (closeReceiverWaitsForDisc s hb hr).1
  · exact (openSenderSendsSet s hb hr).1 hs hok hbudget
  · exact (closeSenderSendsDisc s hb hr).1 hs hbudget

/-- Settles O43: decoding is all that stands between what is presented and exec. -/
theorem stepRunsTheDecodedInstruction : Obligations.StepRunsTheDecodedInstruction := by
  refine ⟨fun bs i rest s hin h => ?_, fun op i rest s hin h => ?_, fun bs i s h => ?_, fun w i s h => ?_⟩
  · rw [step_of hin (by simp)]
    exact present_of_decode h _
  · rw [step_of hin (by simp)]
    exact present_of_decode h _
  · exact present_of_decode h _
  · rw [step_stored_host, present_of_decode h, wordRole]

/-- Settles O44: exec is total, and so is every input but a host write beyond TXPAY. -/
theorem nothingButABadIndexStops : Obligations.NothingButABadIndexStops := by
  refine ⟨exec_next, fun s => ?_⟩
  cases hin : s.env.inputs with
  | nil => exact .inl ⟨s, by rw [step, hin]⟩
  | cons i rest =>
    by_cases hi : i = .tick
    · subst hi
      rw [step_tick hin]
      split <;> exact .inl ⟨_, rfl⟩
    · rw [step_of hin hi]
      obtain hnext | ⟨hfault, k, b, rfl, hk⟩ := takeInput_next_or_fault i (withInputs rest s)
      · exact .inl hnext
      · exact .inr ⟨hfault, k, b, rest, rfl, hk⟩

/-- Settles O46: the registers become those of the reset state, the environment stays. -/
theorem resetEventAbandonsTheOperation : Obligations.ResetEventAbandonsTheOperation := by
  intro rest s hin
  refine ⟨resetEvent (withInputs rest s), by rw [step_of hin (by simp)]; rfl, rfl, ?_⟩
  exact ⟨rfl, rfl, rfl, rfl, rfl, rfl, rfl, rfl, rfl, rfl, rfl, rfl, rfl, rfl, rfl, rfl⟩

/-- Settles O39: what is queued is taken from the front and added to at the back. -/
theorem queuedBytesWaitInOrder : Obligations.QueuedBytesWaitInOrder := by
  refine ⟨polling_iff, fun rest s hin => ⟨fun b q hp hq => ?_, fun hidle => ?_⟩, fun bs s => ⟨fun ho hp => ?_,
    fun b q ho hp hq hopen => ?_, fun ho => ?_⟩⟩
  · rw [step_of hin (by simp)]
    exact congrArg Host.Outcome.next (pollOnce_cons (s := withInputs rest s) hp hq)
  · rw [step_of hin (by simp)]
    exact congrArg Host.Outcome.next (pollOnce_idle (s := withInputs rest s) hidle)
  · rw [present_wire, deliver, if_pos ho, drain_notPolling hp]
  · rw [present_wire, present_wire, deliver_cons ho hp hq hopen]
  · rw [present_wire, deliver, if_neg (by simp [ho])]

/-- Settles O40: a Tick counts down, waits for a due Timeout, or does nothing; a due Timeout ends with ALARM = 0 since it
keeps the invariant. -/
theorem timerCountsDownToTheTimeout : Obligations.TimerCountsDownToTheTimeout := by
  refine ⟨fun s => ?_, fun s => rfl, timeoutDue_iff, fun rest s hin hearly => ?_, fun rest s hin =>
    ⟨fun harmed hcount => ?_, fun hdisarmed => ?_, fun hinv hdue => ⟨?_, (hinv.timeout hdue).alarm, ?_⟩⟩⟩
  · rw [arm, timerLoad, Nat.mul_comm]
  · have hdue : timeoutDue s = false := by
      rcases hearly with h | h
      · simp [timeoutDue, h]
      · simp [timeoutDue, h.ne']
    rw [step_timeout_early hin hdue]
    rfl
  · have hdue : ¬ timeoutDue s = true := by simp [timeoutDue_iff, hcount.ne']
    rw [step_tick hin, if_neg hdue, tickTimer, if_pos ⟨harmed, hcount⟩]
    rfl
  · have hdue : ¬ timeoutDue s = true := by simp [timeoutDue_iff, hdisarmed]
    rw [step_tick hin, if_neg hdue, tickTimer, if_neg (by simp [hdisarmed])]
    rfl
  · rw [step_tick hin, if_pos hdue]
  · rw [timeoutEvent_inputs hinv hdue, hin]

/-- Settles O59: each move of the link is one byte carried or a step of one machine. -/
theorem channelKeepsTheOrderOfBytes : Obligations.ChannelKeepsTheOrderOfBytes := by
  refine fun l m => ⟨fun h => ?_, fun h => ?_, fun h => ?_, fun h => ?_⟩
  · cases h
    exact carryByte_keeps l.left l.right
  · cases h
    obtain ⟨horder, hright, hleft⟩ := carryByte_keeps l.right l.left
    exact ⟨horder, hleft, hright⟩
  · unfold linkStep at h
    dsimp only at h
    split at h <;> cases h
    rfl
  · unfold linkStep at h
    dsimp only at h
    split at h <;> cases h
    rfl

/-- Settles O60: each is a move of the environment alone. -/
theorem lineAndShimMoveBytes : Obligations.LineAndShimMoveBytes := by
  refine fun rest s => ⟨fun bs hin => step_moveEnv hin (by simp) rfl, fun b line hline =>
    ⟨fun hin => ?_, fun c hin => ?_, fun hin => ?_⟩, fun hline hin => ?_, fun c hin => ?_,
    fun hin => step_moveEnv hin (by simp) rfl, fun ok hin => step_moveEnv hin (by simp) rfl,
    fun hin => step_moveEnv hin (by simp) rfl⟩
  · rw [step_moveEnv hin (by simp) rfl, lineMoves_cons _ (e := { s.env with inputs := rest }) hline, shimReceives_eq]
  · rw [step_moveEnv hin (by simp) rfl, lineMoves_cons _ (e := { s.env with inputs := rest }) hline, shimReceives_eq]
  · rw [step_moveEnv hin (by simp) rfl, lineMoves_cons _ (e := { s.env with inputs := rest }) hline]
  · rcases hin with hin | ⟨c, hin⟩ | hin
    · rw [step_moveEnv hin (by simp) rfl, lineMoves_nil _ (e := { s.env with inputs := rest }) hline]
    · rw [step_moveEnv hin (by simp) rfl, lineMoves_nil _ (e := { s.env with inputs := rest }) hline]
    · rw [step_moveEnv hin (by simp) rfl, lineMoves_nil _ (e := { s.env with inputs := rest }) hline]
  · rw [step_moveEnv hin (by simp) rfl, shimReceives_eq]

end

section
/-! SUPPORT. Two machines without loss (spec/42_sender_engine.md, spec/43_receiver_read.md, spec/44_handshake.md): each start
leaves an LLC that waits for the frame the other one sends. -/

namespace Sys2Proof.Machine

/-- Running an instruction is an event: a command, or the arrival of its bytes. -/
theorem exec_event {i : Instr} {s t : State} (h : exec i s = .next t) : ∃ j, Event j s t := by
  cases i with
  | set | ua | disc | rr | rej | info | escFlag | escEsc => cases h; exact ⟨_, .bytes _ s⟩
  | openS | openR => cases h; exact ⟨_, .cmd .openCmd s⟩
  | write => cases h; exact ⟨_, .cmd .writeCmd s⟩
  | read => cases h; exact ⟨_, .cmd .readCmd s⟩
  | closeS | closeR => cases h; exact ⟨_, .cmd .closeCmd s⟩

theorem Inv.exec {i : Instr} {s t : State} (hinv : Inv s) (h : exec i s = .next t) : Inv t := by
  obtain ⟨j, he⟩ := exec_event h
  exact he.keepsInv hinv

/-- An instruction that leaves an operation in progress with a restarted recognizer, an open port and an empty queue leaves
an LLC that waits for a frame. -/
theorem Inv.waitsFor {i : Instr} {op : Op} {s t : State} (hinv : Inv s) (h : Machine.exec i s = .next t)
    (hb : t.busy = true) (hop : t.op = op) (hport : t.env.portOpen = true) (hq : t.env.rxQueue = [])
    (hidle : t.recog.rxs = .idle) : WaitsFor op t :=
  ⟨hinv.exec h, hb, hop, hport, hq, by simp [hidle]⟩

/-! ### A WRITE and a READ -/

/-- What a WRITE sends decodes to the information frame of its payload (R118). -/
theorem decode_infoFrame (sb : Bit) {p : List Byte} (h : p.length ≤ Config.maxPayload) :
    decode (.wire (infoFrame Config.aTx sb p)) = .ok (Instr.infoOf sb p) := by
  have hframe := decode_infoWire .tx sb (infoOf_wf sb p h)
  rw [bodyBytes_stuffUnits] at hframe
  exact hframe

theorem write_waits {s : State} (hinv : Inv s) (hb : s.busy = false) (hs : s.session = .opened)
    (hr : s.cfg.role = .sender) (hbudget : s.cfg.maxRetries ≠ 0#8) (hl : s.txpayLen.toNat ≤ Config.maxPayload)
    (hport : s.env.portOpen = true) (hq : s.env.rxQueue = []) :
    ∃ t, exec .write s = .next t ∧ WaitsFor .writeCmd t ∧ t.ns = s.ns
      ∧ wireOperand t = infoFrame Config.aTx s.ns (payloadOperand s) := by
  have hexec := (writeSendsTheFrame s hb hs hr hl).1 hbudget
  refine ⟨_, hexec, hinv.waitsFor hexec rfl rfl hport hq rfl, rfl, ?_⟩
  exact wireOperand_loadTxbuf (s := s) (infoFrame_length_lt _ _ ((payloadOperand_length s).trans_le hl))

theorem read_waits {s : State} (hinv : Inv s) (hb : s.busy = false) (hs : s.session = .opened)
    (hr : s.cfg.role = .receiver) (hport : s.env.portOpen = true) (hq : s.env.rxQueue = []) :
    ∃ t, exec .read s = .next t ∧ WaitsFor .readCmd t ∧ t.nr = s.nr := by
  have hexec := readWaitsForAFrame s hb hs hr
  exact ⟨_, hexec, hinv.waitsFor hexec rfl rfl hport hq rfl, rfl⟩

/-- The frame in step with a READ is delivered, and RR with the new NR answers it (R184). -/
theorem WaitsFor.delivers {s : State} (h : WaitsFor .readCmd s) {p : List Byte} (hp : p.length ≤ Config.maxPayload) :
    ∃ t, exec (Instr.infoOf s.nr p) s = .next t ∧ t.hostPayload = some p ∧ t.nr = 1#1 - s.nr ∧ t.busy = false
      ∧ wireOperand t = supFrame Config.aTx (cRr (1#1 - s.nr)) := by
  obtain ⟨t, hexec, hpayload, ht⟩ :=
    newGoodFrameIsDelivered s (stuffUnits (p ++ [bcc2 p])) p h (infoOf_wf s.nr p hp) (bodyValues_stuffUnits _)
  have hwire : wireOperand t = supFrame Config.aTx (cRr (1#1 - s.nr)) := by
    rw [ht]
    exact wireOperand_loadTxbuf (s := s) (by simp)
  exact ⟨t, hexec, hpayload, by rw [ht], by rw [ht], hwire⟩

end Sys2Proof.Machine

open Sys2Proof Sys2Proof.Machine

/-- Settles O57: the WRITE waits for the RR with which the READ answers the frame. -/
theorem writtenPayloadIsReadBack : Obligations.WrittenPayloadIsReadBack := by
  intro s r hinvS hinvR hsb hss hsr hbudget hlen hsport hsq hrb hrs hrr hrport hrq hstep
  obtain ⟨s1, hwrite, hwaitsS, hns, hsent⟩ := write_waits hinvS hsb hss hsr hbudget hlen hsport hsq
  obtain ⟨r1, hread, hwaitsR, hnr⟩ := read_waits hinvR hrb hrs hrr hrport hrq
  have hp : (payloadOperand s).length ≤ Config.maxPayload := (payloadOperand_length s).trans_le hlen
  obtain ⟨r2, hinfo, hpayload, hflipR, hdoneR, hanswer⟩ := hwaitsR.delivers hp
  have hinfoDecoded := decode_infoFrame s.ns hp
  have hrrDecoded : decode (.wire (supFrame Config.aTx (cRr (1#1 - r.nr)))) = .ok (.rr .tx (1#1 - r.nr)) :=
    decode_supFrame (decodeControl_cRr .tx _)
  have hrrExec := expectedRrCompletesTheWrite.1 s1 hwaitsS
  rw [hnr] at hinfo hflipR hanswer
  rw [← hsent, hstep] at hinfoDecoded
  rw [← hanswer] at hrrDecoded
  rw [hns, hstep] at hrrExec
  exact ⟨s1, r1, _, r2, _, _, hwrite, hread, hinfoDecoded, hinfo, hpayload, hrrDecoded, hrrExec, rfl, by rw [hstep],
    hflipR, hflipR.symm, rfl, hdoneR⟩

/-- Settles O58: each start waits for the frame with which the other side answers. -/
theorem handshakesMeet : Obligations.HandshakesMeet := by
  constructor
  · intro s r hinvS hinvR hsb hss hsr hbudget hsok hsq hrb hrs hrr hrok hrq
    have hopenS := (openSenderSendsSet s hsb hsr).1 hss hsok hbudget
    have hopenR := (openReceiverWaitsForSet r hrb hrr).1 hrs hrok
    have hset := setOpensTheReceiver.1 _ (hinvR.waitsFor hopenR rfl rfl rfl hrq rfl) hrr
    have hua := uaOpensTheSender.1 _ (hinvS.waitsFor hopenS rfl rfl rfl hsq rfl) hsr
    exact ⟨_, _, _, _, hopenS, hopenR, hset, hua, rfl, rfl, rfl, rfl, rfl, rfl, rfl, rfl⟩
  · intro s r hinvS hinvR hsb hss hsr hbudget hsport hsq hrb hrs hrr hrport hrq
    have hcloseS := (closeSenderSendsDisc s hsb hsr).1 hss hbudget
    have hcloseR := (closeReceiverWaitsForDisc r hrb hrr).1 hrs
    have hdiscR := discClosesTheSession.1 _ (hinvR.waitsFor hcloseR rfl rfl hrport hrq rfl) hrr
    have hdiscS := discClosesTheSession.2.1 _ (hinvS.waitsFor hcloseS rfl rfl hsport hsq rfl) hsr
    exact ⟨_, _, _, _, hcloseS, hcloseR, hdiscR, hdiscS, rfl, rfl, rfl, rfl, rfl, rfl, rfl, rfl, rfl⟩

end
